-- ==== Sys2Proof/Word.lean ====
section
/-!
DEFINITION. The value types of the block: the 32-bit word of the command port (R7, R80), the binary32 bit
pattern of a memory element (R61), the binary64 value every real quantity has (R9), and the stereo pair.
-/

namespace Sys2Proof

/-- A 32-bit word: a header, a data word, `STATUS`, `RESULT` (R7, R27, R28, R81). -/
abbrev Word := BitVec 32

/-- One byte of the host's view of a memory element (R61). -/
abbrev Byte := BitVec 8

/-- The bit pattern of an IEEE 754 binary32 value: the content of one memory element (R9, R61). -/
abbrev F32 := BitVec 32

/-- An IEEE 754 binary64 value (R9), held as its bit pattern.  All patterns that are NaN stand for the one
value NaN: no rule reads a NaN's sign or payload, and the pattern that reaches output memory is a free value
(`Config.nanPattern`). -/
structure F64 where
  bits : BitVec 64
deriving DecidableEq, Repr, Inhabited

/-- A stereo pair of binary64 values: a frame, a ring element, an accumulator element (R25, R26, R43). -/
structure Stereo where
  l : F64
  r : F64
deriving DecidableEq, Repr, Inhabited

/-- Positive zero. -/
def F64.zero : F64 := ⟨0x0000000000000000#64⟩

/-- The pair (0.0, 0.0). -/
def Stereo.zero : Stereo := ⟨F64.zero, F64.zero⟩

end Sys2Proof
end

