-- ==== Sys2Proof/Syntax.lean ====
section
/-!
DEFINITION. The commands of the block: one constructor per row of spec/opcode_table.json (R84).  Operand
fields have the widths of R81; a selector is kept as its number, and `Instr.wellFormed` refuses the reserved
ones (R86, R88).
-/

namespace Sys2Proof

/-- A command of the host interface (R84). -/
inductive Instr where
  /-- `NOP` (R248). -/
  | nop
  /-- `SETV`: selector, voice slot, data word (R140). -/
  | setv (sel : BitVec 8) (voice : BitVec 8) (d : Word)
  /-- `NOTEON`: channel, voice slot, start offset in samples (R141). -/
  | noteon (ch : BitVec 4) (voice : BitVec 8) (off : Word)
  /-- `RELEASE`: voice slot (R142). -/
  | release (voice : BitVec 8)
  /-- `KILL`: voice slot (R144). -/
  | kill (voice : BitVec 8)
  /-- `UPDARGS` with `SEL` 0: voice slot (R143). -/
  | updargs (voice : BitVec 8)
  /-- `UPDARGS.CH`, `UPDARGS` with `SEL` 1: channel (R143). -/
  | updargsCh (ch : BitVec 4)
  /-- `SETC`: selector, channel, data word (R244). -/
  | setc (sel : BitVec 8) (ch : BitVec 4) (d : Word)
  /-- `SETG`: selector, data word (R245). -/
  | setg (sel : BitVec 8) (d : Word)
  /-- `PROCESS`: sample count (R230). -/
  | process (n : Word)
  /-- `NOTEOFF`: channel, key before clamping (R240). -/
  | noteoff (ch : BitVec 4) (key : Word)
  /-- `ALLOFF` (R241). -/
  | alloff
  /-- `CLRSTAT`: mask (R247). -/
  | clrstat (mask : Word)
  /-- `RDVOICE`: selector, voice slot (R145). -/
  | rdvoice (sel : BitVec 8) (voice : BitVec 8)
deriving DecidableEq, Repr, Inhabited

end Sys2Proof
end

