-- ==== Sys2Proof/WellFormed.lean ====
section
/-!
DEFINITION. The static check of a command: its selector is not a reserved one (R86, R88, R89).  Every other
operand is legal at every value of its field; what a value then does is the command's rule.
-/

namespace Sys2Proof

/-- One more than the last SETV selector (R86). -/
def setvSelectors : Nat := 0x17

/-- One more than the last SETC selector (R86). -/
def setcSelectors : Nat := 0x09

/-- One more than the last SETG selector (R86). -/
def setgSelectors : Nat := 0x04

/-- One more than the last RDVOICE selector (R88). -/
def rdvoiceSelectors : Nat := 0x0A

/-- The command has no reserved selector. -/
def Instr.wellFormed : Instr → Bool
  | .nop => true
  | .setv sel _ _ => sel.toNat < setvSelectors
  | .noteon _ _ _ => true
  | .release _ => true
  | .kill _ => true
  | .updargs _ => true
  | .updargsCh _ => true
  | .setc sel _ _ => sel.toNat < setcSelectors
  | .setg sel _ => sel.toNat < setgSelectors
  | .process _ => true
  | .noteoff _ _ => true
  | .alloff => true
  | .clrstat _ => true
  | .rdvoice sel _ => sel.toNat < rdvoiceSelectors

end Sys2Proof
end

