-- ==== Sys2Proof/Decode.lean ====
section
/-!
DEFINITION. From a command's two words to the command, total and rejecting by name (R80, R81, R84, R85), the
encoder written from the same table, and the pseudo-instructions of R91.

The last check of R85, `VOICE ≥ NUM_VOICES`, depends on the machine and not on the words: every meaning that
takes a slot makes it first (`State.withSlot`), so it stands where R85 puts it, after the checks below and
before the command's own.
-/

namespace Sys2Proof

/-- Why a pair of words is no command.  Every one of them raises `ERR_ILLEGAL` (R85, R89, R262). -/
inductive DecodeError where
  /-- `OP` is 0x0D or above. -/
  | reservedOpcode
  /-- `RSV`, `H[11:8]`, is not zero. -/
  | reservedField
  /-- A header field the opcode does not use is not zero. -/
  | unusedField
  /-- A data word of kind `z` is not zero. -/
  | dataNotZero
  /-- The selector is reserved for the opcode. -/
  | reservedSelector
deriving DecidableEq, Repr, Inhabited

/-- What decoding answers. -/
inductive Decoded where
  | ok (i : Instr)
  | rejected (why : DecodeError)
deriving DecidableEq, Repr, Inhabited

/-! ### Header fields (R81) -/

/-- `OP`, `H[31:24]`. -/
def headerOp (h : Word) : BitVec 8 := h.extractLsb' 24 8
/-- `SEL`, `H[23:16]`. -/
def headerSel (h : Word) : BitVec 8 := h.extractLsb' 16 8
/-- `CH`, `H[15:12]`. -/
def headerCh (h : Word) : BitVec 4 := h.extractLsb' 12 4
/-- `RSV`, `H[11:8]`. -/
def headerRsv (h : Word) : BitVec 4 := h.extractLsb' 8 4
/-- `VOICE`, `H[7:0]`. -/
def headerVoice (h : Word) : BitVec 8 := h.extractLsb' 0 8

/-- The header word with the given fields and `RSV` zero (R81). -/
def header (op sel : BitVec 8) (ch : BitVec 4) (voice : BitVec 8) : Word :=
  op ++ sel ++ ch ++ 0#4 ++ voice

/-- The checks of R85 that follow the opcode's own, for one opcode: `unused` says an unused header field is
not zero, `z` that the data word is of kind `z`; `sels` is one more than the last selector, where `SEL` is
used. -/
def decodeChecked (unused : Bool) (z : Bool) (sels : Option Nat) (sel : BitVec 8) (d : Word)
    (i : Instr) : Decoded :=
  if unused then .rejected .unusedField
  else if z && d != 0#32 then .rejected .dataNotZero
  else if sels.any (· ≤ sel.toNat) then .rejected .reservedSelector
  else .ok i

/-- The rows of R84 for the fields of a header whose `RSV` is zero. -/
def decodeFields (op sel : BitVec 8) (ch : BitVec 4) (voice : BitVec 8) (d : Word) : Decoded :=
  let selUsed := sel != 0#8
  let chUsed := ch != 0#4
  let voiceUsed := voice != 0#8
  match op.toNat with
  | 0x00 => decodeChecked (selUsed || chUsed || voiceUsed) true none sel d .nop
  | 0x01 => decodeChecked chUsed false (some setvSelectors) sel d (.setv sel voice d)
  | 0x02 => decodeChecked selUsed false none sel d (.noteon ch voice d)
  | 0x03 => decodeChecked (selUsed || chUsed) true none sel d (.release voice)
  | 0x04 => decodeChecked (selUsed || chUsed) true none sel d (.kill voice)
  | 0x05 =>
    -- R87: `SEL` 0 uses `VOICE`, `SEL` 1 uses `CH`, the rest is reserved
    if sel = 0#8 then decodeChecked chUsed true none sel d (.updargs voice)
    else if sel = 1#8 then decodeChecked voiceUsed true none sel d (.updargsCh ch)
    else .rejected .reservedSelector
  | 0x06 => decodeChecked voiceUsed false (some setcSelectors) sel d (.setc sel ch d)
  | 0x07 => decodeChecked (chUsed || voiceUsed) false (some setgSelectors) sel d (.setg sel d)
  | 0x08 => decodeChecked (selUsed || chUsed || voiceUsed) false none sel d (.process d)
  | 0x09 => decodeChecked (selUsed || voiceUsed) false none sel d (.noteoff ch d)
  | 0x0A => decodeChecked (selUsed || chUsed || voiceUsed) true none sel d .alloff
  | 0x0B => decodeChecked (selUsed || chUsed || voiceUsed) false none sel d (.clrstat d)
  | 0x0C => decodeChecked chUsed true (some rdvoiceSelectors) sel d (.rdvoice sel voice)
  | _ => .rejected .reservedOpcode

/-- Decoding of a header and a data word, in the order of R85. -/
def decode (h d : Word) : Decoded :=
  if 0x0D ≤ (headerOp h).toNat then .rejected .reservedOpcode
  else if headerRsv h != 0#4 then .rejected .reservedField
  else decodeFields (headerOp h) (headerSel h) (headerCh h) (headerVoice h) d

/-- The header and data word of a command (R81, R84). -/
def encode : Instr → Word × Word
  | .nop => (header 0x00#8 0#8 0#4 0#8, 0#32)
  | .setv sel voice d => (header 0x01#8 sel 0#4 voice, d)
  | .noteon ch voice off => (header 0x02#8 0#8 ch voice, off)
  | .release voice => (header 0x03#8 0#8 0#4 voice, 0#32)
  | .kill voice => (header 0x04#8 0#8 0#4 voice, 0#32)
  | .updargs voice => (header 0x05#8 0#8 0#4 voice, 0#32)
  | .updargsCh ch => (header 0x05#8 1#8 ch 0#8, 0#32)
  | .setc sel ch d => (header 0x06#8 sel ch 0#8, d)
  | .setg sel d => (header 0x07#8 sel 0#4 0#8, d)
  | .process n => (header 0x08#8 0#8 0#4 0#8, n)
  | .noteoff ch key => (header 0x09#8 0#8 ch 0#8, key)
  | .alloff => (header 0x0A#8 0#8 0#4 0#8, 0#32)
  | .clrstat mask => (header 0x0B#8 0#8 0#4 0#8, mask)
  | .rdvoice sel voice => (header 0x0C#8 sel 0#4 voice, 0#32)

/-- The host's numbering of a command's bits: the header is bits 31..0 and the data word bits 63..32; the
bits from `nbits` up are zero. -/
def tableWords (nbits w : Nat) : Word × Word :=
  (BitVec.ofNat 32 (w % 2 ^ nbits), BitVec.ofNat 32 (w % 2 ^ nbits / 2 ^ 32))

/-- The command the decoder reads from a row's bits. -/
def decodeTableWord (nbits w : Nat) : Option Instr :=
  match decode (tableWords nbits w).1 (tableWords nbits w).2 with
  | .ok i => some i
  | .rejected _ => none

/-! ### Pseudo-instructions (R91) -/

/-- `PLAY v, ch, key, vel`. -/
def expandPlay (voice : BitVec 8) (ch : BitVec 4) (key vel : Word) : List Instr :=
  [.setv 0x00#8 voice key, .setv 0x01#8 voice vel, .noteon ch voice 0#32]

/-- `ADSR v, a, d, s, r`. -/
def expandAdsr (voice : BitVec 8) (a d s r : Word) : List Instr :=
  [.setv 0x06#8 voice a, .setv 0x07#8 voice d, .setv 0x08#8 voice s, .setv 0x09#8 voice r]

/-- `CLRALL`. -/
def expandClrall : List Instr := [.clrstat 0x1F#32]

/-- `ISDEAD v`. -/
def expandIsdead (voice : BitVec 8) : List Instr := [.rdvoice 0x01#8 voice]

end Sys2Proof
end

