-- ==== Sys2Proof/Config.lean ====
section
/-!
DEFINITION. What an implementation fixes (R6, R283) and the values the spec leaves free.

`Params` holds the parameters of R6 and R283 that are data; it is a field of `State` that no step changes, so a
statement about every state is a statement about every configuration.  The parameters that are functions,
and every free value, are constants without a body: nothing can be proved of them but what the wrappers of
Machine/Numeric.lean, Machine/Resampler.lean and Machine/Reverb.lean build in.
-/

namespace Sys2Proof

/-- What the host sees of the block (R65): the command port, the two read-only registers, the elements of the two
memories. -/
inductive Resource where
  | port
  | status
  | result
  | smp (i : Nat)
  | out (i : Nat)
deriving DecidableEq, Repr, Inhabited

/-- `PLATFORM_MAP` (R65, R283): the host addresses, each with the resource it places there. -/
abbrev PlatformMap := List (Nat × Resource)

/-- One map: a word each from address 0 on, for the port, the registers, sample memory and output memory. -/
def PlatformMap.consecutive (smpWords outWords : Nat) : PlatformMap :=
  let resources : List Resource :=
    [.port, .status, .result] ++ (List.range smpWords).map .smp ++ (List.range outWords).map .out
  resources.zipIdx.map fun x => (4 * x.2, x.1)

/-- The implementation parameters of R6 and R283 that are data.  DESIGN CHOICE (log entry 30): `BLEP_N`,
`BLEP_RES` and `LFO_TICKS_PER_BEAT`, which R6 gives no kind, are natural numbers; a fraction is shut out. -/
structure Params where
  /-- `NUM_VOICES`, 1..256 (R6, R29). -/
  numVoices : Nat
  /-- `BLOCK_MAX`, the largest count of one PROCESS (R6, R230). -/
  blockMax : Nat
  /-- `SMP_WORDS`, the size of sample memory in elements (R6, R62). -/
  smpWords : Nat
  /-- `HWBUF`, the number of hardware buffers of the reverb ring, at least 2 (R6, R210). -/
  hwbuf : Nat
  /-- `BLEP_N`, half width of the Blep window (R6, R196), a natural number by log entry 30. -/
  blepN : Nat
  /-- `BLEP_RES`, table points per unit (R6, R196), a natural number by log entry 30. -/
  blepRes : Nat
  /-- `BLEP_TAPER`, width of the edge taper (R6, R196). -/
  blepTaper : F64
  /-- `LFO_TICKS_PER_BEAT` (R6, R123), a natural number by log entry 30. -/
  lfoTicksPerBeat : Nat
  /-- `GB_CLOCK` (R6, R157). -/
  gbClock : F64
  /-- `TIMER_MAX` (R6, R162). -/
  timerMax : Nat
  /-- `RINC_MAX` (R6, R151). -/
  rincMax : F64
  /-- Whether this implementation replaces the default `SAW_FN` of R172 by its own. -/
  sawCustom : Bool
  /-- Whether this implementation replaces the default `TRI_FN` of R174 by its own. -/
  triCustom : Bool
  /-- `PLATFORM_MAP`, the placement in the host's address space (R65, R283). -/
  platformMap : PlatformMap
deriving DecidableEq, Repr, Inhabited

/-- The configuration `State.reset` is an instance of: the defaults of R6 where it gives one, and for its
OPEN numbers the common assumptions of 95_test_vectors.md (`NUM_VOICES` 8, `BLOCK_MAX` 64, `SMP_WORDS` 64,
`HWBUF` 2).  DESIGN CHOICE (log entries 3, 4 and 19): `BLEP_N`, `BLEP_RES`, `BLEP_TAPER` and `PLATFORM_MAP` have
no value in the spec.
Unsafe for a claim about this one configuration; `State.resetOf` takes any. -/
def Params.standard : Params where
  numVoices := 8
  blockMax := 64
  smpWords := 64
  hwbuf := 2
  blepN := 8
  blepRes := 64
  blepTaper := ⟨0x3FF0000000000000#64⟩
  lfoTicksPerBeat := 24
  gbClock := ⟨0x4100000000000000#64⟩
  timerMax := 2047
  rincMax := ⟨0x4090000000000000#64⟩
  sawCustom := false
  triCustom := false
  platformMap := PlatformMap.consecutive 64 128

/-- The two two-ring reverb variants (R215, R216). -/
inductive Variant where
  | A
  | B
deriving DecidableEq, Repr, Inhabited

/-! ### Configuration functions -/

/-- Off the integers, `EXP2` (R16) is this monotone map between order keys, limited to the interval that
exactness at the integers leaves (`F64.exp2`). -/
opaque Config.exp2Key : ℕ →o ℕ

/-- `EXP2` of NaN.  R16 states no property of it. -/
opaque Config.exp2Nan : F64

/-- The sign of `EXP2(x)` where it is a zero, as it can be below -1000: the properties of R16 do not tell the two
zeros apart. -/
opaque Config.exp2ZeroSign : F64 → Bool

/-- `BLEP_TABLE` (R196) for a given `BLEP_N`, `BLEP_RES` and `BLEP_TAPER`: the value at each index.  Index 0
and index `2 × N × R` are fixed or limited by `blepA`.  At index `2 × N × R + 1`, which the table of R196 does not
have, a free value (log entry 26). -/
opaque Config.blepTable : Nat → Nat → F64 → Nat → F64

/-- `A_{2NR}` of R196 as a positive binary64 pattern, less one. -/
opaque Config.blepLast : Nat → Nat → F64 → Fin 0x7FF0000000000000

/-- `SAW_FN` of an implementation that does not take the default (R172). -/
opaque Config.sawFn : Word → F64

/-- `TRI_FN` of an implementation that does not take the default (R174). -/
opaque Config.triFn : Word → F64

/-- `REVX_LEN1 - 1` as a function of `G.SPF` and `HWBUF` (R216: the lengths are at least 1 and may depend
on both). -/
opaque Config.revLen1Pred : Variant → Nat → Nat → Nat

/-- Decides `REVX_LEN2` among the lengths at least 1 that differ from `REVX_LEN1` (R216). -/
opaque Config.revLen2Pred : Variant → Nat → Nat → Nat

/-- `REVX_INIT1` (R216): an integer that may be negative. -/
opaque Config.revInit1 : Variant → Int

/-- `REVX_INIT2` (R216). -/
opaque Config.revInit2 : Variant → Int

/-- `REVX_MIX` (R216): intensity, dry pair and the two ring pairs to the output pair and the two pairs
written back. -/
opaque Config.revMix : Variant → F64 → Stereo → Stereo → Stereo → Stereo × Stereo × Stereo

/-! ### Free values -/

/-- The pattern of a NaN that PROCESS writes to output memory (R9 fixes the value NaN, not its sign or
payload): sign, and fraction less one.  Arguments: the run of PROCESS, the channel, the element. -/
opaque Config.nanPattern : Nat → Nat → Nat → Bool × Fin 0x7FFFFF

/-- `BPM_ACC` after an LFO clock whose loop (R123) has no last iteration.  Arguments: the run of PROCESS,
the slot, the sample. -/
opaque Config.lfoStuckAcc : Nat → Nat → Nat → F64

/-- `LFO_PHASE` after an LFO clock whose loop (R123) has no last iteration. -/
opaque Config.lfoStuckPhase : Nat → Nat → Nat → BitVec 8

/-- The integer that `floor`, `ceil` or rounding to an integer gives of NaN or an infinity (R9 states none).
No run from reset needs it. -/
opaque Config.integerOfNonFinite : F64 → Int

/-- The smaller of two values of which one is NaN (R151 states none).  No run from reset needs it. -/
opaque Config.minWithNaN : F64 → F64 → F64

/-- The u64 that a sum of 2^64 or more leaves in a u64 register (`G.SEQ` of R23, `RIDX` of R43). -/
opaque Config.u64Overflow : Nat → BitVec 64

/-- What RDVOICE leaves in `RESULT` of an item of 2^32 or more, a `TIMER` under a `TIMER_MAX` that large (R145
extends an item to 32 bits, R6 bounds no `TIMER_MAX`). -/
opaque Config.resultBeyond : Nat → Word

/-- The element `SmpRead` gives at an index of `SMP_WORDS` or more; R62 says the read cannot occur. -/
opaque Config.smpBeyond : Nat → F32

end Sys2Proof
end

