-- ==== Sys2Proof/Machine/State.lean ====
section
/-!
DEFINITION. The state of the block (10_state.md), plain data, and its value after reset (R48, R280).

A register of width N is a `BitVec N`, read unsigned for the kinds u and signed for the kinds i of R22, R24 and
R33; an enumeration is an inductive type.
-/

namespace Sys2Proof.Machine

/-- Memory content: (byte address, byte) pairs, addresses strictly rising, no listed byte equal to
`Memory.unlisted`.  Byte k of element i has the address 4 i + k (R61). -/
abbrev Memory := List Host.Cell

/-- What an unlisted byte of sample or output memory reads as.  R282 leaves the content after power-on
unspecified.  DESIGN CHOICE (log entry 5): 0x00.  Unsafe for a claim about the run from `State.reset`; every
other content is another `Memory`, and statements quantify over it. -/
def Memory.unlisted : Byte := 0#8

/-- A reverb ring or an accumulation buffer: (index, pair) entries, indices strictly rising, no listed pair
equal to (0.0, 0.0), which every unlisted index holds (R25, R26, R48). -/
abbrev Ring := List (Nat × Stereo)

/-! ### Enumerations -/

/-- `V[v].STATE` (R30). -/
inductive VState where
  | free | init | atk | dec | sus | rel | pseudoEcho | die | dead
deriving DecidableEq, Repr, Inhabited

/-- `DSP_TYPE` (R33). -/
inductive DspType where
  | none | pcm | pcmFixed | pulse | saw | triangle | square
deriving DecidableEq, Repr, Inhabited

/-- `SMP_CHANNELS` (R33): one or two elements a frame. -/
inductive SmpChannels where
  | mono | stereo
deriving DecidableEq, Repr, Inhabited

/-- `REVERB_TYPE` (R24). -/
inductive ReverbType where
  | off | base | variant (x : Variant)
deriving DecidableEq, Repr, Inhabited

/-! ### Registers -/

/-- The global registers (R22, R23). -/
structure Globals where
  /-- `OUTPUT_GAIN`. -/
  outputGain : F64
  /-- `SAMPLE_RATE`. -/
  sampleRate : F64
  /-- `SPF`, samples of one sub-frame (R100). -/
  spf : BitVec 16
  /-- `BPM`. -/
  bpm : F64
  /-- `G.SEQ` (R23). -/
  seq : BitVec 64
deriving DecidableEq, Repr, Inhabited

/-- The channel registers that a voice latches (R24, R34). -/
structure Args where
  volume : BitVec 7
  pan : BitVec 7
  tune : BitVec 16
  pitchWheel : BitVec 7
  bendRange : BitVec 7
  lfoSpeed : BitVec 8
  lfoDepth : BitVec 7
deriving DecidableEq, Repr, Inhabited

/-- One channel: registers (R24), reverb state (R25), accumulation buffer (R26). -/
structure Channel where
  args : Args
  reverbType : ReverbType
  reverbIntensity : BitVec 7
  ring0 : Ring
  ring1 : Ring
  ring2 : Ring
  cur0 : Nat
  cur1 : Nat
  cur2 : Nat
  acc : Ring
deriving DecidableEq, Repr, Inhabited

/-- The birth fields of a voice slot (R33). -/
structure Birth where
  key : BitVec 7
  velocity : BitVec 7
  panOffset : BitVec 7
  echoVol : BitVec 8
  echoLen : BitVec 8
  track : BitVec 8
  att : BitVec 8
  dec : BitVec 8
  sus : BitVec 8
  rel : BitVec 8
  dspType : DspType
  stairstep : Bool
  midcFreq : F64
  duty : BitVec 2
  sweep : BitVec 8
  pwmBase : Word
  pwmStep : Word
  pwmDepth : BitVec 9
  smpBase : Word
  smpEnd : Word
  smpLoopEn : Bool
  smpLoopPos : Word
  smpChannels : SmpChannels
deriving DecidableEq, Repr, Inhabited

/-- The runtime fields of a voice slot (R35-R43). -/
structure Runtime where
  /-- `LEVEL` (R35). -/
  level : BitVec 8
  /-- `RELEASED` (R35). -/
  released : Bool
  /-- `ECHO_CNT` (R35). -/
  echoCnt : BitVec 8
  /-- `DELAY` (R36). -/
  delay : Word
  /-- `SUBCNT` (R36). -/
  subcnt : BitVec 16
  /-- `SUBIDX` (R36). -/
  subidx : BitVec 2
  /-- `WPREV_L` (R37). -/
  wprevL : Nat
  /-- `WPREV_R` (R37). -/
  wprevR : Nat
  /-- `WCUR_L` (R37). -/
  wcurL : Nat
  /-- `WCUR_R` (R37). -/
  wcurR : Nat
  /-- `FREQ` (R37). -/
  freq : F64
  /-- `LFO_PHASE` (R38). -/
  lfoPhase : BitVec 8
  /-- `BPM_ACC` (R38). -/
  bpmAcc : F64
  /-- `SWEEP_ON` (R39). -/
  sweepOn : Bool
  /-- `TIMER`, 0..`TIMER_MAX` (R39). -/
  timer : Nat
  /-- `PWM_ACC` (R40). -/
  pwmAcc : Word
  /-- `THR_PREV` (R40). -/
  thrPrev : Word
  /-- `THR_CUR` (R40). -/
  thrCur : Word
  /-- `PHASE` (R41). -/
  phase : Word
  /-- `PHASE_INC` (R41). -/
  phaseInc : Word
  /-- `RDPOS` (R42). -/
  rdpos : Word
  /-- `SRC_END` (R42). -/
  srcEnd : Bool
  /-- `RBUF` (R43). -/
  rbuf : List Stereo
  /-- `RIDX` (R43). -/
  ridx : BitVec 64
  /-- `RPHASE` (R43). -/
  rphase : F64
  /-- `RINC` (R43). -/
  rinc : F64
deriving DecidableEq, Repr, Inhabited

/-- One voice slot (R29, R32). -/
structure Voice where
  /-- `STATE` (R30). -/
  state : VState
  /-- `CH` (R44). -/
  ch : BitVec 4
  /-- `SEQ` (R44). -/
  seq : BitVec 64
  /-- The birth fields (R33). -/
  birth : Birth
  /-- `ARGP`, the pending arguments (R34). -/
  argp : Args
  /-- `ARG`, the active arguments (R34). -/
  arg : Args
  /-- The runtime fields (R35-R43). -/
  rt : Runtime
deriving DecidableEq, Repr, Inhabited

/-! ### The command port and the host -/

/-- The command port (R281): the bit `PHASE`, and in phase DATA the latched header. -/
inductive Port where
  | header
  | data (h : Word)
deriving DecidableEq, Repr, Inhabited

/-- What the host or the platform does next to the block (R20, R62, R63, R65, R280). -/
inductive HostEvent where
  /-- A write of a word to the command port. -/
  | port (w : Word)
  /-- A write of one element of sample memory. -/
  | writeSmp (i : Nat) (v : F32)
  /-- A write of one element of output memory. -/
  | writeOut (i : Nat) (v : F32)
  /-- A write of a word to a host address, to what `PLATFORM_MAP` places there. -/
  | store (a : Nat) (w : Word)
  /-- The reset event of the platform. -/
  | reset
deriving DecidableEq, Repr, Inhabited

/-! ### The state -/

/-- The state of the block.  `cfg` is the configuration (R283), which no step changes.  `input` and `freeTag`
are the model's own (DESIGN CHOICE, log entries 1 and 21): the accesses the host will make next, and the counter
the free values are applied to. -/
structure State where
  /-- The parameters of R6 (R283). -/
  cfg : Params
  /-- The global registers (R22, R23). -/
  glob : Globals
  /-- `C[0..15]` (R24-R26). -/
  chans : Vector Channel 16
  /-- `V[0..NUM_VOICES-1]` (R29). -/
  voices : List Voice
  /-- `STATUS` (R27). -/
  status : Word
  /-- `RESULT` (R28). -/
  result : Word
  /-- The command port (R281). -/
  port : Port
  /-- Sample memory (R62). -/
  smpMem : Memory
  /-- Output memory (R63). -/
  outMem : Memory
  /-- MODEL'S OWN: what the host does next, first to last. -/
  input : List HostEvent
  /-- MODEL'S OWN: how many PROCESS commands have run; each run's free values are its own. -/
  freeTag : Nat
deriving DecidableEq, Repr

/-! ### Reset values -/

/-- The reset column of R22, and R23. -/
def Globals.reset : Globals where
  outputGain := ⟨0x3FF0000000000000#64⟩
  sampleRate := ⟨0x40E7700000000000#64⟩
  spf := 200#16
  bpm := ⟨0x405E000000000000#64⟩
  seq := 0#64

/-- The reset column of R24, the registers a voice latches. -/
def Args.reset : Args where
  volume := 100#7
  pan := 0#7
  tune := 0#16
  pitchWheel := 0#7
  bendRange := 2#7
  lfoSpeed := 0#8
  lfoDepth := 0#7

/-- Every argument zero: `ARGP` and `ARG` of a slot after reset.  DESIGN CHOICE (log entry 6): the spec gives
these copies no reset value; NOTEON writes both before any rule reads them. -/
def Args.zero : Args := ⟨0#7, 0#7, 0#16, 0#7, 0#7, 0#8, 0#7⟩

/-- The reset column of R24, and R48 for the reverb state (`REVERB_TYPE` 0, so every cursor is 0, R219). -/
def Channel.reset : Channel where
  args := Args.reset
  reverbType := .off
  reverbIntensity := 0#7
  ring0 := []
  ring1 := []
  ring2 := []
  cur0 := 0
  cur1 := 0
  cur2 := 0
  acc := []

/-- The reset column of R33. -/
def Birth.reset : Birth where
  key := 60#7
  velocity := 127#7
  panOffset := 0#7
  echoVol := 0#8
  echoLen := 0#8
  track := 0#8
  att := 0xFF#8
  dec := 0x00#8
  sus := 0xFF#8
  rel := 0x00#8
  dspType := .none
  stairstep := false
  midcFreq := ⟨0x3FF0000000000000#64⟩
  duty := 2#2
  sweep := 0x00#8
  pwmBase := 0x80000000#32
  pwmStep := 0#32
  pwmDepth := 0#9
  smpBase := 0#32
  smpEnd := 0#32
  smpLoopEn := false
  smpLoopPos := 0#32
  smpChannels := .mono

/-- The NOTEON values of R35-R43, with the given `DELAY` (R36). -/
def Runtime.initial (delay : Word) : Runtime where
  level := 0#8
  released := false
  echoCnt := 0#8
  delay := delay
  subcnt := 0#16
  subidx := 0#2
  wprevL := 0
  wprevR := 0
  wcurL := 0
  wcurR := 0
  freq := F64.zero
  lfoPhase := 0#8
  bpmAcc := F64.zero
  sweepOn := false
  timer := 0
  pwmAcc := 0#32
  thrPrev := 0#32
  thrCur := 0#32
  phase := 0#32
  phaseInc := 0#32
  rdpos := 0#32
  srcEnd := false
  rbuf := []
  ridx := 0#64
  rphase := F64.zero
  rinc := F64.zero

/-- A voice slot after reset (R48).  DESIGN CHOICE (log entry 6): `CH`, `SEQ`, `ARGP` and `ARG`, to which the
spec gives no reset value, are zero. -/
def Voice.reset : Voice where
  state := .free
  ch := 0#4
  seq := 0#64
  birth := Birth.reset
  argp := Args.zero
  arg := Args.zero
  rt := Runtime.initial 0#32

/-- The block after reset (R48, R280) for any configuration and any memory contents (R282). -/
def State.resetOf (cfg : Params) (smp out : Memory) : State where
  cfg := cfg
  glob := Globals.reset
  chans := Vector.replicate 16 Channel.reset
  voices := List.replicate cfg.numVoices Voice.reset
  status := 0#32
  result := 0#32
  port := .header
  smpMem := smp
  outMem := out
  input := []
  freeTag := 0

/-- The block right after reset, with the configuration `Params.standard` and nothing listed in memory. -/
def State.reset : State := State.resetOf Params.standard [] []

/-! ### Why a step stops -/

/-- Why the block stops.  No command raises one: every command on every pair of words has a defined outcome
(R272). -/
inductive Fault where
  /-- Raised by `step` for a host write to an element of sample memory at `SMP_WORDS` or above, which does not
  exist (R62).  Safe: the model stops. -/
  | noSampleElement
  /-- Raised by `step` for a host write to an element of output memory at 2 `BLOCK_MAX` or above, which does
  not exist (R63).  Safe: the model stops. -/
  | noOutputElement
  /-- Raised by `step` for a host write to an address at which `PLATFORM_MAP` places nothing, or `STATUS` or
  `RESULT`, which are read-only (R65).  Safe: the model stops. -/
  | notWritable
deriving DecidableEq, Repr, Inhabited

/-- Why the model gives an instruction no meaning. -/
inductive Refusal where
  /-- Raised by an arm of `exec` for an instruction without a meaning; no arm does.  Safe: the model stops. -/
  | notModelled (mnemonic : String)
deriving DecidableEq, Repr, Inhabited

end Sys2Proof.Machine
end

