-- ==== Sys2Proof/Machine/Flags.lean ====
section
/-!
DEFINITION. The bits of `STATUS` (R27), the block's only flags.
-/

namespace Sys2Proof.Machine

/-- The sticky error bits of `STATUS` (R27, R262-R266). -/
inductive Err where
  /-- `ERR_ILLEGAL` (R262). -/
  | illegal
  /-- `ERR_RANGE` (R263). -/
  | range
  /-- `ERR_BUSY` (R264). -/
  | busy
  /-- `ERR_NOVOICE` (R265). -/
  | noVoice
  /-- `ERR_STATE` (R266). -/
  | state
deriving DecidableEq, Repr, Inhabited

/-- The bit of `STATUS` an error sets (R27). -/
def Err.bit : Err → Nat
  | .illegal => 0
  | .range => 1
  | .busy => 2
  | .noVoice => 3
  | .state => 4

/-- `STATUS` with one error bit set (R261). -/
def statusWithError (st : Word) (e : Err) : Word := st ||| BitVec.ofNat 32 (2 ^ e.bit)

/-- The bit `ANY_VOICE` as a mask (R27). -/
def anyVoiceMask : Word := 0x00000100#32

/-- The error bits as a mask (R27). -/
def errorMask : Word := 0x0000001F#32

/-- Some slot is not FREE (R239). -/
def anyVoice (vs : List Voice) : Bool := vs.any (fun w => w.state != .free)

/-- `STATUS` with `ANY_VOICE` recomputed (R239). -/
def statusWithAnyVoice (st : Word) (any : Bool) : Word :=
  (st &&& ~~~anyVoiceMask) ||| (if any then anyVoiceMask else 0#32)

/-- `STATUS` with the error bits of the mask cleared (R247). -/
def statusCleared (st mask : Word) : Word := st &&& ~~~(mask &&& errorMask)

end Sys2Proof.Machine
end

