-- ==== Sys2Proof/Machine/Numeric.lean ====
section
/-!
DEFINITION. Integer and binary64 arithmetic (R8, R9, R14, R15, R16).

A finite float is an exact integer number of units of its format's least positive value.  Every operation
computes on those integers and rounds once, at the end (nearest, ties to even).
-/

namespace Sys2Proof.Machine

/-! ### Integers -/

/-- `clamp(v, lo, hi)` (R8). -/
def clamp (v lo hi : Int) : Int := min (max v lo) hi

/-- `asr(x, n)`: floor of x / 2^n (R8). -/
def asr (x : Int) (n : Nat) : Int := x / (2 ^ n : Nat)

/-- `sat_u32(v)` (R14). -/
def satU32 (v : Int) : Int := clamp v 0 (2 ^ 32 - 1)

/-- `sat_i32(v)` (R14).  No rule of the spec applies it. -/
def satI32 (v : Int) : Int := clamp v (-(2 ^ 31)) (2 ^ 31 - 1)

/-- The value a u64 register takes for an exact sum (R23, R43).  DESIGN CHOICE (log entry 12): a sum that
does not fit is a free value. -/
def narrowU64 (n : Nat) : BitVec 64 :=
  if n < 2 ^ 64 then BitVec.ofNat 64 n else Config.u64Overflow n

/-- The 32-bit `RESULT` of an item (R28, R145).  DESIGN CHOICE (log entry 29): an item that 32 bits do not hold
leaves a free value. -/
def narrowResult (n : Nat) : Word :=
  if n < 2 ^ 32 then BitVec.ofNat 32 n else Config.resultBeyond n

/-! ### Formats -/

/-- An IEEE 754 binary interchange format: widths of the fraction and of the exponent field. -/
structure FloatFormat where
  fracBits : Nat
  expBits : Nat

/-- binary64 (R9). -/
def binary64 : FloatFormat := ⟨52, 11⟩

/-- binary32 (R9). -/
def binary32 : FloatFormat := ⟨23, 8⟩

/-- The magnitude bits of infinity; larger magnitudes are NaN. -/
def FloatFormat.infMag (f : FloatFormat) : Nat := (2 ^ f.expBits - 1) * 2 ^ f.fracBits

/-- The exact value of a finite magnitude, in units of the format's least positive value. -/
def FloatFormat.units (f : FloatFormat) (mag : Nat) : Nat :=
  let e := mag / 2 ^ f.fracBits
  let m := mag % 2 ^ f.fracBits
  if e = 0 then m else (2 ^ f.fracBits + m) * 2 ^ (e - 1)

/-- The magnitude bits nearest to `num / den` units, ties to even, infinity on overflow (R9).  With `k` the
power of two that leaves one bit more than the fraction, the bits of exponent and fraction together are
`k × 2^fracBits` plus the rounded quotient, whose carry then reaches the exponent by itself. -/
def FloatFormat.round (f : FloatFormat) (num den : Nat) : Nat :=
  let t := num / den
  let k := if t < 2 ^ (f.fracBits + 1) then 0 else t.log2 - f.fracBits
  let d := den * 2 ^ k
  let q := num / d
  let r := num % d
  let up := d < 2 * r || (d == 2 * r && q % 2 == 1)
  min (k * 2 ^ f.fracBits + if up then q + 1 else q) f.infMag

end Sys2Proof.Machine

namespace Sys2Proof.F64

open Sys2Proof.Machine

/-! ### Parts of a binary64 value -/

/-- The sign bit. -/
def sign (x : F64) : Bool := x.bits.getLsbD 63

/-- Exponent and fraction bits. -/
def mag (x : F64) : Nat := x.bits.toNat % 2 ^ 63

/-- x is NaN. -/
def isNaN (x : F64) : Bool := binary64.infMag < x.mag

/-- x is an infinity. -/
def isInf (x : F64) : Bool := x.mag == binary64.infMag

/-- x is neither NaN nor an infinity. -/
def isFinite (x : F64) : Bool := x.mag < binary64.infMag

/-- x is a zero of either sign. -/
def isZero (x : F64) : Bool := x.mag == 0

/-- The value with the given sign and magnitude bits. -/
def ofMag (s : Bool) (m : Nat) : F64 := ⟨BitVec.ofNat 64 (if s then 2 ^ 63 + m else m)⟩

/-- The one NaN the operations below give. -/
def nan : F64 := ⟨0x7FF8000000000000#64⟩

/-- Infinity of the given sign. -/
def inf (s : Bool) : F64 := ofMag s binary64.infMag

/-- The exact value of a finite x, times 2^1074. -/
def units (x : F64) : Int :=
  if x.sign then -(binary64.units x.mag : Int) else (binary64.units x.mag : Int)

/-- Units of 2^-1074 in 1. -/
def one1074 : Nat := 2 ^ 1074

/-- The binary64 value nearest to `num / den` units of 2^-1074; an exact zero takes the sign `zs`. -/
def ofUnits (zs : Bool) (num : Int) (den : Nat) : F64 :=
  if num = 0 then ofMag zs 0 else ofMag (num < 0) (binary64.round num.natAbs den)

/-! ### Arithmetic (R9) -/

/-- `-x`. -/
def neg (x : F64) : F64 := ⟨x.bits ^^^ 0x8000000000000000#64⟩

/-- `x + y`. -/
def add (x y : F64) : F64 :=
  if x.isNaN || y.isNaN then nan
  else if x.isInf then if y.isInf && x.sign != y.sign then nan else x
  else if y.isInf then y
  else ofUnits (x.sign && y.sign) (x.units + y.units) 1

/-- `x - y`. -/
def sub (x y : F64) : F64 := add x (neg y)

/-- `x × y`. -/
def mul (x y : F64) : F64 :=
  let s := x.sign != y.sign
  if x.isNaN || y.isNaN then nan
  else if x.isInf || y.isInf then if x.isZero || y.isZero then nan else inf s
  else ofUnits s (x.units * y.units) one1074

/-- `x / y`. -/
def div (x y : F64) : F64 :=
  let s := x.sign != y.sign
  if x.isNaN || y.isNaN then nan
  else if x.isInf then if y.isInf then nan else inf s
  else if y.isInf then ofMag s 0
  else if y.isZero then if x.isZero then nan else inf s
  else if x.isZero then ofMag s 0
  else ofMag s (binary64.round (x.units.natAbs * one1074) y.units.natAbs)

/-- An integer that orders the values that are not NaN as numbers. -/
def key (x : F64) : Int := if x.sign then -(x.mag : Int) else (x.mag : Int)

/-- `x < y`; false when either is NaN. -/
def lt (x y : F64) : Bool := !x.isNaN && !y.isNaN && x.key < y.key

/-- `x ≤ y`; false when either is NaN. -/
def le (x y : F64) : Bool := !x.isNaN && !y.isNaN && x.key ≤ y.key

/-- `x == y`; +0 and -0 are equal, NaN equals nothing. -/
def eq (x y : F64) : Bool := !x.isNaN && !y.isNaN && x.key == y.key

/-- `min(x, y)` as R151 uses it.  DESIGN CHOICE (log entry 11): where either is NaN, a free value. -/
def min (x y : F64) : F64 := if le x y then x else if lt y x then y else Config.minWithNaN x y

/-- `lerp(a, b, t) = a + (b - a) × t`, each operation rounded (R15). -/
def lerp (a b t : F64) : F64 := add a (mul (sub b a) t)

/-! ### Conversions (R9) -/

/-- `toF64(i)` of an integer. -/
def ofInt (i : Int) : F64 := ofUnits false (i * one1074) 1

/-- `toF64(n)` of a natural number. -/
def ofNat (n : Nat) : F64 := ofInt n

/-- `floor(x)`.  DESIGN CHOICE (log entry 11): of NaN or an infinity a free integer. -/
def floor (x : F64) : Int :=
  if x.isFinite then x.units / (one1074 : Int) else Config.integerOfNonFinite x

/-- `ceil(x)`. -/
def ceil (x : F64) : Int :=
  if x.isFinite then -((-x.units) / (one1074 : Int)) else Config.integerOfNonFinite x

/-- `roundHalfEven(x)`: the nearest integer, ties to even (R162). -/
def roundHalfEven (x : F64) : Int :=
  if x.isFinite then
    let q := x.units / (one1074 : Int)
    let r := 2 * (x.units % (one1074 : Int))
    if (one1074 : Int) < r || (r == (one1074 : Int) && q % 2 == 1) then q + 1 else q
  else Config.integerOfNonFinite x

/-- Units of 2^-149 in units of 2^-1074. -/
def unitRatio : Nat := 2 ^ 925

/-- `toF64(v)` of a binary32 pattern, exact. -/
def ofF32 (v : F32) : F64 :=
  let m := v.toNat % 2 ^ 31
  let s := v.getLsbD 31
  if binary32.infMag < m then nan
  else if m = binary32.infMag then inf s
  else ofMag s (binary64.round (binary32.units m * unitRatio) 1)

/-- `toF32(x)` of a value that is not NaN: its binary32 pattern. -/
def toF32 (x : F64) : F32 :=
  let m := if x.isInf then binary32.infMag else binary32.round (binary64.units x.mag) unitRatio
  BitVec.ofNat 32 (if x.sign then 2 ^ 31 + m else m)

/-- The binary32 NaN pattern with the given sign and fraction. -/
def nanF32 (p : Bool × Fin 0x7FFFFF) : F32 :=
  BitVec.ofNat 32 ((if p.1 then 2 ^ 31 else 0) + binary32.infMag + p.2.val + 1)

/-! ### EXP2 (R16) -/

/-- 2^k for an integer k with |k| ≤ 1000. -/
def pow2 (k : Int) : F64 := ofMag false ((1023 + k).toNat * 2 ^ 52)

/-- Order keys moved to the natural numbers. -/
def natKey (x : F64) : Nat := (x.key + 2 ^ 63).toNat

/-- The value with a given natural order key, +0.0 for that of the two zeros. -/
def ofNatKey (n : Nat) : F64 :=
  if n < 2 ^ 63 then ofMag true (2 ^ 63 - n) else ofMag false (n - 2 ^ 63)

/-- y, or where y is a zero the zero of the given sign. -/
def withZeroSign (s : Bool) (y : F64) : F64 := if y.isZero then ofMag s 0 else y

/-- x is an integer k with |k| ≤ 1000. -/
def smallInteger (x : F64) : Option Int :=
  if x.isFinite && x.units % (one1074 : Int) == 0 && (x.floor.natAbs ≤ 1000) then some x.floor else none

/-- The greatest value R16 lets `EXP2(x)` have: that of the next integer, +∞ above 1000. -/
def exp2Hi (x : F64) : F64 :=
  if lt (ofInt 1000) x then inf false
  else if lt x (ofInt (-1000)) then pow2 (-1000)
  else pow2 x.ceil

/-- The least value R16 lets `EXP2(x)` have. -/
def exp2Lo (x : F64) : F64 :=
  if lt (ofInt 1000) x then pow2 1000
  else if lt x (ofInt (-1000)) then inf true
  else pow2 x.floor

/-- `EXP2(x)` (R16): exact at the integers, monotone, and otherwise a configuration function
(`Config.exp2Key`, limited to what exactness at the neighbouring integers leaves).  DESIGN CHOICE (log
entry 7): of NaN a free value, and of a result that is a zero, possible below -1000, a free sign. -/
def exp2 (x : F64) : F64 :=
  if x.isNaN then Config.exp2Nan
  else match smallInteger x with
    | some k => pow2 k
    | none =>
      withZeroSign (Config.exp2ZeroSign x)
        (ofNatKey (Nat.min (Nat.max (Config.exp2Key x.natKey) (exp2Lo x).natKey) (exp2Hi x).natKey))

/-! ### Constants -/

/-- 0.5 -/
def half : F64 := ⟨0x3FE0000000000000#64⟩
/-- -0.5 -/
def negHalf : F64 := ⟨0xBFE0000000000000#64⟩
/-- 1.0 -/
def one : F64 := ⟨0x3FF0000000000000#64⟩

end Sys2Proof.F64
end

