-- ==== Sys2Proof/Machine/Operands.lean ====
section
/-!
DEFINITION. The registers by selector (R22, R24, R33, R145) and the assembly of the data word for each kind of
R82.  `none` is the outcome `ERR_RANGE`.
-/

namespace Sys2Proof.Machine

/-! ### Kinds of data (R82) -/

/-- Kind u: `zext_32(D)` clamped to 0..hi. -/
def assembleU (hi : Nat) (d : Word) : Nat := min d.toNat hi

/-- Kind s: D as i32 clamped to lo..hi. -/
def assembleS (lo hi : Int) (d : Word) : Int := clamp d.toInt lo hi

/-- Kind f: the f32 D widened; a value that is not finite or not legal is out of range. -/
def assembleF (legal : F64 → Bool) (d : Word) : Option F64 :=
  let x := F64.ofF32 d
  if x.isFinite && legal x then some x else none

/-- Kind e: the value an enumeration gives a number, where it has one. -/
def assembleE {α : Type} (table : Nat → Option α) (d : Word) : Option α := table d.toNat

/-- Kind b: a bit pattern of at most `hi`. -/
def assembleB (hi : Nat) (d : Word) : Option Nat := if d.toNat ≤ hi then some d.toNat else none

/-- The legal f32 data of `SAMPLE_RATE` and `MIDC_FREQ` (R22, R33). -/
def isPositive (x : F64) : Bool := F64.lt F64.zero x

/-- The legal f32 data of `BPM` (R22). -/
def isNonNegative (x : F64) : Bool := F64.le F64.zero x

/-- The legal f32 data of `OUTPUT_GAIN`: any finite value (R22). -/
def isAny (_ : F64) : Bool := true

/-! ### Enumerations by number -/

/-- `DSP_TYPE` (R33). -/
def dspTypeOf : Nat → Option DspType
  | 0 => some .none
  | 1 => some .pcm
  | 2 => some .pcmFixed
  | 3 => some .pulse
  | 4 => some .saw
  | 5 => some .triangle
  | 6 => some .square
  | _ => none

/-- `STAIRSTEP` and `SMP_LOOP_EN` (R33). -/
def flagOf : Nat → Option Bool
  | 0 => some false
  | 1 => some true
  | _ => none

/-- `DUTY` (R33). -/
def dutyOf (n : Nat) : Option (BitVec 2) := if n ≤ 3 then some (BitVec.ofNat 2 n) else none

/-- `SMP_CHANNELS` (R33). -/
def smpChannelsOf : Nat → Option SmpChannels
  | 1 => some .mono
  | 2 => some .stereo
  | _ => none

/-- `REVERB_TYPE` (R24). -/
def reverbTypeOf : Nat → Option ReverbType
  | 0 => some .off
  | 1 => some .base
  | 2 => some (.variant .A)
  | 3 => some (.variant .B)
  | _ => none

/-- Elements per frame, k of R62 and R141. -/
def SmpChannels.count : SmpChannels → Nat
  | .mono => 1
  | .stereo => 2

/-- The state code of R30. -/
def VState.code : VState → Nat
  | .free => 0
  | .init => 1
  | .atk => 2
  | .dec => 3
  | .sus => 4
  | .rel => 5
  | .pseudoEcho => 6
  | .die => 7
  | .dead => 8

/-- The slot is live (R31). -/
def VState.live : VState → Bool
  | .free => false
  | .dead => false
  | _ => true

/-! ### Birth fields (R33) -/

/-- The birth fields. -/
inductive VoiceReg where
  | key | velocity | panOffset | echoVol | echoLen | track | att | dec | sus | rel | dspType | stairstep
  | midcFreq | duty | sweep | pwmBase | pwmStep | pwmDepth | smpBase | smpEnd | smpLoopEn | smpLoopPos
  | smpChannels
deriving DecidableEq, Repr, Inhabited

/-- The selector of a birth field (R33). -/
def VoiceReg.sel : VoiceReg → BitVec 8
  | .key => 0x00#8
  | .velocity => 0x01#8
  | .panOffset => 0x02#8
  | .echoVol => 0x03#8
  | .echoLen => 0x04#8
  | .track => 0x05#8
  | .att => 0x06#8
  | .dec => 0x07#8
  | .sus => 0x08#8
  | .rel => 0x09#8
  | .dspType => 0x0A#8
  | .stairstep => 0x0B#8
  | .midcFreq => 0x0C#8
  | .duty => 0x0D#8
  | .sweep => 0x0E#8
  | .pwmBase => 0x0F#8
  | .pwmStep => 0x10#8
  | .pwmDepth => 0x11#8
  | .smpBase => 0x12#8
  | .smpEnd => 0x13#8
  | .smpLoopEn => 0x14#8
  | .smpLoopPos => 0x15#8
  | .smpChannels => 0x16#8

/-- The birth field a selector names (R33); none for a reserved selector (R86). -/
def voiceRegOf (sel : BitVec 8) : Option VoiceReg :=
  match sel.toNat with
  | 0x00 => some .key
  | 0x01 => some .velocity
  | 0x02 => some .panOffset
  | 0x03 => some .echoVol
  | 0x04 => some .echoLen
  | 0x05 => some .track
  | 0x06 => some .att
  | 0x07 => some .dec
  | 0x08 => some .sus
  | 0x09 => some .rel
  | 0x0A => some .dspType
  | 0x0B => some .stairstep
  | 0x0C => some .midcFreq
  | 0x0D => some .duty
  | 0x0E => some .sweep
  | 0x0F => some .pwmBase
  | 0x10 => some .pwmStep
  | 0x11 => some .pwmDepth
  | 0x12 => some .smpBase
  | 0x13 => some .smpEnd
  | 0x14 => some .smpLoopEn
  | 0x15 => some .smpLoopPos
  | 0x16 => some .smpChannels
  | _ => none

/-- The birth fields after D is assembled and written to one of them (R33, R82, R140). -/
def Birth.write (r : VoiceReg) (d : Word) (b : Birth) : Option Birth :=
  match r with
  | .key => some { b with key := BitVec.ofNat 7 (assembleU 127 d) }
  | .velocity => some { b with velocity := BitVec.ofNat 7 (assembleU 127 d) }
  | .panOffset => some { b with panOffset := BitVec.ofInt 7 (assembleS (-64) 63 d) }
  | .echoVol => some { b with echoVol := BitVec.ofNat 8 (assembleU 255 d) }
  | .echoLen => some { b with echoLen := BitVec.ofNat 8 (assembleU 255 d) }
  | .track => some { b with track := BitVec.ofNat 8 (assembleU 255 d) }
  | .att => some { b with att := BitVec.ofNat 8 (assembleU 255 d) }
  | .dec => some { b with dec := BitVec.ofNat 8 (assembleU 255 d) }
  | .sus => some { b with sus := BitVec.ofNat 8 (assembleU 255 d) }
  | .rel => some { b with rel := BitVec.ofNat 8 (assembleU 255 d) }
  | .dspType => (assembleE dspTypeOf d).map fun x => { b with dspType := x }
  | .stairstep => (assembleE flagOf d).map fun x => { b with stairstep := x }
  | .midcFreq => (assembleF isPositive d).map fun x => { b with midcFreq := x }
  | .duty => (assembleE dutyOf d).map fun x => { b with duty := x }
  | .sweep => (assembleB 0xFF d).map fun x => { b with sweep := BitVec.ofNat 8 x }
  | .pwmBase => some { b with pwmBase := d }
  | .pwmStep => some { b with pwmStep := d }
  | .pwmDepth => some { b with pwmDepth := BitVec.ofNat 9 (assembleU 256 d) }
  | .smpBase => some { b with smpBase := d }
  | .smpEnd => some { b with smpEnd := d }
  | .smpLoopEn => (assembleE flagOf d).map fun x => { b with smpLoopEn := x }
  | .smpLoopPos => some { b with smpLoopPos := d }
  | .smpChannels => (assembleE smpChannelsOf d).map fun x => { b with smpChannels := x }

/-! ### Channel registers (R24) -/

/-- The channel registers. -/
inductive ChanReg where
  | volume | pan | tune | pitchWheel | bendRange | lfoSpeed | lfoDepth | reverbType | reverbIntensity
deriving DecidableEq, Repr, Inhabited

/-- The selector of a channel register (R24). -/
def ChanReg.sel : ChanReg → BitVec 8
  | .volume => 0x00#8
  | .pan => 0x01#8
  | .tune => 0x02#8
  | .pitchWheel => 0x03#8
  | .bendRange => 0x04#8
  | .lfoSpeed => 0x05#8
  | .lfoDepth => 0x06#8
  | .reverbType => 0x07#8
  | .reverbIntensity => 0x08#8

/-- The channel register a selector names (R24); none for a reserved selector (R86). -/
def chanRegOf (sel : BitVec 8) : Option ChanReg :=
  match sel.toNat with
  | 0x00 => some .volume
  | 0x01 => some .pan
  | 0x02 => some .tune
  | 0x03 => some .pitchWheel
  | 0x04 => some .bendRange
  | 0x05 => some .lfoSpeed
  | 0x06 => some .lfoDepth
  | 0x07 => some .reverbType
  | 0x08 => some .reverbIntensity
  | _ => none

/-- The channel after D is assembled and written to one register (R24, R82, R244); what a write of
`REVERB_TYPE` does besides is the command's. -/
def Channel.write (r : ChanReg) (d : Word) (c : Channel) : Option Channel :=
  match r with
  | .volume => some { c with args := { c.args with volume := BitVec.ofNat 7 (assembleU 127 d) } }
  | .pan => some { c with args := { c.args with pan := BitVec.ofInt 7 (assembleS (-64) 63 d) } }
  | .tune => some { c with args := { c.args with tune := BitVec.ofInt 16 (assembleS (-32768) 32767 d) } }
  | .pitchWheel =>
    some { c with args := { c.args with pitchWheel := BitVec.ofInt 7 (assembleS (-64) 63 d) } }
  | .bendRange => some { c with args := { c.args with bendRange := BitVec.ofNat 7 (assembleU 127 d) } }
  | .lfoSpeed => some { c with args := { c.args with lfoSpeed := BitVec.ofNat 8 (assembleU 255 d) } }
  | .lfoDepth => some { c with args := { c.args with lfoDepth := BitVec.ofNat 7 (assembleU 127 d) } }
  | .reverbType => (assembleE reverbTypeOf d).map fun x => { c with reverbType := x }
  | .reverbIntensity => some { c with reverbIntensity := BitVec.ofNat 7 (assembleU 127 d) }

/-! ### Global registers (R22) -/

/-- The global registers. -/
inductive GlobReg where
  | outputGain | sampleRate | spf | bpm
deriving DecidableEq, Repr, Inhabited

/-- The selector of a global register (R22). -/
def GlobReg.sel : GlobReg → BitVec 8
  | .outputGain => 0x00#8
  | .sampleRate => 0x01#8
  | .spf => 0x02#8
  | .bpm => 0x03#8

/-- The global register a selector names (R22); none for a reserved selector (R86). -/
def globRegOf (sel : BitVec 8) : Option GlobReg :=
  match sel.toNat with
  | 0x00 => some .outputGain
  | 0x01 => some .sampleRate
  | 0x02 => some .spf
  | 0x03 => some .bpm
  | _ => none

/-- The global registers after D is assembled and written to one of them (R22, R82, R245). -/
def Globals.write (r : GlobReg) (d : Word) (g : Globals) : Option Globals :=
  match r with
  | .outputGain => (assembleF isAny d).map fun x => { g with outputGain := x }
  | .sampleRate => (assembleF isPositive d).map fun x => { g with sampleRate := x }
  | .spf =>
    if d.toNat = 0 ∨ 65535 < d.toNat then none else some { g with spf := BitVec.ofNat 16 d.toNat }
  | .bpm => (assembleF isNonNegative d).map fun x => { g with bpm := x }

/-- A global register that may be written only while every slot is FREE (R245, R266). -/
def GlobReg.needsSilence : GlobReg → Bool
  | .sampleRate => true
  | .spf => true
  | _ => false

/-! ### Readback items (R145) -/

/-- The items of RDVOICE. -/
inductive ReadItem where
  | state | isdead | level | timer | sweepOn | released | ch | key | echoCnt | lfoPhase
deriving DecidableEq, Repr, Inhabited

/-- The selector of a readback item (R145). -/
def ReadItem.sel : ReadItem → BitVec 8
  | .state => 0x00#8
  | .isdead => 0x01#8
  | .level => 0x02#8
  | .timer => 0x03#8
  | .sweepOn => 0x04#8
  | .released => 0x05#8
  | .ch => 0x06#8
  | .key => 0x07#8
  | .echoCnt => 0x08#8
  | .lfoPhase => 0x09#8

/-- The readback item a selector names (R145); none for a reserved selector (R88). -/
def readItemOf (sel : BitVec 8) : Option ReadItem :=
  match sel.toNat with
  | 0x00 => some .state
  | 0x01 => some .isdead
  | 0x02 => some .level
  | 0x03 => some .timer
  | 0x04 => some .sweepOn
  | 0x05 => some .released
  | 0x06 => some .ch
  | 0x07 => some .key
  | 0x08 => some .echoCnt
  | 0x09 => some .lfoPhase
  | _ => none

/-- The value of a readback item (R145). -/
def Voice.item (w : Voice) : ReadItem → Nat
  | .state => w.state.code
  | .isdead => if w.state = .dead then 1 else 0
  | .level => w.rt.level.toNat
  | .timer => w.rt.timer
  | .sweepOn => if w.rt.sweepOn then 1 else 0
  | .released => if w.rt.released then 1 else 0
  | .ch => w.ch.toNat
  | .key => w.birth.key.toNat
  | .echoCnt => w.rt.echoCnt.toNat
  | .lfoPhase => w.rt.lfoPhase.toNat

end Sys2Proof.Machine
end

