-- ==== Sys2Proof/Machine/Ops.lean ====
section
/-!
DEFINITION. The named operations over memory, registers and slots: stores in canonical form (R61-R66), reverb
state (R219), completing a command (R239) and `raise Error`, the block's one error mechanism (R261).
-/

namespace Sys2Proof.Machine

/-! ### Stores in canonical form -/

/-- The content at an index; `d` where nothing is listed. -/
def storeRead {α : Type} (d : α) : List (Nat × α) → Nat → α
  | [], _ => d
  | (k, x) :: t, i => if k = i then x else storeRead d t i

/-- The store after a write; writing `d` leaves nothing listed. -/
def storeWrite {α : Type} [DecidableEq α] (d : α) : List (Nat × α) → Nat → α → List (Nat × α)
  | [], i, y => if y = d then [] else [(i, y)]
  | (k, x) :: t, i, y =>
    if i < k then if y = d then (k, x) :: t else (i, y) :: (k, x) :: t
    else if i = k then if y = d then t else (i, y) :: t
    else (k, x) :: storeWrite d t i y

/-- Indices strictly rising from `lo` on and below `bound`, and no entry equal to `d`. -/
def storeWf {α : Type} [DecidableEq α] (d : α) (bound : Nat) : Nat → List (Nat × α) → Bool
  | _, [] => true
  | lo, (k, x) :: t => lo ≤ k && k < bound && x != d && storeWf d bound (k + 1) t

/-! ### Memory (R61-R66) -/

/-- One byte. -/
def Memory.readByte (m : Memory) (a : Nat) : Byte := storeRead Memory.unlisted m a

/-- The memory after a byte is written. -/
def Memory.writeByte (m : Memory) (a : Nat) (b : Byte) : Memory := storeWrite Memory.unlisted m a b

/-- The canonical form, for a memory of `words` elements. -/
def Memory.wf (words : Nat) (m : Memory) : Bool := storeWf Memory.unlisted (4 * words) 0 m

/-- Byte k of an element: bits [8k+7:8k] of its pattern (R61). -/
def byteOf (v : F32) (k : Nat) : Byte := v.extractLsb' (8 * k) 8

/-- Element i: its four bytes, byte 0 at the lowest address (R61). -/
def Memory.readElem (m : Memory) (i : Nat) : F32 :=
  m.readByte (4 * i + 3) ++ m.readByte (4 * i + 2) ++ m.readByte (4 * i + 1) ++ m.readByte (4 * i)

/-- The memory after element i is written. -/
def Memory.writeElem (m : Memory) (i : Nat) (v : F32) : Memory :=
  (((m.writeByte (4 * i) (byteOf v 0)).writeByte (4 * i + 1) (byteOf v 1)).writeByte (4 * i + 2)
    (byteOf v 2)).writeByte (4 * i + 3) (byteOf v 3)

/-- How many elements output memory has (R63). -/
def outWords (cfg : Params) : Nat := 2 * cfg.blockMax

/-- `SmpRead(i)` (R11, R62).  DESIGN CHOICE (log entry 11): at an index of `SMP_WORDS` or above, which R62
says cannot occur, a free value. -/
def smpRead (cfg : Params) (m : Memory) (i : Nat) : F32 :=
  if i < cfg.smpWords then m.readElem i else Config.smpBeyond i

/-! ### Rings and accumulation buffers -/

/-- The pair at an index. -/
def Ring.get (r : Ring) (i : Nat) : Stereo := storeRead Stereo.zero r i

/-- The ring after a pair is written. -/
def Ring.put (r : Ring) (i : Nat) (x : Stereo) : Ring := storeWrite Stereo.zero r i x

/-- The ring after pairs are written from index j on. -/
def Ring.putFrom (r : Ring) : Nat → List Stereo → Ring
  | _, [] => r
  | j, x :: xs => Ring.putFrom (r.put j x) (j + 1) xs

/-! ### Channels and slots -/

/-- `C[c]`. -/
def State.chan (s : State) (c : BitVec 4) : Channel := s.chans[c.toNat]'c.isLt

/-- The state with `C[c]` replaced. -/
def State.setChan (s : State) (c : BitVec 4) (x : Channel) : State :=
  { s with chans := s.chans.set c.toNat x c.isLt }

/-- The state with `V[v]` replaced. -/
def State.setVoice (s : State) (v : Nat) (w : Voice) : State := { s with voices := s.voices.set v w }

/-! ### Reverb state (R210, R216, R219) -/

/-- `B`, the length of one hardware buffer (R211). -/
def hwBufferLen (g : Globals) : Nat := g.spf.toNat * 4

/-- `L0`, the length of the base ring (R210). -/
def ring0Len (cfg : Params) (g : Globals) : Nat := g.spf.toNat * 4 * cfg.hwbuf

/-- `REVX_LEN1` (R216): at least 1.  DEDUCED (log entry 15). -/
def revLen1 (x : Variant) (cfg : Params) (g : Globals) : Nat :=
  Config.revLen1Pred x g.spf.toNat cfg.hwbuf + 1

/-- `REVX_LEN2` (R216): at least 1 and not `REVX_LEN1`. -/
def revLen2 (x : Variant) (cfg : Params) (g : Globals) : Nat :=
  let n := Config.revLen2Pred x g.spf.toNat cfg.hwbuf + 1
  if n = revLen1 x cfg g then n + 1 else n

/-- A channel's reverb state as R219 initialises it for the channel's `REVERB_TYPE`. -/
def Channel.resetReverb (cfg : Params) (g : Globals) (c : Channel) : Channel :=
  { c with
    ring0 := [], ring1 := [], ring2 := [], cur0 := 0
    cur1 := match c.reverbType with
      | .variant x => (Config.revInit1 x % (revLen1 x cfg g : Int)).toNat
      | _ => 0
    cur2 := match c.reverbType with
      | .variant x => (Config.revInit2 x % (revLen2 x cfg g : Int)).toNat
      | _ => 0 }

/-- Every channel with its reverb state initialised (R246). -/
def resetAllReverbs (cfg : Params) (g : Globals) (cs : Vector Channel 16) : Vector Channel 16 :=
  ⟨⟨cs.toList.map (Channel.resetReverb cfg g)⟩, by simp⟩

/-! ### What rendering reads -/

/-- What PROCESS reads and does not change while it renders voices (R45, R62, R67): the configuration, the
global registers and sample memory; and the tag its free values are applied to. -/
structure Env where
  cfg : Params
  glob : Globals
  smp : Memory
  tag : Nat

/-- What rendering reads in a state. -/
def State.env (s : State) : Env := ⟨s.cfg, s.glob, s.smpMem, s.freeTag⟩

/-! ### How a command ends -/

/-- The end of every command, one that raises an error too (DEDUCED, log entry 16): `ANY_VOICE` is recomputed
(R239). -/
def State.complete (s : State) : State :=
  { s with status := statusWithAnyVoice s.status (anyVoice s.voices) }

/-- A command that ends normally in the given state. -/
def State.done (s : State) : Host.Outcome State Fault Refusal := .next s.complete

/-- `raise Error(bit)` (R261): the error bit is set and the command abandoned; the host polls `STATUS`, so
nothing is saved and nothing is returned from (R260, R267). -/
def State.raise (e : Err) (s : State) : Host.Outcome State Fault Refusal :=
  State.done { s with status := statusWithError s.status e }

/-- A command on slot v: a slot number of `NUM_VOICES` or above raises `ERR_NOVOICE` (R83, R85, R265).
DEDUCED (log entry 24): the last check of R85 is made here, `decode` knowing no configuration. -/
def State.withSlot (v : BitVec 8) (s : State) (k : Voice → Host.Outcome State Fault Refusal) :
    Host.Outcome State Fault Refusal :=
  match s.voices[v.toNat]? with
  | none => State.raise .noVoice s
  | some w => k w

end Sys2Proof.Machine
end

