-- ==== Sys2Proof/Machine/Envelope.lean ====
section
/-!
DEFINITION. The envelope state machine, one coarse step (R110-R119).
-/

namespace Sys2Proof.Machine

/-- The voice with its envelope state and level replaced. -/
def Voice.setEnv (v : Voice) (st : VState) (level : BitVec 8) : Voice :=
  { v with state := st, rt := { v.rt with level := level } }

/-- The product of a level and a rate, divided by 256 (R114, R116). -/
def scaleLevel (level rate : BitVec 8) : BitVec 8 := BitVec.ofNat 8 (level.toNat * rate.toNat / 256)

/-- `releaseThreshold(v)` (R116). -/
def releaseThreshold (v : Voice) : Voice :=
  if v.rt.level.toNat ≤ v.birth.echoVol.toNat then
    if v.birth.echoVol ≠ 0#8 ∧ v.birth.echoLen ≠ 0#8 then
      { v with
        state := .pseudoEcho
        rt := { v.rt with level := v.birth.echoVol, echoCnt := v.birth.echoLen } }
    else v.setEnv .die 0#8
  else v

/-- Case ATK (R113). -/
def atkStep (v : Voice) : Voice :=
  let level := BitVec.ofNat 8 (min (v.rt.level.toNat + v.birth.att.toNat) 255)
  v.setEnv (if level = 255#8 then .dec else .atk) level

/-- Case DEC (R114). -/
def decStep (v : Voice) : Voice :=
  let level := scaleLevel v.rt.level v.birth.dec
  if level.toNat ≤ v.birth.sus.toNat then
    if v.birth.sus = 0#8 then releaseThreshold (v.setEnv .rel 0#8)
    else v.setEnv .sus v.birth.sus
  else v.setEnv .dec level

/-- Case REL (R116). -/
def relStep (v : Voice) : Voice :=
  releaseThreshold (v.setEnv .rel (scaleLevel v.rt.level v.birth.rel))

/-- Case PSEUDO_ECHO (R117).  DESIGN CHOICE (log entry 18): a counter of 0, with which no rule enters this state,
counts on from 255. -/
def echoStep (v : Voice) : Voice :=
  let cnt := v.rt.echoCnt - 1#8
  let v' := { v with rt := { v.rt with echoCnt := cnt } }
  if cnt = 0#8 then v'.setEnv .die 0#8 else v'

/-- Case INIT (R111): a released voice dies, another enters ATK in the same frame. -/
def initStep (v : Voice) : Voice :=
  if v.rt.released then v.setEnv .dead 0#8 else atkStep (v.setEnv .atk 0#8)

/-- `seed` of R111, the level before the first frame: full for an instantaneous attack. -/
def envSeed (b : Birth) : Nat := if b.att = 0xFF#8 then 255 else 0

/-- The release entry (R112). -/
def releaseEntry (v : Voice) : Voice :=
  if v.rt.released ∧ (v.state = .atk ∨ v.state = .dec ∨ v.state = .sus) then { v with state := .rel }
  else v

/-- `envStep(v)` (R110): the release entry, then one case by `STATE`. -/
def envStep (v : Voice) : Voice :=
  let w := releaseEntry v
  match w.state with
  | .free => w
  | .init => initStep w
  | .atk => atkStep w
  | .dec => decStep w
  | .sus => w
  | .rel => relStep w
  | .pseudoEcho => echoStep w
  | .die => w.setEnv .dead 0#8
  | .dead => w

end Sys2Proof.Machine
end

