-- ==== Sys2Proof/Machine/Resampler.lean ====
section
/-!
DEFINITION. The sample fetch callback (R180, R181), the square stream (R155, R156) and the two resamplers
(R190-R201).
-/

namespace Sys2Proof.Machine

/-! ### The sample stream -/

/-- `frame(v, f)` (R180). -/
def sampleFrame (e : Env) (b : Birth) (f : Nat) : Stereo :=
  match b.smpChannels with
  | .mono =>
    let x := F64.ofF32 (smpRead e.cfg e.smp (b.smpBase.toNat + f))
    ⟨x, x⟩
  | .stereo =>
    ⟨F64.ofF32 (smpRead e.cfg e.smp (b.smpBase.toNat + 2 * f)),
      F64.ofF32 (smpRead e.cfg e.smp (b.smpBase.toNat + 2 * f + 1))⟩

/-- Where the fetch callback reads: a looping region goes back to its loop point at its end (R181). -/
def fetchPos (v : Voice) : Word :=
  if v.birth.smpEnd.toNat ≤ v.rt.rdpos.toNat ∧ v.birth.smpLoopEn then v.birth.smpLoopPos else v.rt.rdpos

/-- `fetch(v)` (R181): one frame appended to `RBUF` (R192), or (0.0, 0.0) and `SRC_END` past the end. -/
def fetchAppend (e : Env) (v : Voice) : Voice :=
  let pos := fetchPos v
  if pos.toNat < v.birth.smpEnd.toNat then
    { v with
      rt := { v.rt with
        rdpos := pos + 1#32
        rbuf := v.rt.rbuf ++ [sampleFrame e v.birth pos.toNat] } }
  else
    { v with
      rt := { v.rt with rdpos := pos, srcEnd := true, rbuf := v.rt.rbuf ++ [Stereo.zero] } }

/-- A number of fetches, one after another. -/
def fetchMany (e : Env) : Nat → Voice → Voice
  | 0, v => v
  | k + 1, v => fetchMany e k (fetchAppend e v)

/-! ### Linear strategy -/

/-- `need` of R192: the look-ahead of a chunk of nc samples.  DESIGN CHOICE (log entry 28): R192 is followed
as written, so where its sum rounds, two blocks may fetch another number of frames than one of their length,
which R294 leaves out. -/
def linearNeed (v : Voice) (nc : Nat) : Int :=
  F64.ceil (F64.add v.rt.rphase (F64.mul v.rt.rinc (F64.ofNat nc))) + 2

/-- `linearPrepare(v, nc)` (R192). -/
def linearPrepare (e : Env) (nc : Nat) (v : Voice) : Voice :=
  fetchMany e (linearNeed v nc - v.rt.rbuf.length).toNat v

/-- The two-tap interpolation between two frames (R193, R15).  DESIGN CHOICE (log entry 32): with a frame that is not
finite the result is what the arithmetic of R15 gives, a NaN even where t is 0.0, though R194 says that lerp(a, b, 0.0)
is a. -/
def lerpStereo (a b : Stereo) (t : F64) : Stereo := ⟨F64.lerp a.l b.l t, F64.lerp a.r b.r t⟩

/-- The part of `linearSample(v)` after the buffer is filled (R193): the output, and the voice with the read
position advanced and the consumed frames removed.  A frame the buffer lacks is (0.0, 0.0) (R193).  DESIGN CHOICE
(log entry 25): no more frames are removed than there are, and none for a negative whole part.  DESIGN CHOICE (log
entry 32): at unit rate too the output is that of R193, which for frames that are not finite is not `RBUF[0]` as
R194 derives. -/
def linearStep (v : Voice) : Voice × Stereo :=
  let y := lerpStereo (v.rt.rbuf.getD 0 Stereo.zero) (v.rt.rbuf.getD 1 Stereo.zero) v.rt.rphase
  let pos := F64.add v.rt.rphase v.rt.rinc
  let k := F64.floor pos
  ({ v with
      rt := { v.rt with rphase := F64.sub pos (F64.ofInt k), rbuf := v.rt.rbuf.drop k.toNat } }, y)

/-- `linearSample(v)` (R193); `chunk` is the length of the chunk that starts at this sample, if one does
(R190). -/
def linearSample (e : Env) (chunk : Option Nat) (v : Voice) : Voice × Stereo :=
  linearStep (match chunk with
    | some nc => linearPrepare e nc v
    | none => v)

/-! ### Windowed-sinc strategy -/

/-- H(d) of R155: high steps of eight. -/
def dutyHigh (d : BitVec 2) : Nat :=
  match d.toNat with
  | 0 => 1
  | 1 => 2
  | 2 => 4
  | _ => 6

/-- `SQ[d][s]` (R155). -/
def squareTable (d : BitVec 2) (s : Nat) : F64 := if s < dutyHigh d then F64.half else F64.negHalf

/-- One side of frame m of the square stream (R156). -/
def squareStream (d : BitVec 2) (m : Int) : F64 :=
  if m < 0 then F64.zero else squareTable d (m % 8).toNat

/-- `A_i` of the table (R196): `A_0` is 0, `A_{2NR}` is positive, the rest is configuration (DEDUCED,
log entry 8).  DESIGN CHOICE (log entry 26): the index one past the table, which R196 does not define, holds a free
value. -/
def blepA (cfg : Params) (i : Nat) : F64 :=
  if i = 0 then F64.zero
  else if i = 2 * cfg.blepN * cfg.blepRes then
    F64.ofMag false ((Config.blepLast cfg.blepN cfg.blepRes cfg.blepTaper).val + 1)
  else Config.blepTable cfg.blepN cfg.blepRes cfg.blepTaper i

/-- `Alook(x)` (R196).  DESIGN CHOICE (log entry 26): for x so little below N that (x + N) × R rounds to 2NR, the
`A_{i+1}` of R196 is no entry of the table, and a free value is read for it. -/
def blepLook (cfg : Params) (x : F64) : F64 :=
  let n := F64.ofNat cfg.blepN
  if F64.le x (F64.neg n) then F64.zero
  else if F64.le n x then blepA cfg (2 * cfg.blepN * cfg.blepRes)
  else
    let p := F64.mul (F64.add x n) (F64.ofNat cfg.blepRes)
    let i := F64.floor p
    F64.lerp (blepA cfg i.toNat) (blepA cfg (i.toNat + 1)) (F64.sub p (F64.ofInt i))

/-- `c` of R197, the cutoff relative to the input rate. -/
def blepCutoff (v : Voice) : F64 := if F64.lt F64.one v.rt.rinc then F64.div F64.one v.rt.rinc else F64.one

/-- `W` of R197, the half width of the window in stream frames. -/
def blepWidth (cfg : Params) (v : Voice) : Int :=
  F64.ceil (F64.div (F64.ofNat cfg.blepN) (blepCutoff v)) + 1

/-- The weight of the stream frame `d` frames after the read position's (R197). -/
def blepWeight (cfg : Params) (v : Voice) (d : Int) : F64 :=
  let c := blepCutoff v
  let o := F64.sub (F64.ofInt d) v.rt.rphase
  F64.sub (blepLook cfg (F64.mul c (F64.add o F64.one))) (blepLook cfg (F64.mul c o))

/-- One turn of the loop of R197: the sums `sw`, `sl`, `sr` after the frame `d` frames after the read
position's. -/
def blepTurn (cfg : Params) (v : Voice) (sums : F64 × Stereo) (d : Int) : F64 × Stereo :=
  let w := blepWeight cfg v d
  let x := squareStream v.birth.duty ((v.rt.ridx.toNat : Int) + d)
  (F64.add sums.1 w, ⟨F64.add sums.2.l (F64.mul w x), F64.add sums.2.r (F64.mul w x)⟩)

/-- The sums of R197 over the window, in increasing order of stream frames. -/
def blepSums (cfg : Params) (v : Voice) : F64 × Stereo :=
  let w := blepWidth cfg v
  ((List.range (2 * w + 1).toNat).map fun i => (i : Int) - w).foldl (blepTurn cfg v)
    (F64.zero, Stereo.zero)

/-- The output of R197 for given sums. -/
def blepOutput (sums : F64 × Stereo) : Stereo :=
  if F64.eq sums.1 F64.zero then Stereo.zero
  else ⟨F64.div sums.2.l sums.1, F64.div sums.2.r sums.1⟩

/-- `blepSample(v)` (R197).  DESIGN CHOICE (log entry 25): a negative whole part does not lower `RIDX`. -/
def blepSample (e : Env) (v : Voice) : Voice × Stereo :=
  let y := blepOutput (blepSums e.cfg v)
  let pos := F64.add v.rt.rphase v.rt.rinc
  let k := F64.floor pos
  ({ v with
      rt := { v.rt with
        rphase := F64.sub pos (F64.ofInt k)
        ridx := narrowU64 (v.rt.ridx.toNat + k.toNat) } }, y)

end Sys2Proof.Machine
end

