-- ==== Sys2Proof/Machine/Generators.lean ====
section
/-!
DEFINITION. The waveform generators: per-frame update (R151-R169) and per-sample output (R150, R170-R175).
-/

namespace Sys2Proof.Machine

/-! ### Square with sweep -/

/-- Shift n, `SWEEP[2:0]` (R160). -/
def sweepShift (b : Birth) : Nat := (b.sweep.extractLsb' 0 3).toNat

/-- Direction, `SWEEP[3]`: set when the timer shrinks (R160). -/
def sweepDown (b : Birth) : Bool := b.sweep.getLsbD 3

/-- Sweep time, `SWEEP[6:4]` (R160). -/
def sweepTime (b : Birth) : Nat := (b.sweep.extractLsb' 4 3).toNat

/-- The sweep enable of R161. -/
def sweepEnabled (b : Birth) : Bool := sweepShift b != 0 && sweepTime b != 0

/-- The initial timer of R162. -/
def initialTimer (cfg : Params) (freq : F64) : Nat :=
  (clamp (F64.roundHalfEven (F64.sub (F64.ofInt 2048) (F64.div cfg.gbClock freq))) 0 cfg.timerMax).toNat

/-- One sweep update of the timer (R163). -/
def sweepTimer (cfg : Params) (b : Birth) (timer : Nat) : Nat :=
  let d := timer / 2 ^ sweepShift b
  if sweepDown b then timer - d else min (timer + d) cfg.timerMax

/-- `sweepFrame(v, first)` (R163). -/
def sweepFrame (cfg : Params) (first : Bool) (v : Voice) : Voice :=
  if first then
    { v with
      rt := { v.rt with sweepOn := sweepEnabled v.birth, timer := initialTimer cfg v.rt.freq } }
  else if v.rt.sweepOn then { v with rt := { v.rt with timer := sweepTimer cfg v.birth v.rt.timer } }
  else v

/-- `toneFreq(v)` (R157). -/
def toneFreq (cfg : Params) (v : Voice) : F64 :=
  if v.rt.sweepOn then F64.div cfg.gbClock (F64.ofInt (2048 - (v.rt.timer : Int))) else v.rt.freq

/-! ### Phase accumulators -/

/-- `phaseIncStep(v)` (R168). -/
def phaseIncStep (g : Globals) (v : Voice) : Voice :=
  let q := F64.mul (F64.div v.rt.freq g.sampleRate) (F64.ofInt 4294967296)
  { v with
    rt := { v.rt with phaseInc := BitVec.ofNat 32 (clamp (F64.floor q) 0 (2 ^ 32 - 1)).toNat } }

/-- `thr(acc)` (R169). -/
def pwmThreshold (b : Birth) (acc : Word) : Word :=
  BitVec.ofNat 32 (satU32 ((b.pwmBase.toNat : Int) + asr (acc.toInt * b.pwmDepth.toNat) 8)).toNat

/-- `pwmFrame(v, first)` (R169). -/
def pwmFrame (first : Bool) (v : Voice) : Voice :=
  if first then
    { v with
      rt := { v.rt with
        thrPrev := pwmThreshold v.birth v.rt.pwmAcc
        thrCur := pwmThreshold v.birth v.rt.pwmAcc } }
  else
    { v with
      rt := { v.rt with
        pwmAcc := v.rt.pwmAcc + v.birth.pwmStep
        thrPrev := v.rt.thrCur
        thrCur := pwmThreshold v.birth (v.rt.pwmAcc + v.birth.pwmStep) } }

/-- `t` of R170, the threshold of the current sub-frame. -/
def pwmLevel (v : Voice) : Nat :=
  if v.birth.stairstep then v.rt.thrCur.toNat
  else
    ((v.rt.thrPrev.toNat : Int) +
      ((v.rt.thrCur.toNat : Int) - v.rt.thrPrev.toNat) * (v.rt.subidx.toNat + 1) / 4).toNat

/-- The output x of R170. -/
def pwmOutput (v : Voice) : F64 :=
  let t := pwmLevel v
  let d := F64.div (F64.ofNat t) (F64.ofInt 4294967296)
  F64.sub (if v.rt.phase.toNat < t then F64.half else F64.negHalf) (F64.sub d F64.half)

/-- The default `SAW_FN` (R172). -/
def sawDefault (p : Word) : F64 :=
  F64.div (F64.sub (F64.ofNat (p.toNat / 2 ^ 24)) (F64.ofInt 128)) (F64.ofInt 256)

/-- `SAW_FN` (R172), the default or the implementation's (DESIGN CHOICE, log entry 13). -/
def sawFn (cfg : Params) (p : Word) : F64 := if cfg.sawCustom then Config.sawFn p else sawDefault p

/-- 63.5 -/
def f64_63_5 : F64 := ⟨0x404FC00000000000#64⟩

/-- The default `TRI_FN` (R174). -/
def triDefault (p : Word) : F64 :=
  let t := p.toNat / 2 ^ 24
  let u := if t < 128 then t else 255 - t
  F64.div (F64.sub (F64.ofNat u) f64_63_5) (F64.ofInt 127)

/-- `TRI_FN` (R174), the default or the implementation's (DESIGN CHOICE, log entry 13). -/
def triFn (cfg : Params) (p : Word) : F64 := if cfg.triCustom then Config.triFn p else triDefault p

/-- The voice with `PHASE` advanced by `PHASE_INC` (R170, R173, R175). -/
def advancePhase (v : Voice) : Voice := { v with rt := { v.rt with phase := v.rt.phase + v.rt.phaseInc } }

/-- A phase generator's sample: the value on both sides, then the phase advances. -/
def phaseSample (v : Voice) (x : F64) : Voice × Stereo := (advancePhase v, ⟨x, x⟩)

/-! ### Dispatch -/

/-- The voice with `RINC` set, limited to `RINC_MAX` (R151). -/
def setRinc (cfg : Params) (v : Voice) (x : F64) : Voice :=
  { v with rt := { v.rt with rinc := F64.min x cfg.rincMax } }

/-- `genFrame(v, first)` (R151).  DESIGN CHOICE (log entry 27): NONE, which never reaches a generator (R150), changes
nothing. -/
def genFrame (e : Env) (first : Bool) (v : Voice) : Voice :=
  match v.birth.dspType with
  | .none => v
  | .pcm | .pcmFixed => setRinc e.cfg v (F64.div v.rt.freq e.glob.sampleRate)
  | .square =>
    let w := sweepFrame e.cfg first v
    setRinc e.cfg w (F64.div (F64.mul (F64.ofInt 8) (toneFreq e.cfg w)) e.glob.sampleRate)
  | .pulse => phaseIncStep e.glob (pwmFrame first v)
  | .saw | .triangle => phaseIncStep e.glob v

/-- `genSample(v)` (R150).  DESIGN CHOICE (log entry 27): for NONE, which has no row in R150 and never reaches a
generator, (0.0, 0.0) and the voice as it was. -/
def genSample (e : Env) (chunk : Option Nat) (v : Voice) : Voice × Stereo :=
  match v.birth.dspType with
  | .none => (v, Stereo.zero)
  | .pcm | .pcmFixed => linearSample e chunk v
  | .square => blepSample e v
  | .pulse => phaseSample v (pwmOutput v)
  | .saw => phaseSample v (sawFn e.cfg v.rt.phase)
  | .triangle => phaseSample v (triFn e.cfg v.rt.phase)

end Sys2Proof.Machine
end

