-- ==== Sys2Proof/Machine/Pitch.lean ====
section
/-!
DEFINITION. The frequency of a voice and its LFO (R120-R123).
-/

namespace Sys2Proof.Machine

/-- `lfoValue(v)` (R122). -/
def lfoValue (v : Voice) : Int :=
  let p : Int := v.rt.lfoPhase.toNat
  let t := if p < 64 then p else if p < 192 then 128 - p else p - 256
  asr (t * v.arg.lfoDepth.toNat) 6

/-- `pitch` of R120, in 1/768 octave (R121). -/
def pitchUnits (v : Voice) : Int :=
  v.arg.tune.toInt + v.arg.pitchWheel.toInt * v.arg.bendRange.toNat + lfoValue v * 4

/-- `pitchFreq(v)` (R120). -/
def pitchFreq (v : Voice) : F64 :=
  if v.birth.dspType = .pcmFixed then v.birth.midcFreq
  else
    let a := F64.div (F64.ofInt ((v.birth.key.toNat : Int) - 60)) (F64.ofInt 12)
    let b := F64.div (F64.ofInt (pitchUnits v)) (F64.ofInt 768)
    F64.mul v.birth.midcFreq (F64.exp2 (F64.add a b))

/-- The loop of `lfoClock` (R123): `BPM_ACC` and `LFO_PHASE` where it ends.  `none`: it has no last iteration,
since a subtraction leaves `BPM_ACC` as it was.  Every other subtraction lowers it, so `fuel` above its order
key is enough. -/
def lfoLoop (thr : F64) (speed : BitVec 8) : Nat → F64 → BitVec 8 → Option (F64 × BitVec 8)
  | 0, _, _ => none
  | fuel + 1, acc, phase =>
    if F64.le thr acc then
      let acc' := F64.sub acc thr
      if acc' = acc then none else lfoLoop thr speed fuel acc' (phase + speed)
    else some (acc, phase)

/-- `lfoClock(v)` (R123), for slot `slot` at sample j.  DESIGN CHOICE (log entry 10): the spec gives
`BPM_ACC` and `LFO_PHASE` no value where the loop has no last iteration; they are then free. -/
def lfoClock (e : Env) (slot j : Nat) (v : Voice) : Voice :=
  let acc := F64.add v.rt.bpmAcc (F64.mul e.glob.bpm (F64.ofNat e.cfg.lfoTicksPerBeat))
  let thr := F64.mul (F64.ofInt 60) e.glob.sampleRate
  match lfoLoop thr v.arg.lfoSpeed (acc.mag + 1) acc v.rt.lfoPhase with
  | some (acc', phase') => { v with rt := { v.rt with bpmAcc := acc', lfoPhase := phase' } }
  | none =>
    { v with
      rt := { v.rt with
        bpmAcc := Config.lfoStuckAcc e.tag slot j
        lfoPhase := Config.lfoStuckPhase e.tag slot j } }

end Sys2Proof.Machine
end

