-- ==== Sys2Proof/Machine/Reverb.lean ====
section
/-!
DEFINITION. The reverb of a channel, per sample (R210-R221).
-/

namespace Sys2Proof.Machine

/-- The sum of two pairs. -/
def addStereo (a b : Stereo) : Stereo := ⟨F64.add a.l b.l, F64.add a.r b.r⟩

/-- `g` of R212 and R217. -/
def reverbGain (c : Channel) : F64 := F64.div (F64.ofNat c.reverbIntensity.toNat) (F64.ofInt 256)

/-- The output of the base algorithm for a dry pair (R212). -/
def baseOutput (cfg : Params) (gl : Globals) (c : Channel) (dry : Stereo) : Stereo :=
  let g := reverbGain c
  let p1 := c.ring0.get c.cur0
  let p2 := c.ring0.get ((c.cur0 + hwBufferLen gl) % ring0Len cfg gl)
  ⟨F64.add dry.l (F64.mul (F64.add p1.l p2.l) g), F64.add dry.r (F64.mul (F64.add p1.r p2.r) g)⟩

/-- `reverbBase` (R212). -/
def reverbBase (cfg : Params) (gl : Globals) (c : Channel) (dry : Stereo) : Channel × Stereo :=
  let out := baseOutput cfg gl c dry
  ({ c with ring0 := c.ring0.put c.cur0 out, cur0 := (c.cur0 + 1) % ring0Len cfg gl }, out)

/-- `reverbVariant` (R217). -/
def reverbVariant (cfg : Params) (gl : Globals) (x : Variant) (c : Channel) (dry : Stereo) :
    Channel × Stereo :=
  let mix := Config.revMix x (reverbGain c) dry (c.ring1.get c.cur1) (c.ring2.get c.cur2)
  ({ c with
      ring1 := c.ring1.put c.cur1 mix.2.1
      ring2 := c.ring2.put c.cur2 mix.2.2
      cur1 := (c.cur1 + 1) % revLen1 x cfg gl
      cur2 := (c.cur2 + 1) % revLen2 x cfg gl }, mix.1)

/-- The reverb of one sample by `REVERB_TYPE` (R218, R234). -/
def reverbSample (cfg : Params) (gl : Globals) (c : Channel) (dry : Stereo) : Channel × Stereo :=
  match c.reverbType with
  | .off => (c, dry)
  | .base => reverbBase cfg gl c dry
  | .variant x => reverbVariant cfg gl x c dry

/-- The reverb of a block, sample by sample (R220, R230). -/
def reverbBlock (cfg : Params) (gl : Globals) : Channel → List Stereo → Channel × List Stereo
  | c, [] => (c, [])
  | c, dry :: rest =>
    let r := reverbSample cfg gl c dry
    let rs := reverbBlock cfg gl r.1 rest
    (rs.1, r.2 :: rs.2)

end Sys2Proof.Machine
end

