-- ==== Sys2Proof/Machine/Volume.lean ====
section
/-!
DEFINITION. Volume and pan weights and their per-sample ramps (R130-R132).
-/

namespace Sys2Proof.Machine

/-- `p` of R130: pan and pan offset together. -/
def panPosition (v : Voice) : Int := clamp (v.arg.pan.toInt + v.birth.panOffset.toInt) (-64) 63

/-- `volL`, `volR` of R130 for the pan weight `64 - p` or `64 + p`. -/
def volumeWeight (v : Voice) (panWeight : Int) : Nat :=
  (asr ((v.birth.velocity.toNat : Int) * v.arg.volume.toNat * panWeight) 14).toNat

/-- `volL` (R130). -/
def volL (v : Voice) : Nat := volumeWeight v (64 - panPosition v)

/-- `volR` (R130). -/
def volR (v : Voice) : Nat := volumeWeight v (64 + panPosition v)

/-- `weightsStep(v, first, seed)` (R130). -/
def weightsStep (first : Bool) (seed : Nat) (v : Voice) : Voice :=
  { v with
    rt := { v.rt with
      wprevL := if first then seed * volL v else v.rt.wcurL
      wprevR := if first then seed * volR v else v.rt.wcurR
      wcurL := v.rt.level.toNat * volL v
      wcurR := v.rt.level.toNat * volR v } }

/-- `weight(Wprev, Wcur)` at the voice's place in its frame (R131). -/
def rampWeight (e : Env) (v : Voice) (wprev wcur : Nat) : F64 :=
  if v.birth.stairstep then F64.ofNat wcur
  else
    let k := v.rt.subidx.toNat
    let a := F64.lerp (F64.ofNat wprev) (F64.ofNat wcur) (F64.div (F64.ofNat k) (F64.ofInt 4))
    let b := F64.lerp (F64.ofNat wprev) (F64.ofNat wcur) (F64.div (F64.ofNat (k + 1)) (F64.ofInt 4))
    F64.lerp a b (F64.div (F64.ofNat v.rt.subcnt.toNat) (F64.ofNat e.glob.spf.toNat))

/-- One side of `gains(v)` (R132). -/
def gainOf (e : Env) (v : Voice) (wprev wcur : Nat) : F64 :=
  F64.mul (F64.div (rampWeight e v wprev wcur) (F64.ofInt 32640)) e.glob.outputGain

/-- `gains(v)` (R132). -/
def gains (e : Env) (v : Voice) : Stereo :=
  ⟨gainOf e v v.rt.wprevL v.rt.wcurL, gainOf e v v.rt.wprevR v.rt.wcurR⟩

end Sys2Proof.Machine
end

