-- ==== Sys2Proof/Machine/Render.lean ====
section
/-!
DEFINITION. One voice's frame step and rendered sample (R100-R104), the rendering of voices into a channel
(R230-R233), the mix into output memory (R235-R237) and the reclaim (R238).
-/

namespace Sys2Proof.Machine

/-! ### One voice -/

/-- `frameStep(v)` (R103): arguments (R104), envelope, and for a voice not DEAD frequency, generator and
weights. -/
def frameStep (e : Env) (v : Voice) : Voice :=
  let w := envStep { v with arg := v.argp }
  if w.state = .dead then
    { w with
      rt := { w.rt with wprevL := w.rt.wcurL, wprevR := w.rt.wcurR, wcurL := 0, wcurR := 0 } }
  else
    let first := v.state == .init
    let w := { w with rt := { w.rt with freq := pitchFreq w } }
    weightsStep first (envSeed v.birth) (genFrame e first w)

/-- The counters of R101. -/
def advanceCounters (g : Globals) (v : Voice) : Voice :=
  let n := v.rt.subcnt + 1#16
  if n = g.spf then { v with rt := { v.rt with subcnt := 0#16, subidx := v.rt.subidx + 1#2 } }
  else { v with rt := { v.rt with subcnt := n } }

/-- The end of a stream (R102, R200): at the last sample of a chunk a voice whose stream has ended is DEAD. -/
def endOfStream (j n : Nat) (v : Voice) : Voice :=
  if (v.rt.subcnt = 0#16 ∨ j + 1 = n) ∧ v.rt.srcEnd then v.setEnv .dead 0#8 else v

/-- The chunk that starts at sample j, if one does: `fresh` says that the voice has rendered no sample of this
PROCESS yet (R190). -/
def chunkAt (g : Globals) (fresh : Bool) (j n : Nat) (v : Voice) : Option Nat :=
  if fresh ∨ v.rt.subcnt = 0#16 then some (min (g.spf.toNat - v.rt.subcnt.toNat) (n - j)) else none

/-- The frame step where one is due (R102). -/
def frameStepIfDue (e : Env) (v : Voice) : Voice :=
  if v.rt.subcnt = 0#16 ∧ v.rt.subidx = 0#2 then frameStep e v else v

/-- `voiceSample(v, j, n)` (R102), for slot `slot`. -/
def voiceSample (e : Env) (slot : Nat) (fresh : Bool) (j n : Nat) (v : Voice) : Voice × Stereo :=
  let w := frameStepIfDue e v
  if w.state = .dead then (w, Stereo.zero)
  else
    let g := genSample e (chunkAt e.glob fresh j n w) w
    let q := gains e g.1
    let w := endOfStream j n (advanceCounters e.glob (lfoClock e slot j g.1))
    (w, ⟨F64.mul g.2.l q.l, F64.mul g.2.r q.r⟩)

/-- `renderVoice(v, c, n)` from sample j on (R232, R233): the voice, and the channel's buffer from sample j
on. -/
def renderFrom (e : Env) (slot n : Nat) : Bool → Nat → Voice → List Stereo → Voice × List Stereo
  | _, _, v, [] => (v, [])
  | fresh, j, v, a :: rest =>
    if v.state = .dead then (v, a :: rest)
    else if v.rt.delay ≠ 0#32 then
      let r := renderFrom e slot n fresh (j + 1)
        { v with rt := { v.rt with delay := v.rt.delay - 1#32 } } rest
      (r.1, a :: r.2)
    else
      let y := voiceSample e slot fresh j n v
      let r := renderFrom e slot n false (j + 1) y.1 rest
      (r.1, addStereo a y.2 :: r.2)

/-- `renderVoice(v, c, n)` (R232). -/
def renderVoice (e : Env) (slot n : Nat) (v : Voice) (acc : List Stereo) : Voice × List Stereo :=
  renderFrom e slot n true 0 v acc

/-! ### One channel -/

/-- A slot that PROCESS renders into channel c (R230). -/
def rendersInto (c : BitVec 4) (v : Voice) : Bool := v.state != .free && v.ch == c

/-- The voices of channel c rendered into its buffer, from slot `slot` on, in ascending slot order (R230). -/
def renderSlots (e : Env) (c : BitVec 4) (n : Nat) :
    Nat → List Voice → List Stereo → List Voice × List Stereo
  | _, [], acc => ([], acc)
  | slot, v :: vs, acc =>
    let r := if rendersInto c v then renderVoice e slot n v acc else (v, acc)
    let rs := renderSlots e c n (slot + 1) vs r.2
    (r.1 :: rs.1, rs.2)

/-- The pattern PROCESS writes for a value (R9, R235).  DESIGN CHOICE (log entry 9): the pattern of a NaN is
free. -/
def outPattern (tag c i : Nat) (x : F64) : F32 :=
  if x.isNaN then F64.nanF32 (Config.nanPattern tag c i) else x.toF32

/-- One element of `mixOut` (R235): a value added to element i of output memory. -/
def mixElem (tag c : Nat) (m : Memory) (i : Nat) (x : F64) : Memory :=
  m.writeElem i (outPattern tag c i (F64.add (F64.ofF32 (m.readElem i)) x))

/-- `mixOut` for the samples of a block from j on (R230, R235). -/
def mixBlock (tag c : Nat) : Nat → Memory → List Stereo → Memory
  | _, m, [] => m
  | j, m, y :: ys => mixBlock tag c (j + 1) (mixElem tag c (mixElem tag c m (2 * j) y.l) (2 * j + 1) y.r) ys

/-- Channel c's part of a PROCESS of n samples (R230): buffer zeroed, voices rendered, reverb, mix. -/
def processChannel (n : Nat) (s : State) (c : BitVec 4) : State :=
  let vs := renderSlots s.env c n 0 s.voices (List.replicate n Stereo.zero)
  let rv := reverbBlock s.cfg s.glob (s.chan c) vs.2
  let ch := { rv.1 with acc := rv.1.acc.putFrom 0 rv.2 }
  { s.setChan c ch with
    voices := vs.1
    outMem := mixBlock s.freeTag c.toNat 0 s.outMem rv.2 }

/-- Channels 0..15, in order (R230). -/
def allChannels : List (BitVec 4) :=
  [0#4, 1#4, 2#4, 3#4, 4#4, 5#4, 6#4, 7#4, 8#4, 9#4, 10#4, 11#4, 12#4, 13#4, 14#4, 15#4]

/-- Reclaim of one slot (R238): DEAD becomes FREE, nothing else changes. -/
def reclaimSlot (v : Voice) : Voice := if v.state = .dead then { v with state := .free } else v

/-- The work of a PROCESS of n samples (R230). -/
def processBlock (n : Nat) (s : State) : State :=
  let t := allChannels.foldl (processChannel n) s
  { t with voices := t.voices.map reclaimSlot, freeTag := t.freeTag + 1 }

end Sys2Proof.Machine
end

