-- ==== Sys2Proof/Machine/VoiceCommands.lean ====
section
/-!
DEFINITION. The voice commands SETV, NOTEON, RELEASE, KILL, UPDARGS, UPDARGS.CH and RDVOICE (R140-R145).
-/

namespace Sys2Proof.Machine

/-- `SETV` (R140). -/
def execSetv (sel : BitVec 8) (voice : BitVec 8) (d : Word) (s : State) : Host.Outcome State Fault Refusal :=
  match voiceRegOf sel with
  | none => State.raise .illegal s
  | some r =>
    State.withSlot voice s fun w =>
      if w.state ≠ .free then State.raise .busy s
      else match w.birth.write r d with
        | none => State.raise .range s
        | some b => State.done (s.setVoice voice.toNat { w with birth := b })

/-- The sample region of a slot is one NOTEON accepts (R141). -/
def regionOk (cfg : Params) (b : Birth) : Bool :=
  b.smpEnd.toNat != 0 && b.smpBase.toNat + b.smpEnd.toNat * b.smpChannels.count ≤ cfg.smpWords &&
    (!b.smpLoopEn || b.smpLoopPos.toNat < b.smpEnd.toNat)

/-- The voice plays sample memory (R141). -/
def DspType.isPcm : DspType → Bool
  | .pcm => true
  | .pcmFixed => true
  | _ => false

/-- The voice NOTEON creates in a slot (R141). -/
def newVoice (ch : BitVec 4) (args : Args) (seq : BitVec 64) (off : Word) (w : Voice) : Voice :=
  { state := .init, ch := ch, seq := seq, birth := w.birth, argp := args, arg := args
    rt := Runtime.initial off }

/-- `NOTEON` (R141). -/
def execNoteon (ch : BitVec 4) (voice : BitVec 8) (off : Word) (s : State) :
    Host.Outcome State Fault Refusal :=
  State.withSlot voice s fun w =>
    if w.state ≠ .free then State.raise .busy s
    else if w.birth.dspType = .none then State.done s
    else if w.birth.dspType.isPcm && !regionOk s.cfg w.birth then State.raise .range s
    else
      State.done { s.setVoice voice.toNat (newVoice ch (s.chan ch).args s.glob.seq off w) with
        glob := { s.glob with seq := narrowU64 (s.glob.seq.toNat + 1) } }

/-- The voice with `RELEASED` set (R142, R240). -/
def Voice.release (w : Voice) : Voice := { w with rt := { w.rt with released := true } }

/-- The voice killed (R144, R241). -/
def Voice.kill (w : Voice) : Voice := { w with state := .dead, rt := { w.rt with level := 0#8 } }

/-- `RELEASE` (R142).  DESIGN CHOICE (log entry 31): as the pseudocode has it, a voice in DIE or DEAD is released too,
which RDVOICE RELEASED then shows, though R142 says that this changes nothing observable. -/
def execRelease (voice : BitVec 8) (s : State) : Host.Outcome State Fault Refusal :=
  State.withSlot voice s fun w =>
    if w.state = .free then State.raise .noVoice s else State.done (s.setVoice voice.toNat w.release)

/-- `KILL` (R144). -/
def execKill (voice : BitVec 8) (s : State) : Host.Outcome State Fault Refusal :=
  State.withSlot voice s fun w =>
    if w.state = .free then State.raise .noVoice s else State.done (s.setVoice voice.toNat w.kill)

/-- `UPDARGS` with `SEL` 0 (R143). -/
def execUpdargs (voice : BitVec 8) (s : State) : Host.Outcome State Fault Refusal :=
  State.withSlot voice s fun w =>
    if w.state = .free then State.raise .noVoice s
    else State.done (s.setVoice voice.toNat { w with argp := (s.chan w.ch).args })

/-- The pending arguments of one slot after `UPDARGS.CH` (R143). -/
def updargsSlot (ch : BitVec 4) (args : Args) (w : Voice) : Voice :=
  if w.state.live ∧ w.ch = ch then { w with argp := args } else w

/-- `UPDARGS.CH`, `UPDARGS` with `SEL` 1 (R143). -/
def execUpdargsCh (ch : BitVec 4) (s : State) : Host.Outcome State Fault Refusal :=
  State.done { s with voices := s.voices.map (updargsSlot ch (s.chan ch).args) }

/-- `RDVOICE` (R145). -/
def execRdvoice (sel : BitVec 8) (voice : BitVec 8) (s : State) : Host.Outcome State Fault Refusal :=
  match readItemOf sel with
  | none => State.raise .illegal s
  | some it => State.withSlot voice s fun w => State.done { s with result := narrowResult (w.item it) }

end Sys2Proof.Machine
end

