-- ==== Sys2Proof/Machine/ChannelCommands.lean ====
section
/-!
DEFINITION. The commands NOP, SETC, SETG, PROCESS, NOTEOFF, ALLOFF and CLRSTAT (R230-R248).
-/

namespace Sys2Proof.Machine

/-- `NOP` (R248). -/
def execNop (s : State) : Host.Outcome State Fault Refusal := State.done s

/-- `SETC` (R244): a write of `REVERB_TYPE` initialises the channel's reverb (R219). -/
def execSetc (sel : BitVec 8) (ch : BitVec 4) (d : Word) (s : State) : Host.Outcome State Fault Refusal :=
  match chanRegOf sel with
  | none => State.raise .illegal s
  | some r =>
    match (s.chan ch).write r d with
    | none => State.raise .range s
    | some c =>
      State.done (s.setChan ch (if r = .reverbType then c.resetReverb s.cfg s.glob else c))

/-- `SETG` (R245): a write that changes `SPF` initialises the reverb of every channel (R246). -/
def execSetg (sel : BitVec 8) (d : Word) (s : State) : Host.Outcome State Fault Refusal :=
  match globRegOf sel with
  | none => State.raise .illegal s
  | some r =>
    if r.needsSilence && anyVoice s.voices then State.raise .state s
    else match s.glob.write r d with
      | none => State.raise .range s
      | some g =>
        State.done
          { s with
            glob := g
            chans := if r = .spf ∧ g.spf ≠ s.glob.spf then resetAllReverbs s.cfg g s.chans else s.chans }

/-- `PROCESS` (R230). -/
def execProcess (n : Word) (s : State) : Host.Outcome State Fault Refusal :=
  if n.toNat = 0 ∨ s.cfg.blockMax < n.toNat then State.raise .range s
  else State.done (processBlock n.toNat s)

/-- A candidate of NOTEOFF (R240). -/
def noteoffCandidate (ch : BitVec 4) (key : Nat) (w : Voice) : Bool :=
  w.state.live && w.ch == ch && w.birth.key.toNat == key && !w.rt.released

/-- The smallest `SEQ` among the candidates of NOTEOFF, if there is one (R240). -/
def oldestSeq (ch : BitVec 4) (key : Nat) (vs : List Voice) : Option Nat :=
  ((vs.filter (noteoffCandidate ch key)).map fun w => w.seq.toNat).min?

/-- The voices with `RELEASED` set in the first candidate whose `SEQ` is the given one (R240).  DESIGN CHOICE (log
entry 17): of two candidates with one `SEQ`, the lower slot. -/
def releaseOldest (ch : BitVec 4) (key seq : Nat) : List Voice → List Voice
  | [] => []
  | w :: ws =>
    if noteoffCandidate ch key w && w.seq.toNat == seq then w.release :: ws
    else w :: releaseOldest ch key seq ws

/-- `NOTEOFF` (R240). -/
def execNoteoff (ch : BitVec 4) (key : Word) (s : State) : Host.Outcome State Fault Refusal :=
  let k := assembleU 127 key
  match oldestSeq ch k s.voices with
  | none => State.done s
  | some q => State.done { s with voices := releaseOldest ch k q s.voices }

/-- `ALLOFF` on one slot (R241). -/
def alloffSlot (w : Voice) : Voice := if w.state = .free then w else w.kill

/-- `ALLOFF` (R241). -/
def execAlloff (s : State) : Host.Outcome State Fault Refusal :=
  State.done { s with voices := s.voices.map alloffSlot }

/-- `CLRSTAT` (R247). -/
def execClrstat (mask : Word) (s : State) : Host.Outcome State Fault Refusal :=
  match assembleB 0x1F mask with
  | none => State.raise .range s
  | some _ => State.done { s with status := statusCleared s.status mask }

end Sys2Proof.Machine
end

