-- ==== Sys2Proof/Machine/Dispatch.lean ====
section
/-!
DEFINITION. The meaning of every command, one arm each.
-/

namespace Sys2Proof.Machine

def exec (i : Instr) (s : State) : Host.Outcome State Fault Refusal :=
  match i with
  | .nop => Sys2Proof.Machine.execNop s
  | .setv sel voice d => Sys2Proof.Machine.execSetv sel voice d s
  | .noteon ch voice off => Sys2Proof.Machine.execNoteon ch voice off s
  | .release voice => Sys2Proof.Machine.execRelease voice s
  | .kill voice => Sys2Proof.Machine.execKill voice s
  | .updargs voice => Sys2Proof.Machine.execUpdargs voice s
  | .updargsCh ch => Sys2Proof.Machine.execUpdargsCh ch s
  | .setc sel ch d => Sys2Proof.Machine.execSetc sel ch d s
  | .setg sel d => Sys2Proof.Machine.execSetg sel d s
  | .process n => Sys2Proof.Machine.execProcess n s
  | .noteoff ch key => Sys2Proof.Machine.execNoteoff ch key s
  | .alloff => Sys2Proof.Machine.execAlloff s
  | .clrstat mask => Sys2Proof.Machine.execClrstat mask s
  | .rdvoice sel voice => Sys2Proof.Machine.execRdvoice sel voice s

end Sys2Proof.Machine
end

