-- ==== Sys2Proof/Machine/Host.lean ====
section
/-!
DEFINITION. What the host reads and writes directly (R20, R61-R65, R280): `STATUS`, `RESULT`, the two memories,
the reset event, and the command port (R80, R281).
-/

namespace Sys2Proof.Machine

/-- The host reads `STATUS` (R27).  No read changes state (R64). -/
def State.readStatus (s : State) : Word := s.status

/-- The host reads `RESULT` (R28). -/
def State.readResult (s : State) : Word := s.result

/-- The host reads an element of output memory, where it exists (R63). -/
def State.readOut (s : State) (i : Nat) : Option F32 :=
  if i < outWords s.cfg then some (s.outMem.readElem i) else none

/-- The host reads an element of sample memory, where it exists (R45, R62). -/
def State.readSmp (s : State) (i : Nat) : Option F32 :=
  if i < s.cfg.smpWords then some (s.smpMem.readElem i) else none

/-- The host writes an element of sample memory (R62).  DESIGN CHOICE (log entry 14): one that does not exist
faults. -/
def State.hostWriteSmp (i : Nat) (v : F32) (s : State) : Host.Outcome State Fault Refusal :=
  if i < s.cfg.smpWords then .next { s with smpMem := s.smpMem.writeElem i v } else .fault .noSampleElement

/-- The host writes an element of output memory (R63).  DESIGN CHOICE (log entry 14): one that does not exist
faults. -/
def State.hostWriteOut (i : Nat) (v : F32) (s : State) : Host.Outcome State Fault Refusal :=
  if i < outWords s.cfg then .next { s with outMem := s.outMem.writeElem i v } else .fault .noOutputElement

/-- The reset event (R280): every register as R48 says, and a header without its data word discarded (R281);
the memories (R282), the configuration (R283) and what the host does next are not changed. -/
def State.hostReset (s : State) : State :=
  { State.resetOf s.cfg s.smpMem s.outMem with input := s.input, freeTag := s.freeTag }

/-- A command's two words executed (R80, R85): the words are decoded and the command run; words that are no
command raise `ERR_ILLEGAL` (R89). -/
def runWords (h d : Word) (s : State) : Host.Outcome State Fault Refusal :=
  match decode h d with
  | .ok i => exec i s
  | .rejected _ => State.raise .illegal s

/-- A write to the command port (R281): in phase HEADER the header is latched, in phase DATA the command is
executed and the port expects a header again. -/
def portWrite (w : Word) (s : State) : Host.Outcome State Fault Refusal :=
  match s.port with
  | .header => .next { s with port := .data w }
  | .data h => runWords h w { s with port := .header }

/-! ### Accesses by address (R65) -/

/-- The host writes the resource: all but the two read-only registers (R65). -/
def hostWrites : Resource → Bool
  | .port | .smp _ | .out _ => true
  | .status | .result => false

/-- The host reads the resource: all but the command port (R65, R80). -/
def hostReads : Resource → Bool
  | .status | .result | .smp _ | .out _ => true
  | .port => false

/-- The resource of one kind of access that the map places at a host address. -/
def placedAt (m : PlatformMap) (kind : Resource → Bool) (a : Nat) : Option Resource :=
  (m.find? fun x => x.1 == a && kind x.2).map (·.2)

/-- The host writes a word at an address: the resource that `PLATFORM_MAP` places there is written (R65).
DESIGN CHOICE (log entry 14): an address without one that can be written faults. -/
def State.hostStore (a : Nat) (w : Word) (s : State) : Host.Outcome State Fault Refusal :=
  match placedAt s.cfg.platformMap hostWrites a with
  | some .port => portWrite w s
  | some (.smp i) => s.hostWriteSmp i w
  | some (.out i) => s.hostWriteOut i w
  | some .status | some .result | none => .fault .notWritable

/-- What the host reads at an address: the resource that `PLATFORM_MAP` places there (R65). -/
def State.hostLoad (s : State) (a : Nat) : Option Word :=
  match placedAt s.cfg.platformMap hostReads a with
  | some .status => some s.readStatus
  | some .result => some s.readResult
  | some (.smp i) => s.readSmp i
  | some (.out i) => s.readOut i
  | some .port | none => none

/-- One access of the host or the platform. -/
def hostStep (e : HostEvent) (s : State) : Host.Outcome State Fault Refusal :=
  match e with
  | .port w => portWrite w s
  | .writeSmp i v => s.hostWriteSmp i v
  | .writeOut i v => s.hostWriteOut i v
  | .store a w => s.hostStore a w
  | .reset => .next s.hostReset

end Sys2Proof.Machine
end

