-- ==== Sys2Proof/Machine/Step.lean ====
section
/-!
DEFINITION. One step: the host's next access to the block (R20, R67, R80, R281).
-/

namespace Sys2Proof.Machine

/-- One step: the next access of the host (DESIGN CHOICE, log entry 1: `State.input` holds the accesses); with none
the block is idle and keeps its state (R278). -/
def step (s : State) : Host.Outcome State Fault Refusal :=
  match s.input with
  | [] => .next s
  | e :: rest => hostStep e { s with input := rest }

/-- The state in which the very next step executes the command of a row's bits: its header latched, and its
data word the next word the host writes. -/
def State.withFetchWord (s : State) (nbits w : Nat) : State :=
  { s with
    port := .data (tableWords nbits w).1
    input := .port (tableWords nbits w).2 :: s.input }

end Sys2Proof.Machine
end

