-- ==== Sys2Proof/Machine/Assembler.lean ====
section
/-!
DEFINITION. The assembler (R90, R91): from the characters of a line to its mnemonic and operands, and from
those to the commands it stands for.  DESIGN CHOICE (log entry 20): the spellings R90 does not give.
-/

namespace Sys2Proof.Machine

/-- An operand as a line writes it (R90). -/
inductive Operand where
  /-- A decimal or hexadecimal number. -/
  | int (i : Int)
  /-- A decimal literal: `digits / 10^scale`, negative or not. -/
  | dec (negative : Bool) (digits scale : Nat)
  /-- A register name. -/
  | name (s : String)
deriving DecidableEq, Repr

/-- One command of assembler text (R90). -/
structure Line where
  mnemonic : String
  operands : List Operand
deriving DecidableEq, Repr

/-- The name of a birth field (R33). -/
def VoiceReg.name : VoiceReg → String
  | .key => "KEY"
  | .velocity => "VELOCITY"
  | .panOffset => "PAN_OFFSET"
  | .echoVol => "ECHO_VOL"
  | .echoLen => "ECHO_LEN"
  | .track => "TRACK"
  | .att => "ATT"
  | .dec => "DEC"
  | .sus => "SUS"
  | .rel => "REL"
  | .dspType => "DSP_TYPE"
  | .stairstep => "STAIRSTEP"
  | .midcFreq => "MIDC_FREQ"
  | .duty => "DUTY"
  | .sweep => "SWEEP"
  | .pwmBase => "PWM_BASE"
  | .pwmStep => "PWM_STEP"
  | .pwmDepth => "PWM_DEPTH"
  | .smpBase => "SMP_BASE"
  | .smpEnd => "SMP_END"
  | .smpLoopEn => "SMP_LOOP_EN"
  | .smpLoopPos => "SMP_LOOP_POS"
  | .smpChannels => "SMP_CHANNELS"

/-- The name of a channel register (R24). -/
def ChanReg.name : ChanReg → String
  | .volume => "VOLUME"
  | .pan => "PAN"
  | .tune => "TUNE"
  | .pitchWheel => "PITCH_WHEEL"
  | .bendRange => "BEND_RANGE"
  | .lfoSpeed => "LFO_SPEED"
  | .lfoDepth => "LFO_DEPTH"
  | .reverbType => "REVERB_TYPE"
  | .reverbIntensity => "REVERB_INTENSITY"

/-- The name of a global register (R22). -/
def GlobReg.name : GlobReg → String
  | .outputGain => "OUTPUT_GAIN"
  | .sampleRate => "SAMPLE_RATE"
  | .spf => "SPF"
  | .bpm => "BPM"

/-- The name of a readback item (R145). -/
def ReadItem.name : ReadItem → String
  | .state => "STATE"
  | .isdead => "ISDEAD"
  | .level => "LEVEL"
  | .timer => "TIMER"
  | .sweepOn => "SWEEP_ON"
  | .released => "RELEASED"
  | .ch => "CH"
  | .key => "KEY"
  | .echoCnt => "ECHO_CNT"
  | .lfoPhase => "LFO_PHASE"

/-- The register a name stands for, among those with a selector below `count`. -/
def registerNamed {α : Type} (count : Nat) (ofSel : BitVec 8 → Option α) (nameOf : α → String)
    (s : String) : Option α :=
  ((List.range count).filterMap fun n => ofSel (BitVec.ofNat 8 n)).find? fun r => nameOf r == s

/-- The f32 pattern nearest to a decimal literal (R90). -/
def f32OfDecimal (negative : Bool) (digits scale : Nat) : F32 :=
  let m := binary32.round (digits * 2 ^ 149) (10 ^ scale)
  BitVec.ofNat 32 (if negative then 2 ^ 31 + m else m)

/-- A data word from a number: any that 32 bits hold, signed or unsigned. -/
def wordOfInt (i : Int) : Option Word :=
  if -(2 ^ 31) ≤ i ∧ i < 2 ^ 32 then some (BitVec.ofInt 32 i) else none

/-- The data word an operand gives a register of kind f or of another kind (R82, R90). -/
def dataWord (isFloat : Bool) : Operand → Option Word
  | .int i => if isFloat then some (f32OfDecimal (i < 0) i.natAbs 0) else wordOfInt i
  | .dec negative digits scale => if isFloat then some (f32OfDecimal negative digits scale) else none
  | .name _ => none

/-- The birth field is of kind f (R33). -/
def VoiceReg.isFloat (r : VoiceReg) : Bool := r == .midcFreq

/-- The global register is of kind f (R22). -/
def GlobReg.isFloat (r : GlobReg) : Bool := r != .spf

/-- A voice slot operand: what the field `VOICE` holds. -/
def voiceOperand (i : Int) : Option (BitVec 8) :=
  if 0 ≤ i ∧ i < 256 then some (BitVec.ofInt 8 i) else none

/-- A channel operand: what the field `CH` holds. -/
def channelOperand (i : Int) : Option (BitVec 4) :=
  if 0 ≤ i ∧ i < 16 then some (BitVec.ofInt 4 i) else none

/-- `SETV v, NAME, value`. -/
def assembleSetv (v : Int) (name : String) (value : Operand) : Option Instr := do
  let voice ← voiceOperand v
  let r ← registerNamed setvSelectors voiceRegOf VoiceReg.name name
  let d ← dataWord r.isFloat value
  return .setv r.sel voice d

/-- `SETC ch, NAME, value`. -/
def assembleSetc (c : Int) (name : String) (value : Operand) : Option Instr := do
  let ch ← channelOperand c
  let r ← registerNamed setcSelectors chanRegOf ChanReg.name name
  let d ← dataWord false value
  return .setc r.sel ch d

/-- `SETG NAME, value`. -/
def assembleSetg (name : String) (value : Operand) : Option Instr := do
  let r ← registerNamed setgSelectors globRegOf GlobReg.name name
  let d ← dataWord r.isFloat value
  return .setg r.sel d

/-- `RDVOICE v, NAME`. -/
def assembleRdvoice (v : Int) (name : String) : Option Instr := do
  let voice ← voiceOperand v
  let r ← registerNamed rdvoiceSelectors readItemOf ReadItem.name name
  return .rdvoice r.sel voice

/-- The commands a line stands for (R90, R91): one, or a pseudo-instruction's expansion. -/
def assemble (l : Line) : Option (List Instr) :=
  match l.mnemonic, l.operands with
  | "NOP", [] => some [.nop]
  | "SETV", [.int v, .name r, x] => (assembleSetv v r x).map fun i => [i]
  | "NOTEON", [.int v, .int c, .int off] => do
    return [.noteon (← channelOperand c) (← voiceOperand v) (← wordOfInt off)]
  | "RELEASE", [.int v] => do return [.release (← voiceOperand v)]
  | "KILL", [.int v] => do return [.kill (← voiceOperand v)]
  | "UPDARGS", [.int v] => do return [.updargs (← voiceOperand v)]
  | "UPDARGS.CH", [.int c] => do return [.updargsCh (← channelOperand c)]
  | "SETC", [.int c, .name r, x] => (assembleSetc c r x).map fun i => [i]
  | "SETG", [.name r, x] => (assembleSetg r x).map fun i => [i]
  | "PROCESS", [.int n] => do return [.process (← wordOfInt n)]
  | "NOTEOFF", [.int c, .int k] => do return [.noteoff (← channelOperand c) (← wordOfInt k)]
  | "ALLOFF", [] => some [.alloff]
  | "CLRSTAT", [.int m] => do return [.clrstat (← wordOfInt m)]
  | "RDVOICE", [.int v, .name r] => (assembleRdvoice v r).map fun i => [i]
  | "PLAY", [.int v, .int c, .int k, .int vel] => do
    return expandPlay (← voiceOperand v) (← channelOperand c) (← wordOfInt k) (← wordOfInt vel)
  | "ADSR", [.int v, .int a, .int d, .int s, .int r] => do
    return expandAdsr (← voiceOperand v) (← wordOfInt a) (← wordOfInt d) (← wordOfInt s) (← wordOfInt r)
  | "CLRALL", [] => some expandClrall
  | "ISDEAD", [.int v] => do return expandIsdead (← voiceOperand v)
  | _, _ => none

/-! ### From characters to a line (R90) -/

/-- The value of a digit in base 10 or 16, if the character is one. -/
def digitValue (base : Nat) (c : Char) : Option Nat :=
  let n := c.toNat
  let v :=
    if 48 ≤ n ∧ n ≤ 57 then n - 48
    else if 97 ≤ n ∧ n ≤ 102 then n - 87
    else if 65 ≤ n ∧ n ≤ 70 then n - 55
    else base
  if v < base then some v else none

/-- The number a row of digits writes: at least one digit, every character a digit. -/
def digitsValue (base : Nat) (cs : List Char) : Option Nat :=
  if cs.isEmpty then none
  else cs.foldl (fun acc c => do return (← acc) * base + (← digitValue base c)) (some 0)

/-- A number without its sign: `0x` and hexadecimal digits, decimal digits, or a decimal literal with digits
on both sides of its point. -/
def numberOperand (negative : Bool) (cs : List Char) : Option Operand :=
  let signed (n : Nat) : Int := if negative then -(n : Int) else n
  match cs with
  | '0' :: 'x' :: hex => (digitsValue 16 hex).map fun n => .int (signed n)
  | _ =>
    let fraction := cs.dropWhile (· != '.')
    if fraction.isEmpty then (digitsValue 10 cs).map fun n => .int (signed n)
    else do
      let whole ← digitsValue 10 (cs.takeWhile (· != '.'))
      let part ← digitsValue 10 fraction.tail
      return .dec negative (whole * 10 ^ fraction.tail.length + part) fraction.tail.length

/-- One operand: a number, or a register name. -/
def operandOf (cs : List Char) : Option Operand :=
  match cs with
  | [] => none
  | '-' :: rest => numberOperand true rest
  | c :: _ => if (digitValue 10 c).isSome then numberOperand false cs else some (.name (String.ofList cs))

/-- Blanks at either end taken away. -/
def trimBlanks (cs : List Char) : List Char :=
  let blank (c : Char) : Bool := c == ' ' || c == '\t'
  ((cs.dropWhile blank).reverse.dropWhile blank).reverse

/-- The pieces between the commas. -/
def splitCommas : List Char → List (List Char)
  | [] => [[]]
  | c :: cs =>
    if c == ',' then [] :: splitCommas cs
    else match splitCommas cs with
      | piece :: pieces => (c :: piece) :: pieces
      | [] => [[c]]

/-- A line of assembler text cut into mnemonic and operands. -/
def lineOf (text : List Char) : Option Line :=
  let cs := trimBlanks text
  let isMnemonic (c : Char) : Bool := !(c == ' ' || c == '\t')
  let operands := trimBlanks (cs.dropWhile isMnemonic)
  let mnemonic := String.ofList (cs.takeWhile isMnemonic)
  if operands.isEmpty then some ⟨mnemonic, []⟩
  else do return ⟨mnemonic, ← (splitCommas operands).mapM fun piece => operandOf (trimBlanks piece)⟩

/-- The commands a line of assembler text stands for (R90, R91). -/
def assembleText (text : List Char) : Option (List Instr) := (lineOf text).bind assemble

end Sys2Proof.Machine
end

