-- ==== Sys2Proof/Safety.lean ====
section
/-!
DEFINITION. What a safe run is, and the terms the statements use: the invariants of the state, the words that
are no command, the state an error leaves, and runs of several commands.
-/

/-- The resource exists in the configuration (R62, R63, R65). -/
def Sys2Proof.Params.hasResource (cfg : Sys2Proof.Params) : Sys2Proof.Resource → Prop
  | .smp i => i < cfg.smpWords
  | .out i => i < 2 * cfg.blockMax
  | .port | .status | .result => True

/-- `PLATFORM_MAP` places every resource that exists and no other, and at no address two that the host writes or
two that it reads (R46, R65). -/
def Sys2Proof.Params.mapLegal (cfg : Sys2Proof.Params) : Prop :=
  (∀ r, cfg.hasResource r ↔ ∃ a, (a, r) ∈ cfg.platformMap) ∧
    ∀ a r r', (a, r) ∈ cfg.platformMap → (a, r') ∈ cfg.platformMap →
      (Sys2Proof.Machine.hostWrites r = true ∧ Sys2Proof.Machine.hostWrites r' = true ∨
        Sys2Proof.Machine.hostReads r = true ∧ Sys2Proof.Machine.hostReads r' = true) → r = r'

/-- The configuration is one R6 and R65 allow. -/
def Sys2Proof.Params.legal (cfg : Sys2Proof.Params) : Prop :=
  1 ≤ cfg.numVoices ∧ cfg.numVoices ≤ 256 ∧ 1 ≤ cfg.blockMax ∧ 2 ≤ cfg.hwbuf ∧ 1 ≤ cfg.blepN ∧
    1 ≤ cfg.blepRes ∧ Sys2Proof.F64.lt Sys2Proof.F64.zero cfg.blepTaper = true ∧
    Sys2Proof.F64.le cfg.blepTaper (Sys2Proof.F64.ofNat cfg.blepN) = true ∧ cfg.mapLegal

namespace Sys2Proof.Machine

/-! ### Safe runs -/

/-- The block ran k steps without a stop and is in state t. -/
def RunsTo : Nat → State → State → Prop
  | 0, s, t => t = s
  | k + 1, s, t => ∃ u, step s = .next u ∧ RunsTo k u t

/-- A run is safe when no step of it is a fault or a refusal. -/
def SafeFor (k : Nat) (s : State) : Prop := ∃ t, RunsTo k s t

/-- Commands executed one after another. -/
def execAll : List Instr → State → Host.Outcome State Fault Refusal
  | [], s => .next s
  | i :: is, s =>
    match exec i s with
    | .next t => execAll is t
    | .fault r => .fault r
    | .refused r => .refused r

/-! ### Commands -/

/-- The pairs of words that R262 calls illegal, cause by cause. -/
def IllegalWords (h d : Word) : Prop :=
  let op := (headerOp h).toNat
  let sel := (headerSel h).toNat
  -- `OP` ≥ 0x0D; `RSV` nonzero
  0x0D ≤ op ∨ headerRsv h ≠ 0#4 ∨
  -- a header field the opcode does not use nonzero: `SEL`, `CH`, `VOICE`
  (op ∈ [0x00, 0x02, 0x03, 0x04, 0x08, 0x09, 0x0A, 0x0B] ∧ headerSel h ≠ 0#8) ∨
  (op ∈ [0x00, 0x01, 0x03, 0x04, 0x07, 0x08, 0x0A, 0x0B, 0x0C] ∧ headerCh h ≠ 0#4) ∨
  (op = 0x05 ∧ sel = 0 ∧ headerCh h ≠ 0#4) ∨
  (op ∈ [0x00, 0x06, 0x07, 0x08, 0x09, 0x0A, 0x0B] ∧ headerVoice h ≠ 0#8) ∨
  (op = 0x05 ∧ sel = 1 ∧ headerVoice h ≠ 0#8) ∨
  -- a data word of kind z nonzero
  (op ∈ [0x00, 0x03, 0x04, 0x05, 0x0A, 0x0C] ∧ d ≠ 0#32) ∨
  -- a reserved selector
  (op = 0x01 ∧ 0x17 ≤ sel) ∨ (op = 0x06 ∧ 0x09 ≤ sel) ∨ (op = 0x07 ∧ 0x04 ≤ sel) ∨
  (op = 0x05 ∧ 0x02 ≤ sel) ∨ (op = 0x0C ∧ 0x0A ≤ sel)

/-! ### `STATUS` -/

/-- `STATUS` with `ANY_VOICE` 1 iff some slot is not FREE (R239), every other bit as given. -/
def statusFor (st : Word) (vs : List Voice) : Word :=
  if ∃ w ∈ vs, w.state ≠ .free then st ||| 0x00000100#32 else st &&& 0xFFFFFEFF#32

/-- The state a command leaves that sets error bit k and is abandoned (R261, R239). -/
def errorState (k : Nat) (s : State) : State :=
  { s with status := statusFor (s.status ||| BitVec.ofNat 32 (2 ^ k)) s.voices }

/-- Bits 7:5 and 31:9 of `STATUS` read as 0 and `ANY_VOICE` is 1 iff some slot is not FREE (R27). -/
def State.statusWf (s : State) : Prop :=
  (∀ k, 5 ≤ k → k ≠ 8 → s.status.getLsbD k = false) ∧
    (s.status.getLsbD 8 = true ↔ ∃ w ∈ s.voices, w.state ≠ .free)

/-! ### What a command answers -/

/-- A command that ends normally with slot v holding w. -/
def slotAnswer (s : State) (v : BitVec 8) (w : Voice) : Host.Outcome State Fault Refusal :=
  .next { s with
    voices := s.voices.set v.toNat w
    status := statusFor s.status (s.voices.set v.toNat w) }

/-- A command that ends normally with slot v, which held w, holding the birth fields b. -/
def birthAnswer (s : State) (v : BitVec 8) (w : Voice) (b : Birth) : Host.Outcome State Fault Refusal :=
  slotAnswer s v { w with birth := b }

/-- A command that ends normally with `C[ch]` replaced. -/
def chanAnswer (s : State) (ch : BitVec 4) (c : Channel) : Host.Outcome State Fault Refusal :=
  .next { s with
    chans := s.chans.set ch.toNat c ch.isLt
    status := statusFor s.status s.voices }

/-- A command that ends normally with the global registers replaced. -/
def globAnswer (s : State) (g : Globals) : Host.Outcome State Fault Refusal :=
  .next { s with glob := g, status := statusFor s.status s.voices }

/-! ### f32 data by its pattern (R9, R82) -/

/-- The pattern is a finite value's. -/
def f32Finite (d : Word) : Prop := d.toNat % 2 ^ 31 < 0x7F800000

/-- The pattern is that of a finite value above 0. -/
def f32Positive (d : Word) : Prop := 0 < d.toNat ∧ d.toNat < 0x7F800000

/-- The pattern is that of a finite value of at least 0; -0.0 is one. -/
def f32NonNegative (d : Word) : Prop := d.toNat < 0x7F800000 ∨ d.toNat = 0x80000000

/-! ### Reset -/

/-- Every register holds the value R48 gives it: the reset columns of R22, R24 and R33, the NOTEON values of
R35-R43, and zero for the rest. -/
def State.atReset (s : State) : Prop :=
  (s.glob.outputGain = ⟨0x3FF0000000000000#64⟩ ∧ s.glob.sampleRate = ⟨0x40E7700000000000#64⟩ ∧
    s.glob.spf = 200#16 ∧ s.glob.bpm = ⟨0x405E000000000000#64⟩ ∧ s.glob.seq = 0#64) ∧
  (∀ c, (s.chan c).args.volume = 100#7 ∧ (s.chan c).args.pan = 0#7 ∧ (s.chan c).args.tune = 0#16 ∧
    (s.chan c).args.pitchWheel = 0#7 ∧ (s.chan c).args.bendRange = 2#7 ∧ (s.chan c).args.lfoSpeed = 0#8 ∧
    (s.chan c).args.lfoDepth = 0#7 ∧ (s.chan c).reverbType = .off ∧ (s.chan c).reverbIntensity = 0#7 ∧
    (∀ i, (s.chan c).ring0.get i = Stereo.zero ∧ (s.chan c).ring1.get i = Stereo.zero ∧
      (s.chan c).ring2.get i = Stereo.zero ∧ (s.chan c).acc.get i = Stereo.zero) ∧
    (s.chan c).cur0 = 0 ∧ (s.chan c).cur1 = 0 ∧ (s.chan c).cur2 = 0) ∧
  s.voices.length = s.cfg.numVoices ∧
  (∀ w ∈ s.voices, w.state = .free ∧
    w.birth = { key := 60#7, velocity := 127#7, panOffset := 0#7, echoVol := 0#8, echoLen := 0#8,
                track := 0#8, att := 0xFF#8, dec := 0x00#8, sus := 0xFF#8, rel := 0x00#8, dspType := .none,
                stairstep := false, midcFreq := ⟨0x3FF0000000000000#64⟩, duty := 2#2, sweep := 0x00#8,
                pwmBase := 0x80000000#32, pwmStep := 0#32, pwmDepth := 0#9, smpBase := 0#32, smpEnd := 0#32,
                smpLoopEn := false, smpLoopPos := 0#32, smpChannels := .mono } ∧
    w.rt = { level := 0#8, released := false, echoCnt := 0#8, delay := 0#32, subcnt := 0#16, subidx := 0#2,
             wprevL := 0, wprevR := 0, wcurL := 0, wcurR := 0, freq := F64.zero, lfoPhase := 0#8,
             bpmAcc := F64.zero, sweepOn := false, timer := 0, pwmAcc := 0#32, thrPrev := 0#32,
             thrCur := 0#32, phase := 0#32, phaseInc := 0#32, rdpos := 0#32, srcEnd := false, rbuf := [],
             ridx := 0#64, rphase := F64.zero, rinc := F64.zero }) ∧
  s.status = 0#32 ∧ s.result = 0#32 ∧ s.port = .header

/-! ### Memory -/

/-- Both memories are in canonical form and inside their bounds (R62, R63). -/
def State.memoryWf (s : State) : Prop :=
  s.smpMem.wf s.cfg.smpWords = true ∧ s.outMem.wf (outWords s.cfg) = true

/-- Every byte of both memories reads in t as in s. -/
def SameMemory (s t : State) : Prop :=
  ∀ a, t.smpMem.readByte a = s.smpMem.readByte a ∧ t.outMem.readByte a = s.outMem.readByte a

/-! ### Slots -/

/-- The slots are `NUM_VOICES` many (R29). -/
def State.slotsWf (s : State) : Prop := s.voices.length = s.cfg.numVoices

/-- `SPF` is at least 1, and every slot that is not FREE stands inside its sub-frame (R22, R36). -/
def State.gridWf (s : State) : Prop :=
  1 ≤ s.glob.spf.toNat ∧ ∀ w ∈ s.voices, w.state ≠ .free → w.rt.subcnt.toNat < s.glob.spf.toNat

/-- The frames of a slot's region lie in sample memory, and its loop point in the region (R62, R141). -/
def RegionInside (cfg : Params) (b : Birth) : Prop :=
  b.smpEnd ≠ 0#32 ∧ b.smpBase.toNat + b.smpEnd.toNat * b.smpChannels.count ≤ cfg.smpWords ∧
    (b.smpLoopEn = true → b.smpLoopPos.toNat < b.smpEnd.toNat)

/-- Every slot that is not FREE has a generator, and one that plays sample memory a region inside it (R62,
R141, R150). -/
def State.regionsWf (s : State) : Prop :=
  ∀ w ∈ s.voices, w.state ≠ .free →
    w.birth.dspType ≠ .none ∧
      (w.birth.dspType = .pcm ∨ w.birth.dspType = .pcmFixed → RegionInside s.cfg w.birth)

/-- Every slot's sweep timer, weights and modulation depth are in their ranges (R33, R37, R39). -/
def State.rangesWf (s : State) : Prop :=
  ∀ w ∈ s.voices,
    w.rt.timer ≤ s.cfg.timerMax ∧ w.birth.pwmDepth.toNat ≤ 256 ∧ w.rt.wprevL ≤ 255 * 126 ∧
      w.rt.wprevR ≤ 255 * 126 ∧ w.rt.wcurL ≤ 255 * 126 ∧ w.rt.wcurR ≤ 255 * 126

/-! ### A block -/

/-- The buffer of channel c after its voices are rendered (R230-R232): from n pairs (0.0, 0.0) on, the block of
every slot of the channel that is not FREE added, in ascending slot order. -/
def dryBlock (s : State) (n : Nat) (c : BitVec 4) : List Stereo :=
  s.voices.zipIdx.foldl
    (fun acc p => if p.1.state ≠ .free ∧ p.1.ch = c then (renderVoice s.env p.2 n p.1 acc).2 else acc)
    (List.replicate n Stereo.zero)

/-- Channel c after its reverb has run over its buffer, sample by sample, and the buffer after that (R234). -/
def wetBlock (s : State) (n : Nat) (c : BitVec 4) : Channel × List Stereo :=
  reverbBlock s.cfg s.glob (s.chan c) (dryBlock s n c)

/-! ### Reverb -/

/-- A ring of length L in canonical form, and a cursor in it (R25, R73). -/
def ringWf (L : Nat) (r : Ring) (cur : Nat) : Prop := storeWf Stereo.zero L 0 r = true ∧ cur < L

/-- A ring that the channel's reverb does not use: nothing in it, its cursor 0 (R219). -/
def ringUnused (r : Ring) (cur : Nat) : Prop := r = [] ∧ cur = 0

/-- The reverb state of a channel fits its `REVERB_TYPE` (R25, R210, R216, R219). -/
def Channel.reverbWf (cfg : Params) (g : Globals) (c : Channel) : Prop :=
  match c.reverbType with
  | .off => ringUnused c.ring0 c.cur0 ∧ ringUnused c.ring1 c.cur1 ∧ ringUnused c.ring2 c.cur2
  | .base =>
    ringWf (g.spf.toNat * 4 * cfg.hwbuf) c.ring0 c.cur0 ∧ ringUnused c.ring1 c.cur1 ∧
      ringUnused c.ring2 c.cur2
  | .variant x =>
    ringUnused c.ring0 c.cur0 ∧ ringWf (revLen1 x cfg g) c.ring1 c.cur1 ∧
      ringWf (revLen2 x cfg g) c.ring2 c.cur2

/-- Every channel's reverb state fits, and every accumulation buffer is in its bounds (R25, R26). -/
def State.reverbsWf (s : State) : Prop :=
  1 ≤ s.glob.spf.toNat ∧ 1 ≤ s.cfg.hwbuf ∧
    ∀ c, (s.chan c).reverbWf s.cfg s.glob ∧ storeWf Stereo.zero s.cfg.blockMax 0 (s.chan c).acc = true

end Sys2Proof.Machine
end

