-- ==== Sys2Proof/Certificates/Slice0/Obligations.lean ====
section
/-!
DEFINITION. The statements for the provers.  A statement about a command says its whole next state as an update
of the state before, so every field it does not name, and with the memories every byte of them, is unchanged.
-/

open Sys2Proof Sys2Proof.Machine

/-! ### Encoding -/

/-- Decoding the two words of a well-formed command gives the command (R81, R84, R85). -/
def Obligations.DecodeOfEncode : Prop :=
  ∀ i : Instr, i.wellFormed = true → decode (encode i).1 (encode i).2 = .ok i

/-- A pair of words that decodes to a command is that command's encoding, and the command is well-formed: no
two pairs of words mean one command, and no bit of a pair is dropped. -/
def Obligations.EncodeOfDecode : Prop :=
  ∀ (h d : Word) (i : Instr), decode h d = .ok i → i.wellFormed = true ∧ encode i = (h, d)

/-- Decoding rejects a pair of words exactly for one of the causes R262 lists. -/
def Obligations.RejectedExactlyWhenIllegal : Prop :=
  ∀ h d : Word, (∃ why, decode h d = .rejected why) ↔ IllegalWords h d

/-- The worked encodings of R92: each assembly line stands for one command, whose words are the line's, and
the words decode to the command. -/
def Obligations.WorkedEncodingsDecode : Prop :=
  ∀ t i h d, (t, i, h, d) ∈
    [("SETV 3, KEY, 60", .setv 0x00#8 3#8 60#32, 0x01000003#32, 0x0000003C#32),
      ("SETV 0, MIDC_FREQ, 12000.0", .setv 0x0C#8 0#8 0x463B8000#32, 0x010C0000#32, 0x463B8000#32),
      ("NOTEON 3, 0, 0", .noteon 0#4 3#8 0#32, 0x02000003#32, 0x00000000#32),
      ("NOTEON 5, 9, 17", .noteon 9#4 5#8 17#32, 0x02009005#32, 0x00000011#32),
      ("SETC 2, PAN, -10", .setc 0x01#8 2#4 (BitVec.ofInt 32 (-10)), 0x06012000#32, 0xFFFFFFF6#32),
      ("SETG SPF, 1", .setg 0x02#8 1#32, 0x07020000#32, 0x00000001#32),
      ("PROCESS 256", .process 256#32, 0x08000000#32, 0x00000100#32),
      ("UPDARGS.CH 4", .updargsCh 4#4, 0x05014000#32, 0x00000000#32),
      ("RDVOICE 3, ISDEAD", .rdvoice 0x01#8 3#8, 0x0C010003#32, 0x00000000#32),
      (("NOP" : String), Instr.nop, (0x00000000#32 : Word), (0x00000000#32 : Word))] →
    assembleText t.toList = some [i] ∧ encode i = (h, d) ∧ decode h d = .ok i

/-! ### The port, the host and reset -/

/-- When the port holds a header and the host's next access writes the data word, and the two decode to a
command, the step is that command run on the state with the port expecting a header again and the access
taken (R80, R281) from the model's own list (log entry 1). -/
def Obligations.StepRunsDecodedCommand : Prop :=
  ∀ (s : State) (h d : Word) (rest : List HostEvent) (i : Instr),
    s.port = .data h → s.input = .port d :: rest → decode h d = .ok i →
      step s = exec i { s with port := .header, input := rest }

/-- The port's one bit of state (R281): a write in phase HEADER latches the header; a write in phase DATA leaves
phase HEADER; the reset event sets HEADER, whatever the port held. -/
def Obligations.PortProtocol : Prop :=
  (∀ (s : State) (w : Word) (rest : List HostEvent), s.port = .header → s.input = .port w :: rest →
    step s = .next { s with port := .data w, input := rest }) ∧
  (∀ (s : State) (h d : Word) (rest : List HostEvent), s.port = .data h → s.input = .port d :: rest →
    step s = runWords h d { s with port := .header, input := rest } ∧
      ∃ t, step s = .next t ∧ t.port = .header ∧ t.input = rest) ∧
  (∀ (s : State) (rest : List HostEvent), s.input = .reset :: rest →
    ∃ t, step s = .next t ∧ t.port = .header ∧ t.input = rest)

/-- Words that are no command set `ERR_ILLEGAL` and do nothing else (R262, R89, R261). -/
def Obligations.IllegalCommandRaises : Prop :=
  ∀ (s : State) (h d : Word) (rest : List HostEvent),
    s.port = .data h → s.input = .port d :: rest → IllegalWords h d →
      step s = .next (errorState 0 { s with port := .header, input := rest })

/-- Between commands the block keeps all its state, however long it waits (R278).  That the host waits is said
by the model's own list of its accesses (log entry 1). -/
def Obligations.IdleKeepsState : Prop :=
  ∀ (s t : State) (k : Nat), s.input = [] → (RunsTo k s t ↔ t = s)

/-- A host write of one element changes the four bytes of that element, byte k to bits 8k+7..8k of the pattern,
and no other; an element that does not exist is a fault, the model's own (log entry 14).  Under a `PLATFORM_MAP` that
is legal (R65) a write to a host address is the write of the resource placed there, a write where only a read-only
register or nothing is placed is a fault of the model's own (log entry 14), and a read of an address gives
`STATUS`, `RESULT` or the element placed there. -/
def Obligations.HostWritesOneElement : Prop :=
  (∀ (s : State) (i : Nat) (v : F32) (rest : List HostEvent), s.memoryWf →
    (s.input = .writeSmp i v :: rest →
      (i < s.cfg.smpWords → ∃ m, step s = .next { s with input := rest, smpMem := m } ∧
        m.readElem i = v ∧ (∀ k, k < 4 → m.readByte (4 * i + k) = v.extractLsb' (8 * k) 8) ∧
        ∀ a, a < 4 * i ∨ 4 * i + 4 ≤ a → m.readByte a = s.smpMem.readByte a) ∧
      (s.cfg.smpWords ≤ i → step s = .fault .noSampleElement)) ∧
    (s.input = .writeOut i v :: rest →
      (i < 2 * s.cfg.blockMax → ∃ m, step s = .next { s with input := rest, outMem := m } ∧
        m.readElem i = v ∧ (∀ k, k < 4 → m.readByte (4 * i + k) = v.extractLsb' (8 * k) 8) ∧
        ∀ a, a < 4 * i ∨ 4 * i + 4 ≤ a → m.readByte a = s.outMem.readByte a) ∧
      (2 * s.cfg.blockMax ≤ i → step s = .fault .noOutputElement))) ∧
  (∀ (s : State) (a : Nat) (w : Word) (rest : List HostEvent), s.cfg.mapLegal → s.input = .store a w :: rest →
    ((a, .port) ∈ s.cfg.platformMap → step s = step { s with input := .port w :: rest }) ∧
    (∀ i, (a, .smp i) ∈ s.cfg.platformMap → step s = step { s with input := .writeSmp i w :: rest }) ∧
    (∀ i, (a, .out i) ∈ s.cfg.platformMap → step s = step { s with input := .writeOut i w :: rest }) ∧
    ((∀ r, (a, r) ∈ s.cfg.platformMap → r = .status ∨ r = .result) → step s = .fault .notWritable)) ∧
  (∀ (s : State) (a : Nat), s.cfg.mapLegal →
    ((a, .status) ∈ s.cfg.platformMap → s.hostLoad a = some s.status) ∧
    ((a, .result) ∈ s.cfg.platformMap → s.hostLoad a = some s.result) ∧
    (∀ i, (a, .smp i) ∈ s.cfg.platformMap → s.hostLoad a = some (s.smpMem.readElem i)) ∧
    (∀ i, (a, .out i) ∈ s.cfg.platformMap → s.hostLoad a = some (s.outMem.readElem i)))

/-- The reset event gives every register the value of R48, and leaves the memories and the configuration. -/
def Obligations.ResetEventRestores : Prop :=
  ∀ (s : State) (rest : List HostEvent), s.input = .reset :: rest →
    ∃ t, step s = .next t ∧ t.atReset ∧ t.cfg = s.cfg ∧ t.input = rest ∧ t.smpMem = s.smpMem ∧
      t.outMem = s.outMem

/-! ### Rules of the whole block -/

/-- Errors are precise and sticky (R261, R269, R27): where a command sets an error bit that was 0, no other
state changes but `ANY_VOICE`'s recomputation, and no second error bit; and no command but CLRSTAT clears one. -/
def Obligations.ErrorsArePreciseAndSticky : Prop :=
  ∀ (i : Instr) (s t : State) (k : Nat), k < 5 → exec i s = .next t →
    (s.status.getLsbD k = false → t.status.getLsbD k = true →
      t = { s with status := t.status } ∧ ∀ j, j ≠ 8 → j ≠ k → t.status.getLsbD j = s.status.getLsbD j) ∧
    (s.status.getLsbD k = true → (∀ m, i ≠ .clrstat m) → t.status.getLsbD k = true)

/-- After every command, legal or not, `ANY_VOICE` is 1 iff some slot is not FREE (R239). -/
def Obligations.AnyVoiceAfterEveryCommand : Prop :=
  ∀ (s t : State) (h d : Word) (rest : List HostEvent), s.port = .data h → s.input = .port d :: rest →
    step s = .next t → (t.status.getLsbD 8 = true ↔ ∃ w ∈ t.voices, w.state ≠ .free)

/-- What a command does to the rest of the state does not depend on `STATUS` (R261: later commands execute
normally whatever `STATUS` holds). -/
def Obligations.StatusInfluencesNothing : Prop :=
  ∀ (i : Instr) (s t : State) (st : Word), exec i s = .next t →
    ∃ u, exec i { s with status := st } = .next u ∧ u = { t with status := u.status }

/-- What each command leaves alone (the access matrix of R45): the configuration, sample memory and the port
are no command's to change; the global and channel registers, the reverbs, the birth fields, the other fields of
a slot, `RESULT` and output memory are changed only by the commands that R45 lets write them. -/
def Obligations.AccessMatrix : Prop :=
  ∀ (i : Instr) (s t : State), exec i s = .next t →
    (t.cfg = s.cfg ∧ t.port = s.port ∧ t.input = s.input ∧ t.smpMem = s.smpMem ∧
      t.voices.length = s.voices.length) ∧
    ((∀ sel d, i ≠ .setg sel d) →
      t.glob.outputGain = s.glob.outputGain ∧ t.glob.sampleRate = s.glob.sampleRate ∧
        t.glob.spf = s.glob.spf ∧ t.glob.bpm = s.glob.bpm) ∧
    ((∀ ch v off, i ≠ .noteon ch v off) → t.glob.seq = s.glob.seq) ∧
    ((∀ sel ch d, i ≠ .setc sel ch d) → ∀ c, (t.chan c).args = (s.chan c).args ∧
      (t.chan c).reverbType = (s.chan c).reverbType ∧
      (t.chan c).reverbIntensity = (s.chan c).reverbIntensity) ∧
    ((∀ sel ch d, i ≠ .setc sel ch d) → (∀ sel d, i ≠ .setg sel d) → (∀ n, i ≠ .process n) →
      t.chans = s.chans) ∧
    ((∀ sel v d, i ≠ .setv sel v d) →
      ∀ j : Nat, t.voices[j]?.map (·.birth) = s.voices[j]?.map (·.birth)) ∧
    ((i = .nop ∨ (∃ sel v d, i = .setv sel v d) ∨ (∃ sel ch d, i = .setc sel ch d) ∨ (∃ sel d, i = .setg sel d) ∨
        (∃ m, i = .clrstat m) ∨ (∃ sel v, i = .rdvoice sel v)) →
      ∀ j : Nat, t.voices[j]?.map (fun w => (w.state, w.ch, w.seq, w.argp, w.arg, w.rt)) =
        s.voices[j]?.map fun w => (w.state, w.ch, w.seq, w.argp, w.arg, w.rt)) ∧
    ((∀ sel v, i ≠ .rdvoice sel v) → t.result = s.result) ∧
    ((∀ n, i ≠ .process n) → ∀ a, t.outMem.readByte a = s.outMem.readByte a)

/-- While a slot is not FREE, no command changes its birth fields, its channel or its birth number (R32). -/
def Obligations.NoteIsFixedWhileItSounds : Prop :=
  ∀ (i : Instr) (s t : State) (j : Nat) (w : Voice), exec i s = .next t → s.voices[j]? = some w →
    w.state ≠ .free → ∃ w', t.voices[j]? = some w' ∧ w'.birth = w.birth ∧ w'.ch = w.ch ∧ w'.seq = w.seq

/-- Whatever words the host writes to the command port, and wherever resets fall, the block never stops (R272:
every command on every encoding has a defined outcome). -/
def Obligations.PortRunsAreSafe : Prop :=
  ∀ (s : State) (k : Nat), (∀ e ∈ s.input, e = .reset ∨ ∃ w, e = .port w) → SafeFor k s

/-! ### Errors of commands -/

/-- SETV and NOTEON on a slot that is not FREE set `ERR_BUSY` (R264), whatever the data (R269). -/
def Obligations.BusySlotErrors : Prop :=
  ∀ (s : State) (v : BitVec 8) (w : Voice) (sel : BitVec 8) (ch : BitVec 4) (d : Word),
    s.voices[v.toNat]? = some w → w.state ≠ .free →
      (sel.toNat < 0x17 → exec (.setv sel v d) s = .next (errorState 2 s)) ∧
      exec (.noteon ch v d) s = .next (errorState 2 s)

/-- `ERR_NOVOICE` (R265): six commands on a slot number that does not exist, three on a FREE slot; NOTEOFF with
no matching voice and UPDARGS of a channel with no voice are no-ops. -/
def Obligations.NoVoiceErrors : Prop :=
  (∀ (s : State) (v sel : BitVec 8) (ch : BitVec 4) (d : Word), s.slotsWf → s.cfg.numVoices ≤ v.toNat →
    (sel.toNat < 0x17 → exec (.setv sel v d) s = .next (errorState 3 s)) ∧
    exec (.noteon ch v d) s = .next (errorState 3 s) ∧ exec (.release v) s = .next (errorState 3 s) ∧
    exec (.kill v) s = .next (errorState 3 s) ∧ exec (.updargs v) s = .next (errorState 3 s) ∧
    (sel.toNat < 0x0A → exec (.rdvoice sel v) s = .next (errorState 3 s))) ∧
  (∀ (s : State) (v : BitVec 8) (w : Voice), s.voices[v.toNat]? = some w → w.state = .free →
    exec (.release v) s = .next (errorState 3 s) ∧ exec (.kill v) s = .next (errorState 3 s) ∧
    exec (.updargs v) s = .next (errorState 3 s)) ∧
  (∀ (s : State) (ch : BitVec 4) (key : Word), s.statusWf →
    (∀ w ∈ s.voices, w.state.live = true → w.ch = ch → w.birth.key.toNat = min key.toNat 127 →
      w.rt.released = true) → exec (.noteoff ch key) s = .next s) ∧
  (∀ (s : State) (ch : BitVec 4), s.statusWf → (∀ w ∈ s.voices, w.state.live = true → w.ch ≠ ch) →
    exec (.updargsCh ch) s = .next s)

/-- `ERR_RANGE` (R263): every cause of it, and that numeric fields never raise it. -/
def Obligations.RangeErrors : Prop :=
  (∀ (s : State) (v : BitVec 8) (w : Voice) (d : Word), s.voices[v.toNat]? = some w → w.state = .free →
    (6 < d.toNat → exec (.setv 0x0A#8 v d) s = .next (errorState 1 s)) ∧
    (1 < d.toNat → exec (.setv 0x0B#8 v d) s = .next (errorState 1 s)) ∧
    (¬ f32Positive d → exec (.setv 0x0C#8 v d) s = .next (errorState 1 s)) ∧
    (3 < d.toNat → exec (.setv 0x0D#8 v d) s = .next (errorState 1 s)) ∧
    (0xFF < d.toNat → exec (.setv 0x0E#8 v d) s = .next (errorState 1 s)) ∧
    (1 < d.toNat → exec (.setv 0x14#8 v d) s = .next (errorState 1 s)) ∧
    (d ≠ 1#32 → d ≠ 2#32 → exec (.setv 0x16#8 v d) s = .next (errorState 1 s)) ∧
    (∀ sel ∈ [0x00#8, 0x01#8, 0x02#8, 0x03#8, 0x04#8, 0x05#8, 0x06#8, 0x07#8, 0x08#8, 0x09#8, 0x0F#8, 0x10#8,
        0x11#8, 0x12#8, 0x13#8, 0x15#8], ∃ b, exec (.setv sel v d) s = birthAnswer s v w b) ∧
    (∀ ch, w.birth.dspType = .pcm ∨ w.birth.dspType = .pcmFixed → ¬ RegionInside s.cfg w.birth →
      exec (.noteon ch v d) s = .next (errorState 1 s))) ∧
  (∀ (s : State) (ch : BitVec 4) (d : Word),
    (3 < d.toNat → exec (.setc 0x07#8 ch d) s = .next (errorState 1 s)) ∧
    (∀ sel ∈ [0x00#8, 0x01#8, 0x02#8, 0x03#8, 0x04#8, 0x05#8, 0x06#8, 0x08#8],
      ∃ c, exec (.setc sel ch d) s = chanAnswer s ch c) ∧
    (¬ f32Finite d → exec (.setg 0x00#8 d) s = .next (errorState 1 s)) ∧
    (¬ f32NonNegative d → exec (.setg 0x03#8 d) s = .next (errorState 1 s)) ∧
    (d.toNat = 0 ∨ s.cfg.blockMax < d.toNat → exec (.process d) s = .next (errorState 1 s)) ∧
    (0x1F < d.toNat → exec (.clrstat d) s = .next (errorState 1 s))) ∧
  (∀ (s : State) (d : Word), (∀ w ∈ s.voices, w.state = .free) →
    (¬ f32Positive d → exec (.setg 0x01#8 d) s = .next (errorState 1 s)) ∧
    (d.toNat = 0 ∨ 65535 < d.toNat → exec (.setg 0x02#8 d) s = .next (errorState 1 s)))

/-- SETG of `SAMPLE_RATE` or `SPF` while any slot is not FREE sets `ERR_STATE`, whatever the data (R266,
R269). -/
def Obligations.StateErrors : Prop :=
  ∀ (s : State) (w : Voice) (d : Word), w ∈ s.voices → w.state ≠ .free →
    exec (.setg 0x01#8 d) s = .next (errorState 4 s) ∧ exec (.setg 0x02#8 d) s = .next (errorState 4 s)

/-! ### The commands one by one -/

/-- NOP leaves every state unchanged where `ANY_VOICE` is right, as it is after every command; its encoding is
the pair of zero words only, and any other words with its opcode set `ERR_ILLEGAL` (R248). -/
def Obligations.NopChangesNothing : Prop :=
  (∀ s : State, exec .nop s = .next { s with status := statusFor s.status s.voices }) ∧
  (∀ s : State, s.statusWf → exec .nop s = .next s) ∧
  (∀ h d : Word, decode h d = .ok .nop ↔ h = 0#32 ∧ d = 0#32) ∧
  (∀ (h d : Word) (s : State), headerOp h = 0x00#8 → h ≠ 0#32 ∨ d ≠ 0#32 →
    runWords h d s = .next (errorState 0 s))

/-- SETV of a numeric field on a FREE slot stores the data clamped to the field's range, and changes nothing
else (R140, R33, R82). -/
def Obligations.SetvStoresNumbers : Prop :=
  ∀ (s : State) (v : BitVec 8) (w : Voice) (d : Word), s.voices[v.toNat]? = some w → w.state = .free →
    exec (.setv 0x00#8 v d) s =
      birthAnswer s v w { w.birth with key := BitVec.ofNat 7 (min d.toNat 127) } ∧
    exec (.setv 0x01#8 v d) s =
      birthAnswer s v w { w.birth with velocity := BitVec.ofNat 7 (min d.toNat 127) } ∧
    exec (.setv 0x02#8 v d) s =
      birthAnswer s v w { w.birth with panOffset := BitVec.ofInt 7 (min (max d.toInt (-64)) 63) } ∧
    exec (.setv 0x03#8 v d) s =
      birthAnswer s v w { w.birth with echoVol := BitVec.ofNat 8 (min d.toNat 255) } ∧
    exec (.setv 0x04#8 v d) s =
      birthAnswer s v w { w.birth with echoLen := BitVec.ofNat 8 (min d.toNat 255) } ∧
    exec (.setv 0x05#8 v d) s =
      birthAnswer s v w { w.birth with track := BitVec.ofNat 8 (min d.toNat 255) } ∧
    exec (.setv 0x06#8 v d) s =
      birthAnswer s v w { w.birth with att := BitVec.ofNat 8 (min d.toNat 255) } ∧
    exec (.setv 0x07#8 v d) s =
      birthAnswer s v w { w.birth with dec := BitVec.ofNat 8 (min d.toNat 255) } ∧
    exec (.setv 0x08#8 v d) s =
      birthAnswer s v w { w.birth with sus := BitVec.ofNat 8 (min d.toNat 255) } ∧
    exec (.setv 0x09#8 v d) s =
      birthAnswer s v w { w.birth with rel := BitVec.ofNat 8 (min d.toNat 255) } ∧
    exec (.setv 0x0F#8 v d) s = birthAnswer s v w { w.birth with pwmBase := d } ∧
    exec (.setv 0x10#8 v d) s = birthAnswer s v w { w.birth with pwmStep := d } ∧
    exec (.setv 0x11#8 v d) s =
      birthAnswer s v w { w.birth with pwmDepth := BitVec.ofNat 9 (min d.toNat 256) } ∧
    exec (.setv 0x12#8 v d) s = birthAnswer s v w { w.birth with smpBase := d } ∧
    exec (.setv 0x13#8 v d) s = birthAnswer s v w { w.birth with smpEnd := d } ∧
    exec (.setv 0x15#8 v d) s = birthAnswer s v w { w.birth with smpLoopPos := d }

/-- SETV of an enumeration, the bit pattern `SWEEP` or the frequency `MIDC_FREQ` on a FREE slot stores a legal
value, and changes nothing else (R140, R33, R82). -/
def Obligations.SetvStoresLegalValues : Prop :=
  ∀ (s : State) (v : BitVec 8) (w : Voice), s.voices[v.toNat]? = some w → w.state = .free →
    (∀ n x, (n, x) ∈ [(0#32, DspType.none), (1#32, .pcm), (2#32, .pcmFixed), (3#32, .pulse), (4#32, .saw),
        (5#32, .triangle), (6#32, .square)] →
      exec (.setv 0x0A#8 v n) s = birthAnswer s v w { w.birth with dspType := x }) ∧
    (∀ x : Bool, exec (.setv 0x0B#8 v (if x then 1#32 else 0#32)) s =
      birthAnswer s v w { w.birth with stairstep := x }) ∧
    (∀ d, f32Positive d →
      exec (.setv 0x0C#8 v d) s = birthAnswer s v w { w.birth with midcFreq := F64.ofF32 d }) ∧
    (∀ x : BitVec 2, exec (.setv 0x0D#8 v (x.setWidth 32)) s =
      birthAnswer s v w { w.birth with duty := x }) ∧
    (∀ x : BitVec 8, exec (.setv 0x0E#8 v (x.setWidth 32)) s =
      birthAnswer s v w { w.birth with sweep := x }) ∧
    (∀ x : Bool, exec (.setv 0x14#8 v (if x then 1#32 else 0#32)) s =
      birthAnswer s v w { w.birth with smpLoopEn := x }) ∧
    exec (.setv 0x16#8 v 1#32) s = birthAnswer s v w { w.birth with smpChannels := .mono } ∧
    exec (.setv 0x16#8 v 2#32) s = birthAnswer s v w { w.birth with smpChannels := .stereo }

/-- NOTEON (R141): busy; no generator, no voice and no error; a bad region; otherwise a voice in INIT with the
birth fields kept, the channel's arguments in both copies, the birth number taken, every runtime field at its
NOTEON value and `DELAY` the offset. -/
def Obligations.NoteonRule : Prop :=
  ∀ (s : State) (ch : BitVec 4) (v : BitVec 8) (off : Word) (w : Voice), s.voices[v.toNat]? = some w →
    (w.state ≠ .free → exec (.noteon ch v off) s = .next (errorState 2 s)) ∧
    (w.state = .free → w.birth.dspType = .none →
      exec (.noteon ch v off) s = .next { s with status := statusFor s.status s.voices }) ∧
    (w.state = .free → w.birth.dspType = .pcm ∨ w.birth.dspType = .pcmFixed →
      ¬ RegionInside s.cfg w.birth → exec (.noteon ch v off) s = .next (errorState 1 s)) ∧
    (w.state = .free → w.birth.dspType ≠ .none →
      (w.birth.dspType = .pcm ∨ w.birth.dspType = .pcmFixed → RegionInside s.cfg w.birth) →
      s.glob.seq.toNat + 1 < 2 ^ 64 →
      exec (.noteon ch v off) s =
        .next { s with
          glob := { s.glob with seq := s.glob.seq + 1#64 }
          status := s.status ||| 0x00000100#32
          voices := s.voices.set v.toNat
            { state := .init, ch := ch, seq := s.glob.seq, birth := w.birth
              argp := (s.chan ch).args, arg := (s.chan ch).args
              rt := { level := 0#8, released := false, echoCnt := 0#8, delay := off, subcnt := 0#16,
                      subidx := 0#2, wprevL := 0, wprevR := 0, wcurL := 0, wcurR := 0, freq := F64.zero,
                      lfoPhase := 0#8, bpmAcc := F64.zero, sweepOn := false, timer := 0, pwmAcc := 0#32,
                      thrPrev := 0#32, thrCur := 0#32, phase := 0#32, phaseInc := 0#32, rdpos := 0#32,
                      srcEnd := false, rbuf := [], ridx := 0#64, rphase := F64.zero,
                      rinc := F64.zero } } })

/-- RELEASE (R142) sets `RELEASED` of a slot that is not FREE and changes nothing else; a FREE slot is
`ERR_NOVOICE`. -/
def Obligations.ReleaseRule : Prop :=
  ∀ (s : State) (v : BitVec 8) (w : Voice), s.voices[v.toNat]? = some w →
    (w.state ≠ .free →
      exec (.release v) s = slotAnswer s v { w with rt := { w.rt with released := true } }) ∧
    (w.state = .free → exec (.release v) s = .next (errorState 3 s))

/-- KILL (R144) makes a slot that is not FREE DEAD with level 0 and changes nothing else; a FREE slot is
`ERR_NOVOICE`. -/
def Obligations.KillRule : Prop :=
  ∀ (s : State) (v : BitVec 8) (w : Voice), s.voices[v.toNat]? = some w →
    (w.state ≠ .free →
      exec (.kill v) s = slotAnswer s v { w with state := .dead, rt := { w.rt with level := 0#8 } }) ∧
    (w.state = .free → exec (.kill v) s = .next (errorState 3 s))

/-- UPDARGS (R143): of one slot, the arguments of its channel become its pending arguments, and a FREE slot is
`ERR_NOVOICE`; of a channel, the same for every live slot of the channel and no other slot. -/
def Obligations.UpdargsRule : Prop :=
  (∀ (s : State) (v : BitVec 8) (w : Voice), s.voices[v.toNat]? = some w →
    (w.state ≠ .free → exec (.updargs v) s = slotAnswer s v { w with argp := (s.chan w.ch).args }) ∧
    (w.state = .free → exec (.updargs v) s = .next (errorState 3 s))) ∧
  (∀ (s : State) (c : BitVec 4), ∃ vs,
    exec (.updargsCh c) s = .next { s with voices := vs, status := statusFor s.status s.voices } ∧
    ∀ j : Nat, vs[j]? = s.voices[j]?.map fun u =>
      if u.state.live = true ∧ u.ch = c then { u with argp := (s.chan c).args } else u)

/-- RDVOICE (R145): `RESULT` becomes the item of the slot, FREE or not, and nothing else changes.  An item that 32 bits
do not hold, a sweep timer under a `TIMER_MAX` of 2^32 or more, leaves any value (log entry 29). -/
def Obligations.RdvoiceRule : Prop :=
  ∀ (s : State) (v : BitVec 8) (w : Voice), s.voices[v.toNat]? = some w →
    ∀ sel x, (sel, x) ∈
      [(0x00#8, match w.state with
          | .free => 0 | .init => 1 | .atk => 2 | .dec => 3 | .sus => 4 | .rel => 5 | .pseudoEcho => 6
          | .die => 7 | .dead => 8),
        (0x01#8, if w.state = .dead then 1 else 0), (0x02#8, w.rt.level.toNat), (0x03#8, w.rt.timer),
        (0x04#8, if w.rt.sweepOn then 1 else 0), (0x05#8, if w.rt.released then 1 else 0),
        (0x06#8, w.ch.toNat), (0x07#8, w.birth.key.toNat), (0x08#8, w.rt.echoCnt.toNat),
        (0x09#8, w.rt.lfoPhase.toNat)] →
      ∃ r, exec (.rdvoice sel v) s =
        .next { s with result := r, status := statusFor s.status s.voices } ∧ (x < 2 ^ 32 → r.toNat = x)

/-- SETC (R244): a numeric register stores the data clamped; `REVERB_TYPE` stores a legal type and initialises
the channel's reverb state (R219), and an illegal one is `ERR_RANGE`; nothing else changes. -/
def Obligations.SetcRule : Prop :=
  ∀ (s : State) (ch : BitVec 4) (d : Word),
    let c := s.chan ch
    exec (.setc 0x00#8 ch d) s =
      chanAnswer s ch { c with args := { c.args with volume := BitVec.ofNat 7 (min d.toNat 127) } } ∧
    exec (.setc 0x01#8 ch d) s =
      chanAnswer s ch
        { c with args := { c.args with pan := BitVec.ofInt 7 (min (max d.toInt (-64)) 63) } } ∧
    exec (.setc 0x02#8 ch d) s =
      chanAnswer s ch
        { c with args := { c.args with tune := BitVec.ofInt 16 (min (max d.toInt (-32768)) 32767) } } ∧
    exec (.setc 0x03#8 ch d) s =
      chanAnswer s ch
        { c with args := { c.args with pitchWheel := BitVec.ofInt 7 (min (max d.toInt (-64)) 63) } } ∧
    exec (.setc 0x04#8 ch d) s =
      chanAnswer s ch { c with args := { c.args with bendRange := BitVec.ofNat 7 (min d.toNat 127) } } ∧
    exec (.setc 0x05#8 ch d) s =
      chanAnswer s ch { c with args := { c.args with lfoSpeed := BitVec.ofNat 8 (min d.toNat 255) } } ∧
    exec (.setc 0x06#8 ch d) s =
      chanAnswer s ch { c with args := { c.args with lfoDepth := BitVec.ofNat 7 (min d.toNat 127) } } ∧
    exec (.setc 0x08#8 ch d) s =
      chanAnswer s ch { c with reverbIntensity := BitVec.ofNat 7 (min d.toNat 127) } ∧
    (∀ n x, (n, x) ∈ [(0#32, ReverbType.off), (1#32, .base)] → exec (.setc 0x07#8 ch n) s =
      chanAnswer s ch
        { c with reverbType := x, ring0 := [], ring1 := [], ring2 := [], cur0 := 0, cur1 := 0, cur2 := 0 }) ∧
    (∀ n x, (n, x) ∈ [(2#32, Variant.A), (3#32, .B)] → exec (.setc 0x07#8 ch n) s =
      chanAnswer s ch
        { c with
          reverbType := .variant x, ring0 := [], ring1 := [], ring2 := [], cur0 := 0
          cur1 := (Config.revInit1 x % (revLen1 x s.cfg s.glob : Int)).toNat
          cur2 := (Config.revInit2 x % (revLen2 x s.cfg s.glob : Int)).toNat }) ∧
    (3 < d.toNat → exec (.setc 0x07#8 ch d) s = .next (errorState 1 s))

/-- SETG (R245, R246): each register stores a legal value and nothing else changes; a write that changes `SPF`
also initialises the reverb state of every channel with the new ring length. -/
def Obligations.SetgStoresLegalValues : Prop :=
  (∀ (s : State) (d : Word),
    (f32Finite d → exec (.setg 0x00#8 d) s = globAnswer s { s.glob with outputGain := F64.ofF32 d }) ∧
    (f32NonNegative d → exec (.setg 0x03#8 d) s = globAnswer s { s.glob with bpm := F64.ofF32 d })) ∧
  (∀ (s : State) (d : Word), (∀ w ∈ s.voices, w.state = .free) →
    (f32Positive d → exec (.setg 0x01#8 d) s = globAnswer s { s.glob with sampleRate := F64.ofF32 d }) ∧
    (1 ≤ d.toNat → d.toNat ≤ 65535 →
      (s.glob.spf.toNat = d.toNat →
        exec (.setg 0x02#8 d) s = .next { s with status := statusFor s.status s.voices }) ∧
      (s.glob.spf.toNat ≠ d.toNat → ∃ t, exec (.setg 0x02#8 d) s = .next t ∧
        t = { s with
          glob := { s.glob with spf := d.setWidth 16 }
          chans := t.chans
          status := statusFor s.status s.voices } ∧
        ∀ c, t.chan c =
          { s.chan c with
            ring0 := [], ring1 := [], ring2 := [], cur0 := 0
            cur1 := match (s.chan c).reverbType with
              | .variant x => (Config.revInit1 x % (revLen1 x s.cfg t.glob : Int)).toNat
              | _ => 0
            cur2 := match (s.chan c).reverbType with
              | .variant x => (Config.revInit2 x % (revLen2 x s.cfg t.glob : Int)).toNat
              | _ => 0 })))

/-- CLRSTAT (R247): a mask of at most 0x1F clears the error bits it names and no other bit; a greater one sets
`ERR_RANGE` and clears nothing. -/
def Obligations.ClrstatRule : Prop :=
  ∀ (s : State) (m : Word),
    (m.toNat ≤ 0x1F → exec (.clrstat m) s =
      .next { s with status := statusFor (s.status &&& ~~~m) s.voices }) ∧
    (0x1F < m.toNat → exec (.clrstat m) s = .next (errorState 1 s))

/-- NOTEOFF (R240): among the live unreleased voices of the channel and key it releases the one with the
smallest birth number, and nothing else changes; with none it does nothing. -/
def Obligations.NoteoffRule : Prop :=
  ∀ (s : State) (ch : BitVec 4) (key : Word),
    let cand := fun w : Voice => w.state.live = true ∧ w.ch = ch ∧ w.birth.key.toNat = min key.toNat 127 ∧
      w.rt.released = false
    ((∀ w ∈ s.voices, ¬ cand w) →
      exec (.noteoff ch key) s = .next { s with status := statusFor s.status s.voices }) ∧
    (∀ (j : Nat) (w : Voice), s.voices[j]? = some w → cand w →
      (∀ (k : Nat) (u : Voice), s.voices[k]? = some u → cand u → k ≠ j → w.seq.toNat < u.seq.toNat) →
      exec (.noteoff ch key) s =
        .next { s with
          voices := s.voices.set j { w with rt := { w.rt with released := true } }
          status := statusFor s.status s.voices })

/-- ALLOFF (R241): every slot that is not FREE becomes DEAD with level 0, and nothing else changes. -/
def Obligations.AlloffRule : Prop :=
  ∀ s : State, ∃ vs,
    exec .alloff s = .next { s with voices := vs, status := statusFor s.status s.voices } ∧
    ∀ j : Nat, vs[j]? = s.voices[j]?.map fun w =>
      if w.state = .free then w else { w with state := .dead, rt := { w.rt with level := 0#8 } }

/-! ### PROCESS -/

/-- A PROCESS of a legal count completes, and changes only the slots' runtime fields, the channels' reverb state
and buffers, the output elements 0..2n-1, `ANY_VOICE` and the model's own `freeTag`; no slot is DEAD after it,
no FREE slot is touched (R230, R236, R238).  Channel by channel in the order 0..15 the voices of the state before are
added up in slot order, the reverb runs over the sum, the buffer holds the result, and it is mixed into output
memory, which was that of the state before for channel 0 (R230-R235). -/
def Obligations.ProcessCompletes : Prop :=
  ∀ (s : State) (n : Word), 1 ≤ n.toNat → n.toNat ≤ s.cfg.blockMax →
    ∃ t, exec (.process n) s = .next t ∧
      t = { s with
        voices := t.voices, chans := t.chans, outMem := t.outMem, freeTag := s.freeTag + 1
        status := statusFor s.status t.voices } ∧
      (∀ c, (t.chan c).args = (s.chan c).args ∧ (t.chan c).reverbType = (s.chan c).reverbType ∧
        (t.chan c).reverbIntensity = (s.chan c).reverbIntensity) ∧
      (∀ c, t.chan c = { (wetBlock s n.toNat c).1 with
        acc := (s.chan c).acc.putFrom 0 (wetBlock s n.toNat c).2 }) ∧
      t.outMem = (List.range 16).foldl
        (fun m c => mixBlock s.freeTag c 0 m (wetBlock s n.toNat (BitVec.ofNat 4 c)).2) s.outMem ∧
      (∀ c, (wetBlock s n.toNat c).2.length = n.toNat) ∧
      (∀ a, 8 * n.toNat ≤ a → t.outMem.readByte a = s.outMem.readByte a) ∧
      t.voices.length = s.voices.length ∧
      ∀ (j : Nat) (w : Voice), s.voices[j]? = some w → ∃ w', t.voices[j]? = some w' ∧
        w'.state ≠ .dead ∧ w'.birth = w.birth ∧ w'.ch = w.ch ∧ w'.seq = w.seq ∧ w'.argp = w.argp ∧
        w'.rt.released = w.rt.released ∧ (w.state = .free → w' = w) ∧
        (w.state = .dead → w' = { w with state := .free })

/-- What a slot becomes in a PROCESS depends on nothing but itself and what rendering reads: not on the other
slots, nor on what its channel's buffer holds (R232, R238). -/
def Obligations.SlotsRenderAlone : Prop :=
  ∀ (s t : State) (n : Word) (j : Nat) (w : Voice), exec (.process n) s = .next t → 1 ≤ n.toNat →
    n.toNat ≤ s.cfg.blockMax → s.voices[j]? = some w → w.state ≠ .free →
      ∀ acc : List Stereo, acc.length = n.toNat →
        t.voices[j]? = some (reclaimSlot (renderVoice s.env j n.toNat w acc).1)

/-- The start offset (R233): a voice whose `DELAY` reaches past the block renders nothing in it and keeps the
rest of the offset; one whose `DELAY` falls inside it renders nothing before that sample and starts there.  From
there on each sample is that of R102 added to the channel's buffer, until the voice is DEAD, when the rest of the
block is silent (R232). -/
def Obligations.StartOffsetRule : Prop :=
  (∀ (e : Env) (slot n j : Nat) (fresh : Bool) (v : Voice) (acc : List Stereo), v.state = .dead →
    renderFrom e slot n fresh j v acc = (v, acc)) ∧
  (∀ (e : Env) (slot n j : Nat) (fresh : Bool) (v : Voice) (a : Stereo) (rest : List Stereo),
    v.state ≠ .dead → v.rt.delay = 0#32 →
      let y := voiceSample e slot fresh j n v
      let r := renderFrom e slot n false (j + 1) y.1 rest
      renderFrom e slot n fresh j v (a :: rest) = (r.1, ⟨F64.add a.l y.2.l, F64.add a.r y.2.r⟩ :: r.2)) ∧
  ∀ (e : Env) (slot : Nat) (v : Voice), v.state ≠ .dead →
    (∀ acc : List Stereo, acc.length ≤ v.rt.delay.toNat →
      renderVoice e slot acc.length v acc =
        ({ v with rt := { v.rt with delay := v.rt.delay - BitVec.ofNat 32 acc.length } }, acc)) ∧
    (∀ before after : List Stereo, before.length = v.rt.delay.toNat →
      let r := renderFrom e slot (before ++ after).length true before.length
        { v with rt := { v.rt with delay := 0#32 } } after
      renderVoice e slot (before ++ after).length v (before ++ after) = (r.1, before ++ r.2))

/-- The mix of a block (R235, R236): the left and right values of sample j are added to elements 2j and 2j+1 of
output memory with one rounding to f32 each, a sum that is NaN gives a NaN (of what pattern is free, log entry
9), and no other byte changes; the list that holds the memory keeps its canonical form, the model's choice (log
entry 22). -/
def Obligations.MixAddsToOutput : Prop :=
  ∀ (tag c words : Nat) (m : Memory) (ys : List Stereo), m.wf words = true → 2 * ys.length ≤ words →
    (∀ (j : Nat) (y : Stereo), ys[j]? = some y →
      let l := F64.add (F64.ofF32 (m.readElem (2 * j))) y.l
      let r := F64.add (F64.ofF32 (m.readElem (2 * j + 1))) y.r
      (l.isNaN = false → (mixBlock tag c 0 m ys).readElem (2 * j) = l.toF32) ∧
      (l.isNaN = true → 0x7F800000 < ((mixBlock tag c 0 m ys).readElem (2 * j)).toNat % 2 ^ 31) ∧
      (r.isNaN = false → (mixBlock tag c 0 m ys).readElem (2 * j + 1) = r.toF32) ∧
      (r.isNaN = true → 0x7F800000 < ((mixBlock tag c 0 m ys).readElem (2 * j + 1)).toNat % 2 ^ 31)) ∧
    (∀ a, 8 * ys.length ≤ a → (mixBlock tag c 0 m ys).readByte a = m.readByte a) ∧
    (mixBlock tag c 0 m ys).wf words = true

/-- The frame grid and the end of a stream (R101, R102, R200): a sample that is rendered advances the counters
by one, the last of a sub-frame to the next sub-frame, and one that is not rendered does not; after the last
sample of a chunk a voice whose stream has ended is DEAD with level 0, and after any other sample its state is
the one its frame step left.  The frame step runs at the first sample of a frame (R102, R103).  The output of a
sample that is not rendered is (0.0, 0.0); that of another is the generator's pair times the gains (R102, R132), with
the weights ramped from the previous to the current ones by sub-frame and sample, or the current ones at once in
stairstep mode (R131). -/
def Obligations.RenderedSampleAdvances : Prop :=
  ∀ (e : Env) (slot j n : Nat) (fresh : Bool) (v : Voice),
    let w := (voiceSample e slot fresh j n v).1
    let chunkEnds := w.rt.subcnt = 0#16 ∨ j + 1 = n
    let u := frameStepIfDue e v
    let ramp := fun wprev wcur : Nat =>
      let at4 := fun k : Nat => F64.lerp (F64.ofNat wprev) (F64.ofNat wcur) (F64.div (F64.ofNat k) (F64.ofInt 4))
      if u.birth.stairstep = true then F64.ofNat wcur
      else F64.lerp (at4 u.rt.subidx.toNat) (at4 (u.rt.subidx.toNat + 1))
        (F64.div (F64.ofNat u.rt.subcnt.toNat) (F64.ofNat e.glob.spf.toNat))
    let gain := fun wprev wcur : Nat => F64.mul (F64.div (ramp wprev wcur) (F64.ofInt 32640)) e.glob.outputGain
    let chunk := if fresh = true ∨ u.rt.subcnt = 0#16 then some (min (e.glob.spf.toNat - u.rt.subcnt.toNat) (n - j))
      else none
    let x := (genSample e chunk u).2
    (v.rt.subcnt = 0#16 ∧ v.rt.subidx = 0#2 → u = frameStep e v) ∧
    (¬ (v.rt.subcnt = 0#16 ∧ v.rt.subidx = 0#2) → u = v) ∧
    (u.state = .dead → (voiceSample e slot fresh j n v).2 = ⟨F64.zero, F64.zero⟩) ∧
    (u.state ≠ .dead → (voiceSample e slot fresh j n v).2 =
      ⟨F64.mul x.l (gain u.rt.wprevL u.rt.wcurL), F64.mul x.r (gain u.rt.wprevR u.rt.wcurR)⟩) ∧
    (v.rt.subcnt.toNat < e.glob.spf.toNat →
    ((frameStepIfDue e v).state = .dead → w.state = .dead ∧ w.rt.subcnt = v.rt.subcnt ∧
      w.rt.subidx = v.rt.subidx) ∧
    ((frameStepIfDue e v).state ≠ .dead →
      (v.rt.subcnt.toNat + 1 < e.glob.spf.toNat →
        w.rt.subcnt.toNat = v.rt.subcnt.toNat + 1 ∧ w.rt.subidx = v.rt.subidx) ∧
      (v.rt.subcnt.toNat + 1 = e.glob.spf.toNat → w.rt.subcnt = 0#16 ∧ w.rt.subidx = v.rt.subidx + 1#2) ∧
      (chunkEnds ∧ w.rt.srcEnd = true → w.state = .dead ∧ w.rt.level = 0#8) ∧
      (¬ (chunkEnds ∧ w.rt.srcEnd = true) → w.state = (frameStepIfDue e v).state)))

/-- The weights of a frame step that leaves the voice not DEAD (R130, R103, R104): from the arguments that were
pending, with a linear cross-fade; the previous weights are those of the step before, or the attack's seed at
the first step.  Every frame step makes one step of the envelope, and one that leaves the voice not DEAD computes the
frequency from the new arguments and then updates the generator (R103). -/
def Obligations.FrameStepWeights : Prop :=
  ∀ (e : Env) (v : Voice),
    let w := frameStep e v
    let p : Int := min (max (v.argp.pan.toInt + v.birth.panOffset.toInt) (-64)) 63
    let gain : Int := v.birth.velocity.toNat * v.argp.volume.toNat
    let volL : Nat := (gain * (64 - p) / 16384).toNat
    let volR : Nat := (gain * (64 + p) / 16384).toNat
    let seed := if v.birth.att = 0xFF#8 then 255 else 0
    let a : Voice := { v with arg := v.argp }
    let g := genFrame e (v.state == .init) { a with rt := { v.rt with freq := pitchFreq a } }
    w.arg = v.argp ∧ volL ≤ 126 ∧ volR ≤ 126 ∧
    w.state = (envStep v).state ∧ w.rt.level = (envStep v).rt.level ∧ w.rt.echoCnt = (envStep v).rt.echoCnt ∧
    (w.state ≠ .dead → w.rt.freq = pitchFreq a ∧ w.rt.sweepOn = g.rt.sweepOn ∧ w.rt.timer = g.rt.timer ∧
      w.rt.pwmAcc = g.rt.pwmAcc ∧ w.rt.thrPrev = g.rt.thrPrev ∧ w.rt.thrCur = g.rt.thrCur ∧
      w.rt.phaseInc = g.rt.phaseInc ∧ w.rt.rinc = g.rt.rinc) ∧
    (w.state ≠ .dead → w.rt.wcurL = w.rt.level.toNat * volL ∧ w.rt.wcurR = w.rt.level.toNat * volR ∧
      (v.state = .init → w.rt.wprevL = seed * volL ∧ w.rt.wprevR = seed * volR) ∧
      (v.state ≠ .init → w.rt.wprevL = v.rt.wcurL ∧ w.rt.wprevR = v.rt.wcurR)) ∧
    (w.state = .dead → w.rt.wprevL = v.rt.wcurL ∧ w.rt.wprevR = v.rt.wcurR ∧ w.rt.wcurL = 0 ∧
      w.rt.wcurR = 0)

/-! ### Envelope -/

/-- INIT and ATK (R111, R113): a voice released before its first step dies; another attacks in that same step
from level 0; the level rises by the attack rate and at 255 the voice enters DEC. -/
def Obligations.EnvelopeAttack : Prop :=
  ∀ v : Voice,
    (v.state = .init → v.rt.released = true →
      envStep v = { v with state := .dead, rt := { v.rt with level := 0#8 } }) ∧
    (v.state = .init → v.rt.released = false →
      envStep v =
        { v with
          state := if v.birth.att = 255#8 then .dec else .atk
          rt := { v.rt with level := v.birth.att } }) ∧
    (v.state = .atk → v.rt.released = false →
      let level := min (v.rt.level.toNat + v.birth.att.toNat) 255
      envStep v =
        { v with
          state := if level = 255 then .dec else .atk
          rt := { v.rt with level := BitVec.ofNat 8 level } })

/-- DEC (R114): the level is scaled by the decay rate; at or below the sustain level the voice holds at it, or,
where that is 0, meets the release threshold in the same frame. -/
def Obligations.EnvelopeDecay : Prop :=
  ∀ v : Voice, v.state = .dec → v.rt.released = false →
    let level := v.rt.level.toNat * v.birth.dec.toNat / 256
    (v.birth.sus.toNat < level →
      envStep v = { v with rt := { v.rt with level := BitVec.ofNat 8 level } }) ∧
    (level ≤ v.birth.sus.toNat → v.birth.sus ≠ 0#8 →
      envStep v = { v with state := .sus, rt := { v.rt with level := v.birth.sus } }) ∧
    (level ≤ v.birth.sus.toNat → v.birth.sus = 0#8 →
      (v.birth.echoVol ≠ 0#8 ∧ v.birth.echoLen ≠ 0#8 →
        envStep v =
          { v with
            state := .pseudoEcho
            rt := { v.rt with level := v.birth.echoVol, echoCnt := v.birth.echoLen } }) ∧
      (v.birth.echoVol = 0#8 ∨ v.birth.echoLen = 0#8 →
        envStep v = { v with state := .die, rt := { v.rt with level := 0#8 } }))

/-- REL (R116) and the release entry (R112): a voice in REL, or released in ATK, DEC or SUS, has its level
scaled by the release rate; at or below the echo volume it enters PSEUDO_ECHO where echo volume and length are
both nonzero, and otherwise DIE. -/
def Obligations.EnvelopeRelease : Prop :=
  ∀ v : Voice, v.state = .rel ∨ (v.rt.released = true ∧ (v.state = .atk ∨ v.state = .dec ∨ v.state = .sus)) →
    let level := v.rt.level.toNat * v.birth.rel.toNat / 256
    (v.birth.echoVol.toNat < level →
      envStep v = { v with state := .rel, rt := { v.rt with level := BitVec.ofNat 8 level } }) ∧
    (level ≤ v.birth.echoVol.toNat → v.birth.echoVol ≠ 0#8 → v.birth.echoLen ≠ 0#8 →
      envStep v =
        { v with
          state := .pseudoEcho
          rt := { v.rt with level := v.birth.echoVol, echoCnt := v.birth.echoLen } }) ∧
    (level ≤ v.birth.echoVol.toNat → v.birth.echoVol = 0#8 ∨ v.birth.echoLen = 0#8 →
      envStep v = { v with state := .die, rt := { v.rt with level := 0#8 } })

/-- PSEUDO_ECHO (R117), DIE (R118), DEAD (R119) and an unreleased SUS (R115): the echo holds its level, counting
down, and the step that brings the count to 0, the `ECHO_CNT`-th, sets DIE with level 0; DIE becomes DEAD in one
step; SUS and DEAD change nothing. -/
def Obligations.EnvelopeTail : Prop :=
  ∀ v : Voice,
    (v.state = .pseudoEcho → v.rt.echoCnt ≠ 0#8 →
      (∀ k, k < v.rt.echoCnt.toNat →
        envStep^[k] v = { v with rt := { v.rt with echoCnt := v.rt.echoCnt - BitVec.ofNat 8 k } }) ∧
      envStep^[v.rt.echoCnt.toNat] v =
        { v with state := .die, rt := { v.rt with echoCnt := 0#8, level := 0#8 } }) ∧
    (v.state = .die → envStep v = { v with state := .dead, rt := { v.rt with level := 0#8 } }) ∧
    (v.state = .dead → envStep v = v) ∧
    (v.state = .sus → v.rt.released = false → envStep v = v)

/-- Every released voice ends: whatever its state, its level and its envelope fields, it is DEAD after 513
frame steps at the most (R112-R119, R274: a voice dies purely from envelope state).  For PSEUDO_ECHO with
`ECHO_CNT` 0, which no rule enters, that is the model's choice and no rule's: the counter goes on from 255 (log
entry 18). -/
def Obligations.ReleasedVoiceDies : Prop :=
  ∀ v : Voice, v.rt.released = true → v.state ≠ .free → (envStep^[513] v).state = .dead

/-! ### Pitch, generators, resampler -/

/-- `EXP2` (R16): 1 at 0, 2^k at every integer k with |k| ≤ 1000 (here in units of 2^-1074), monotone. -/
def Obligations.Exp2Properties : Prop :=
  F64.exp2 F64.zero = F64.one ∧
  (∀ k : Int, -1000 ≤ k → k ≤ 1000 →
    (F64.exp2 (F64.ofInt k)).isFinite = true ∧
      (F64.exp2 (F64.ofInt k)).units = 2 ^ (1074 + k).toNat) ∧
  ∀ x y : F64, F64.le x y = true → F64.le (F64.exp2 x) (F64.exp2 y) = true

/-- The frequency (R120): a fixed-rate sample's is `MIDC_FREQ` whatever the key and the pitch; any other voice's is
`MIDC_FREQ` times `EXP2` of the key's octaves from 60 plus the pitch in 1/768 octave; any voice's is `MIDC_FREQ`
exactly at key 60 with pitch 0, however the pitch comes to be 0. -/
def Obligations.PitchAtReference : Prop :=
  ∀ v : Voice,
    let pitch : Int := v.arg.tune.toInt + v.arg.pitchWheel.toInt * v.arg.bendRange.toNat + lfoValue v * 4
    (v.birth.dspType = .pcmFixed → pitchFreq v = v.birth.midcFreq) ∧
    (v.birth.dspType ≠ .pcmFixed → pitchFreq v =
      F64.mul v.birth.midcFreq (F64.exp2 (F64.add (F64.div (F64.ofInt (v.birth.key.toNat - 60)) (F64.ofInt 12))
        (F64.div (F64.ofInt pitch) (F64.ofInt 768))))) ∧
    (v.birth.midcFreq.isFinite = true → v.birth.key = 60#7 → pitch = 0 → pitchFreq v = v.birth.midcFreq) ∧
    (v.arg.tune = 0#16 → v.arg.pitchWheel = 0#7 ∨ v.arg.bendRange = 0#7 → v.arg.lfoDepth = 0#7 → pitch = 0)

/-- The LFO (R122, R123): its value is the triangle of the phase, scaled by the depth and rounded down, and lies
in -127..127; a clock that stays below the threshold only accumulates, and one that crosses it once subtracts it
once and adds `LFO_SPEED` to the phase once. -/
def Obligations.LfoRule : Prop :=
  (∀ v : Voice,
    let p : Int := v.rt.lfoPhase.toNat
    let t : Int := if p < 64 then p else if p < 192 then 128 - p else p - 256
    lfoValue v = t * v.arg.lfoDepth.toNat / 64 ∧ -127 ≤ lfoValue v ∧ lfoValue v ≤ 127) ∧
  (∀ (e : Env) (slot j : Nat) (v : Voice),
    let acc := F64.add v.rt.bpmAcc (F64.mul e.glob.bpm (F64.ofNat e.cfg.lfoTicksPerBeat))
    let thr := F64.mul (F64.ofInt 60) e.glob.sampleRate
    (F64.le thr acc = false → lfoClock e slot j v = { v with rt := { v.rt with bpmAcc := acc } }) ∧
    (F64.lt F64.zero thr = true → F64.le thr acc = true → F64.sub acc thr ≠ acc →
      F64.le thr (F64.sub acc thr) = false →
      lfoClock e slot j v =
        { v with
          rt := { v.rt with bpmAcc := F64.sub acc thr, lfoPhase := v.rt.lfoPhase + v.arg.lfoSpeed } }))

/-- The sweep converges (R164): ascending, the timer never falls, stays at most `TIMER_MAX`, does not move below
2^n and otherwise reaches `TIMER_MAX`; descending, it never rises and reaches a value below 2^n, where it
stays.  A shift of 0 leaves the sweep off; off, a frame changes nothing and the tone's frequency is the
voice's.  The square generator the sweep drives: its first frame sets the enable and the timer (R161, R162), a later
one steps the timer (R163); the tone's frequency follows the timer while the sweep is on (R157), and the read position
moves by eight steps of the duty table a period (R155, R156, R158); a sample is the table's stream, 0.0 before its
start, weighted by differences of the table lookup over the window and divided by the sum of the weights (R196,
R197). -/
def Obligations.SweepConverges : Prop :=
  (∀ (cfg : Params) (v : Voice),
    let n := v.birth.sweep.toNat % 8
    (sweepFrame cfg true v).rt.sweepOn = decide (n ≠ 0 ∧ v.birth.sweep.toNat / 16 % 8 ≠ 0) ∧
    ((sweepFrame cfg true v).rt.timer : Int) =
      min (max (F64.roundHalfEven (F64.sub (F64.ofInt 2048) (F64.div cfg.gbClock v.rt.freq))) 0) cfg.timerMax ∧
    (v.rt.sweepOn = true → sweepFrame cfg false v =
      { v with
        rt := { v.rt with
          timer := if v.birth.sweep.toNat / 8 % 2 = 1 then v.rt.timer - v.rt.timer / 2 ^ n
            else min (v.rt.timer + v.rt.timer / 2 ^ n) cfg.timerMax } }) ∧
    (v.rt.sweepOn = true → toneFreq cfg v = F64.div cfg.gbClock (F64.ofInt (2048 - v.rt.timer)))) ∧
  (∀ (d : BitVec 2) (m : Int),
    (m < 0 → squareStream d m = F64.zero) ∧
    (0 ≤ m → squareStream d m = if m % 8 < [1, 2, 4, 6].getD d.toNat 0 then F64.half else F64.negHalf)) ∧
  (∀ (cfg : Params) (x : F64),
    let top := blepA cfg (2 * cfg.blepN * cfg.blepRes)
    let p := F64.mul (F64.add x (F64.ofNat cfg.blepN)) (F64.ofNat cfg.blepRes)
    let i := F64.floor p
    blepA cfg 0 = F64.zero ∧
    (1 ≤ cfg.blepN → 1 ≤ cfg.blepRes → F64.lt F64.zero top = true) ∧
    (F64.le x (F64.neg (F64.ofNat cfg.blepN)) = true → blepLook cfg x = F64.zero) ∧
    (F64.le x (F64.neg (F64.ofNat cfg.blepN)) = false → F64.le (F64.ofNat cfg.blepN) x = true →
      blepLook cfg x = top) ∧
    (F64.le x (F64.neg (F64.ofNat cfg.blepN)) = false → F64.le (F64.ofNat cfg.blepN) x = false →
      blepLook cfg x =
        F64.lerp (blepA cfg i.toNat) (blepA cfg (i.toNat + 1)) (F64.sub p (F64.ofInt i)))) ∧
  (∀ (e : Env) (chunk : Option Nat) (v : Voice), v.birth.dspType = .square →
    let c := if F64.lt F64.one v.rt.rinc = true then F64.div F64.one v.rt.rinc else F64.one
    let w := F64.ceil (F64.div (F64.ofNat e.cfg.blepN) c) + 1
    let sums := ((List.range (2 * w + 1).toNat).map fun i => (i : Int) - w).foldl
      (fun (s : F64 × F64) d =>
        let o := F64.sub (F64.ofInt d) v.rt.rphase
        let weight := F64.sub (blepLook e.cfg (F64.mul c (F64.add o F64.one))) (blepLook e.cfg (F64.mul c o))
        (F64.add s.1 weight, F64.add s.2 (F64.mul weight (squareStream v.birth.duty (v.rt.ridx.toNat + d)))))
      (F64.zero, F64.zero)
    let y := if F64.eq sums.1 F64.zero = true then F64.zero else F64.div sums.2 sums.1
    let pos := F64.add v.rt.rphase v.rt.rinc
    let k := F64.floor pos
    ∃ ridx, genSample e chunk v =
      ({ v with rt := { v.rt with rphase := F64.sub pos (F64.ofInt k), ridx := ridx } }, ⟨y, y⟩) ∧
      (0 ≤ k → v.rt.ridx.toNat + k < 2 ^ 64 → (ridx.toNat : Int) = v.rt.ridx.toNat + k)) ∧
  ∀ (cfg : Params) (b : Birth) (t : Nat), t ≤ cfg.timerMax →
    let n := sweepShift b
    let next := sweepTimer cfg b
    (t < 2 ^ n → next t = t) ∧
    (sweepDown b = false → t ≤ next t ∧ next t ≤ cfg.timerMax ∧
      (2 ^ n ≤ t → ∃ k, k ≤ cfg.timerMax ∧ ∀ m, k ≤ m → next^[m] t = cfg.timerMax)) ∧
    (sweepDown b = true → next t ≤ t ∧
      ∃ k u, k ≤ t ∧ u < 2 ^ n ∧ ∀ m, k ≤ m → next^[m] t = u) ∧
    (n = 0 → sweepEnabled b = false) ∧
    (∀ v : Voice, v.rt.sweepOn = false → sweepFrame cfg false v = v ∧ toneFreq cfg v = v.rt.freq)

/-- The modulated threshold (R169, R170): base plus the signed accumulator times depth over 256, rounded down
and saturated to u32, so with depth 0 the base; a frame advances the accumulator by `PWM_STEP` and shifts the
threshold, the first frame only computes it.  The level in sub-frame k is the old threshold plus
(new - old) × (k + 1) / 4 rounded down, so between the two and at the last sub-frame the new one, and in stairstep
mode the new one at once; the sample is 0.5 or -0.5 as the phase is below the level or not, less the mean, on both
sides, and the phase advances.  A sawtooth's or triangle's sample is the shape function of the phase (R172-R175), which
has the value of R172 or R174 where the configuration takes the default, and the phase advances.  A frame updates each
generator as R151 says, and the phase increment is the frequency's share of 2^32, floored and clamped (R168). -/
def Obligations.PwmThresholdRule : Prop :=
  (∀ (b : Birth) (acc : Word),
    ((pwmThreshold b acc).toNat : Int) =
      min (max (b.pwmBase.toNat + acc.toInt * b.pwmDepth.toNat / 256) 0) (2 ^ 32 - 1) ∧
    (b.pwmDepth = 0#9 → pwmThreshold b acc = b.pwmBase)) ∧
  (∀ v : Voice,
    let thr := pwmThreshold v.birth
    let acc := v.rt.pwmAcc + v.birth.pwmStep
    pwmFrame true v = { v with rt := { v.rt with thrPrev := thr v.rt.pwmAcc, thrCur := thr v.rt.pwmAcc } } ∧
    pwmFrame false v =
      { v with rt := { v.rt with pwmAcc := acc, thrPrev := v.rt.thrCur, thrCur := thr acc } }) ∧
  (∀ v : Voice,
    (v.birth.stairstep = true → pwmLevel v = v.rt.thrCur.toNat) ∧
    (v.birth.stairstep = false →
      (pwmLevel v : Int) = v.rt.thrPrev.toNat +
        Int.floor ((((v.rt.thrCur.toNat : ℚ) - v.rt.thrPrev.toNat) * (v.rt.subidx.toNat + 1)) / 4) ∧
      min v.rt.thrPrev.toNat v.rt.thrCur.toNat ≤ pwmLevel v ∧
      pwmLevel v ≤ max v.rt.thrPrev.toNat v.rt.thrCur.toNat ∧
      (v.rt.subidx = 3#2 → pwmLevel v = v.rt.thrCur.toNat))) ∧
  (∀ (e : Env) (chunk : Option Nat) (v : Voice), v.birth.dspType = .pulse →
    let d := F64.div (F64.ofNat (pwmLevel v)) (F64.ofInt 4294967296)
    let x := F64.sub (if v.rt.phase.toNat < pwmLevel v then F64.half else F64.negHalf) (F64.sub d F64.half)
    genSample e chunk v = ({ v with rt := { v.rt with phase := v.rt.phase + v.rt.phaseInc } }, ⟨x, x⟩)) ∧
  (∀ (e : Env) (chunk : Option Nat) (v : Voice),
    let t := v.rt.phase.toNat / 2 ^ 24
    let saw := if e.cfg.sawCustom = true then Config.sawFn v.rt.phase
      else F64.div (F64.sub (F64.ofNat t) (F64.ofInt 128)) (F64.ofInt 256)
    let tri := if e.cfg.triCustom = true then Config.triFn v.rt.phase
      else F64.div (F64.sub (F64.ofNat (if t < 128 then t else 255 - t)) (F64.div (F64.ofInt 127) (F64.ofInt 2)))
        (F64.ofInt 127)
    let next : Voice := { v with rt := { v.rt with phase := v.rt.phase + v.rt.phaseInc } }
    (v.birth.dspType = .saw → genSample e chunk v = (next, ⟨saw, saw⟩)) ∧
    (v.birth.dspType = .triangle → genSample e chunk v = (next, ⟨tri, tri⟩))) ∧
  (∀ (g : Globals) (v : Voice), ∃ inc : Word,
    phaseIncStep g v = { v with rt := { v.rt with phaseInc := inc } } ∧
    (inc.toNat : Int) =
      min (max (F64.floor (F64.mul (F64.div v.rt.freq g.sampleRate) (F64.ofInt 4294967296))) 0) (2 ^ 32 - 1)) ∧
  (∀ (e : Env) (first : Bool) (v : Voice),
    let limited := fun (u : Voice) (r : F64) => { u with rt := { u.rt with rinc := F64.min r e.cfg.rincMax } }
    let w := sweepFrame e.cfg first v
    (v.birth.dspType = .pcm ∨ v.birth.dspType = .pcmFixed →
      genFrame e first v = limited v (F64.div v.rt.freq e.glob.sampleRate)) ∧
    (v.birth.dspType = .square → genFrame e first v =
      limited w (F64.div (F64.mul (F64.ofInt 8) (toneFreq e.cfg w)) e.glob.sampleRate)) ∧
    (v.birth.dspType = .pulse → genFrame e first v = phaseIncStep e.glob (pwmFrame first v)) ∧
    (v.birth.dspType = .saw ∨ v.birth.dspType = .triangle → genFrame e first v = phaseIncStep e.glob v))

/-- The sample fetch callback (R180, R181) for a region inside sample memory: past the end of a looping region
it goes on at the loop point, so such a stream never ends; before the end it delivers the frame that stands in
sample memory; past the end of another it delivers (0.0, 0.0) and the stream has ended. -/
def Obligations.FetchRule : Prop :=
  ∀ (e : Env) (v : Voice), RegionInside e.cfg v.birth →
    let pos := if v.birth.smpEnd.toNat ≤ v.rt.rdpos.toNat ∧ v.birth.smpLoopEn = true
      then v.birth.smpLoopPos else v.rt.rdpos
    let base := v.birth.smpBase.toNat
    (v.birth.smpLoopEn = true → pos.toNat < v.birth.smpEnd.toNat) ∧
    (pos.toNat < v.birth.smpEnd.toNat →
      fetchAppend e v =
        { v with
          rt := { v.rt with
            rdpos := pos + 1#32
            rbuf := v.rt.rbuf ++
              [match v.birth.smpChannels with
                | .mono => ⟨F64.ofF32 (e.smp.readElem (base + pos.toNat)),
                    F64.ofF32 (e.smp.readElem (base + pos.toNat))⟩
                | .stereo => ⟨F64.ofF32 (e.smp.readElem (base + 2 * pos.toNat)),
                    F64.ofF32 (e.smp.readElem (base + 2 * pos.toNat + 1))⟩] } }) ∧
    (v.birth.smpEnd.toNat ≤ pos.toNat →
      fetchAppend e v =
        { v with rt := { v.rt with srcEnd := true, rbuf := v.rt.rbuf ++ [⟨F64.zero, F64.zero⟩] } })

/-- The linear strategy at unit rate (R194): with `RINC` 1.0 and `RPHASE` 0.0 the output is the first frame of
the buffer, one frame is consumed and the phase stays 0.0, for any two frames of finite f32 samples.  R194 says so for every
input; that a frame which is not finite goes as R193 and R15 compute it is the model's choice (log entry 32). -/
def Obligations.LinearUnitRate : Prop :=
  ∀ (v : Voice) (al ar bl br : F32) (rest : List Stereo),
    f32Finite al → f32Finite ar → f32Finite bl → f32Finite br →
    v.rt.rphase = F64.zero → v.rt.rinc = F64.one →
    v.rt.rbuf = ⟨F64.ofF32 al, F64.ofF32 ar⟩ :: ⟨F64.ofF32 bl, F64.ofF32 br⟩ :: rest →
      (linearStep v).1 =
        { v with rt := { v.rt with rbuf := ⟨F64.ofF32 bl, F64.ofF32 br⟩ :: rest } } ∧
      F64.eq (linearStep v).2.l (F64.ofF32 al) = true ∧ F64.eq (linearStep v).2.r (F64.ofF32 ar) = true

/-- The look-ahead of the linear strategy (R192): after the buffer is filled it holds at least
ceil(phase + increment × n) + 2 frames, and those it held before come first. -/
def Obligations.LookAheadIsFilled : Prop :=
  ∀ (e : Env) (nc : Nat) (v : Voice),
    let need := F64.ceil (F64.add v.rt.rphase (F64.mul v.rt.rinc (F64.ofNat nc))) + 2
    ((linearPrepare e nc v).rt.rbuf.length : Int) = max need v.rt.rbuf.length ∧
      (linearPrepare e nc v).rt.rbuf.take v.rt.rbuf.length = v.rt.rbuf

/-! ### Reverb -/

/-- One sample of the reverb (R212, R217, R218): type 0 passes the dry pair and touches nothing; the base
algorithm mixes the two taps of its ring with the dry pair, writes the sum back and advances its cursor; a
variant mixes the two pairs at its cursors and advances both. -/
def Obligations.ReverbSampleRule : Prop :=
  ∀ (cfg : Params) (g : Globals) (c : Channel) (dry : Stereo),
    let k := F64.div (F64.ofNat c.reverbIntensity.toNat) (F64.ofInt 256)
    let len := g.spf.toNat * 4 * cfg.hwbuf
    (c.reverbType = .off → reverbSample cfg g c dry = (c, dry)) ∧
    (c.reverbType = .base →
      let p1 := c.ring0.get c.cur0
      let p2 := c.ring0.get ((c.cur0 + g.spf.toNat * 4) % len)
      let out : Stereo := ⟨F64.add dry.l (F64.mul (F64.add p1.l p2.l) k),
        F64.add dry.r (F64.mul (F64.add p1.r p2.r) k)⟩
      reverbSample cfg g c dry =
        ({ c with ring0 := c.ring0.put c.cur0 out, cur0 := (c.cur0 + 1) % len }, out) ∧
      (ringWf len c.ring0 c.cur0 → (c.ring0.put c.cur0 out).get c.cur0 = out ∧
        ∀ i, i ≠ c.cur0 → (c.ring0.put c.cur0 out).get i = c.ring0.get i)) ∧
    (∀ x, c.reverbType = .variant x →
      let mix := Config.revMix x k dry (c.ring1.get c.cur1) (c.ring2.get c.cur2)
      reverbSample cfg g c dry =
        ({ c with
            ring1 := c.ring1.put c.cur1 mix.2.1
            ring2 := c.ring2.put c.cur2 mix.2.2
            cur1 := (c.cur1 + 1) % revLen1 x cfg g
            cur2 := (c.cur2 + 1) % revLen2 x cfg g }, mix.1) ∧
      revLen1 x cfg g ≠ revLen2 x cfg g)

/-- The reverb of a block (R220): exactly the per-sample steps, one after another, whatever the block's size; so
a block is its parts one after another, wherever it is cut. -/
def Obligations.ReverbBlocksJoin : Prop :=
  ∀ (cfg : Params) (g : Globals) (c : Channel) (xs ys : List Stereo),
    let r := reverbBlock cfg g c xs
    let r' := reverbBlock cfg g r.1 ys
    reverbBlock cfg g c (xs ++ ys) = (r'.1, r.2 ++ r'.2) ∧
    reverbBlock cfg g c [] = (c, []) ∧
    ∀ x, reverbBlock cfg g c [x] = ((reverbSample cfg g c x).1, [(reverbSample cfg g c x).2])

/-- The cursor invariant (R221): over PROCESS commands of legal counts summing to a whole number of traversals
of the base ring, or to a multiple of both of a variant's ring lengths, the cursors come back to where they
were; with type 0 no cursor moves. -/
def Obligations.CursorsComeBack : Prop :=
  ∀ (ns : List Word) (s t : State) (c : BitVec 4) (k : Nat), s.reverbsWf →
    (∀ n ∈ ns, 1 ≤ n.toNat ∧ n.toNat ≤ s.cfg.blockMax) → execAll (ns.map .process) s = .next t →
    ((s.chan c).reverbType = .off → (t.chan c).cur0 = (s.chan c).cur0 ∧ (t.chan c).cur1 = (s.chan c).cur1 ∧
      (t.chan c).cur2 = (s.chan c).cur2) ∧
    ((s.chan c).reverbType = .base →
      (ns.map BitVec.toNat).sum = k * (s.glob.spf.toNat * 4 * s.cfg.hwbuf) →
        (t.chan c).cur0 = (s.chan c).cur0) ∧
    (∀ x, (s.chan c).reverbType = .variant x →
      (ns.map BitVec.toNat).sum = k * Nat.lcm (revLen1 x s.cfg s.glob) (revLen2 x s.cfg s.glob) →
        (t.chan c).cur1 = (s.chan c).cur1 ∧ (t.chan c).cur2 = (s.chan c).cur2)

/-! ### Invariants that every step keeps -/

/-- Every step keeps `STATUS` well-formed: the reserved bits 0, `ANY_VOICE` right (R27, R239). -/
def Obligations.StepKeepsStatus : Prop :=
  ∀ s t : State, s.statusWf → step s = .next t → t.statusWf

/-- Every step keeps both memories inside their bounds and the slots `NUM_VOICES` many (R29, R62, R63); and it keeps
the canonical form of the lists that hold the memories, which is the model's choice and no rule's (log entry
22). -/
def Obligations.StepKeepsMemories : Prop :=
  ∀ s t : State, s.memoryWf ∧ s.slotsWf → step s = .next t → t.memoryWf ∧ t.slotsWf

/-- Every step keeps each slot that is not FREE inside its sub-frame, with a generator and, where it plays
sample memory, a region inside it; and every slot's sweep timer, weights and modulation depth in their ranges
(R33, R36, R37, R39, R62, R141). -/
def Obligations.StepKeepsSlots : Prop :=
  ∀ s t : State, s.gridWf ∧ s.regionsWf ∧ s.rangesWf → step s = .next t →
    t.gridWf ∧ t.regionsWf ∧ t.rangesWf

/-- Every step keeps every channel's rings and cursors inside the lengths its `REVERB_TYPE` gives, the unused
ones as R219 leaves them, and the accumulation buffers inside `BLOCK_MAX` (R25, R26, R73); and the canonical form of
the lists that hold them, which is the model's choice and no rule's (log entry 22). -/
def Obligations.StepKeepsReverbs : Prop :=
  ∀ s t : State, s.reverbsWf → step s = .next t → t.reverbsWf

/-- The state after reset has every invariant, for every legal configuration and every content of the memories;
`State.reset` is one such state (R48, R280, R282), with the numbers the model chose for what R6 leaves OPEN
and empty memories (log entries 3, 4, 5 and 19).  The canonical form of the lists that hold the memories, rings and
buffers is the model's choice (log entry 22). -/
def Obligations.ResetHasInvariants : Prop :=
  (∀ (cfg : Params) (smp out : Memory), cfg.legal → smp.wf cfg.smpWords = true →
    out.wf (outWords cfg) = true →
    let s := State.resetOf cfg smp out
    s.atReset ∧ s.statusWf ∧ s.memoryWf ∧ s.slotsWf ∧ s.gridWf ∧ s.regionsWf ∧ s.rangesWf ∧ s.reverbsWf) ∧
  Params.standard.legal ∧ State.reset = State.resetOf Params.standard [] []
end

