-- ==== Sys2Proof/Laws/Flags.lean ====
section
/-!
SUPPORT. Each operation on `STATUS`, bit by bit.
-/

namespace Sys2Proof.Machine

/-- The mask of `ANY_VOICE` has bit 8 and no other. -/
theorem anyVoiceMask_bit (k : Nat) : anyVoiceMask.getLsbD k = decide (k = 8) := by
  by_cases h : k < 32
  · have hall : ∀ j : Fin 32, anyVoiceMask.getLsbD j.val = decide (j.val = 8) := by decide
    exact hall ⟨k, h⟩
  · rw [BitVec.getLsbD_of_ge _ _ (by omega)]
    symm
    simp; omega

/-- The error mask has bits 0 to 4 and no other. -/
theorem errorMask_bit (k : Nat) : errorMask.getLsbD k = decide (k < 5) := by
  by_cases h : k < 32
  · have hall : ∀ j : Fin 32, errorMask.getLsbD j.val = decide (j.val < 5) := by decide
    exact hall ⟨k, h⟩
  · rw [BitVec.getLsbD_of_ge _ _ (by omega)]
    symm
    simp; omega

/-- After `ANY_VOICE` is recomputed: bit 8 is as given, every other bit is as before. -/
theorem statusWithAnyVoice_bit (st : Word) (any : Bool) {k : Nat} (hk : k < 32) :
    (statusWithAnyVoice st any).getLsbD k = if k = 8 then any else st.getLsbD k := by
  unfold statusWithAnyVoice
  have hif : (if any then anyVoiceMask else 0#32).getLsbD k = (any && decide (k = 8)) := by
    cases any
    · simp
    · simpa using anyVoiceMask_bit k
  rw [BitVec.getLsbD_or, BitVec.getLsbD_and, BitVec.getLsbD_not, anyVoiceMask_bit, hif]
  by_cases h : k = 8 <;> simp [h, hk]

/-- Recomputing `ANY_VOICE` where it is right changes nothing. -/
theorem statusWithAnyVoice_self {st : Word} {any : Bool} (h : st.getLsbD 8 = any) :
    statusWithAnyVoice st any = st := by
  apply BitVec.eq_of_getLsbD_eq
  intro k hk
  rw [statusWithAnyVoice_bit st any hk]
  split
  · next e => rw [e, h]
  · rfl

/-- After an error: its bit is set, every other bit is as before. -/
theorem statusWithError_bit (st : Word) (e : Err) {k : Nat} (hk : k < 32) :
    (statusWithError st e).getLsbD k = (st.getLsbD k || decide (k = e.bit)) := by
  unfold statusWithError
  have he : ∀ (e : Err) (j : Fin 32),
      (BitVec.ofNat 32 (2 ^ e.bit)).getLsbD j.val = decide (j.val = e.bit) := by
    intro e; cases e <;> decide
  rw [BitVec.getLsbD_or, he e ⟨k, hk⟩]

/-- After CLRSTAT: the error bits of the mask are clear, every other bit is as before. -/
theorem statusCleared_bit (st mask : Word) {k : Nat} (hk : k < 32) :
    (statusCleared st mask).getLsbD k = (st.getLsbD k && !(mask.getLsbD k && decide (k < 5))) := by
  unfold statusCleared
  rw [BitVec.getLsbD_and, BitVec.getLsbD_not, BitVec.getLsbD_and, errorMask_bit]
  simp [hk]

/-- Every error's bit is below 5. -/
theorem Err.bit_lt (e : Err) : e.bit < 5 := by cases e <;> decide

/-- Some slot is not FREE. -/
theorem anyVoice_iff (vs : List Voice) : anyVoice vs = true ↔ ∃ w ∈ vs, w.state ≠ .free := by
  simp [anyVoice]

/-- Every slot is FREE. -/
theorem anyVoice_false_iff (vs : List Voice) : anyVoice vs = false ↔ ∀ w ∈ vs, w.state = .free := by
  simp [anyVoice]

end Sys2Proof.Machine
end

