-- ==== Sys2Proof/Laws/State.lean ====
section
/-!
SUPPORT. One lemma per field for every update of the state, of a slot and of a channel, so that no proof
unfolds a record update.
-/

namespace Sys2Proof.Machine

section Channels

variable (s : State) (c : BitVec 4) (x : Channel)

@[simp] theorem State.setChan_cfg : (s.setChan c x).cfg = s.cfg := rfl
@[simp] theorem State.setChan_glob : (s.setChan c x).glob = s.glob := rfl
@[simp] theorem State.setChan_voices : (s.setChan c x).voices = s.voices := rfl
@[simp] theorem State.setChan_status : (s.setChan c x).status = s.status := rfl
@[simp] theorem State.setChan_result : (s.setChan c x).result = s.result := rfl
@[simp] theorem State.setChan_port : (s.setChan c x).port = s.port := rfl
@[simp] theorem State.setChan_smpMem : (s.setChan c x).smpMem = s.smpMem := rfl
@[simp] theorem State.setChan_outMem : (s.setChan c x).outMem = s.outMem := rfl
@[simp] theorem State.setChan_input : (s.setChan c x).input = s.input := rfl
@[simp] theorem State.setChan_freeTag : (s.setChan c x).freeTag = s.freeTag := rfl

/-- A channel written is the channel read. -/
@[simp] theorem State.chan_setChan_same : (s.setChan c x).chan c = x := by
  simp [State.chan, State.setChan]

/-- A channel written leaves the other channels. -/
theorem State.chan_setChan_other {d : BitVec 4} (h : d ≠ c) : (s.setChan c x).chan d = s.chan d := by
  have h' : c.toNat ≠ d.toNat := fun e => h (BitVec.eq_of_toNat_eq e.symm)
  simp [State.chan, State.setChan, h']

/-- Both cases of reading a channel after a write. -/
theorem State.chan_setChan (d : BitVec 4) :
    (s.setChan c x).chan d = if d = c then x else s.chan d := by
  split
  · next h => subst h; simp
  · next h => exact s.chan_setChan_other c x h

/-- `chan` reads the bank of channels and nothing else. -/
theorem State.chan_congr {s t : State} (h : t.chans = s.chans) (d : BitVec 4) : t.chan d = s.chan d := by
  simp [State.chan, h]

/-- Two banks of channels with the same channels are equal. -/
theorem State.chans_ext {s t : State} (h : ∀ d, t.chan d = s.chan d) : t.chans = s.chans := by
  apply Vector.ext
  intro i hi
  simpa [State.chan, Nat.mod_eq_of_lt hi] using h (BitVec.ofNat 4 i)

end Channels

section Slots

variable (s : State) (v : Nat) (w : Voice)

@[simp] theorem State.setVoice_cfg : (s.setVoice v w).cfg = s.cfg := rfl
@[simp] theorem State.setVoice_glob : (s.setVoice v w).glob = s.glob := rfl
@[simp] theorem State.setVoice_chans : (s.setVoice v w).chans = s.chans := rfl
@[simp] theorem State.setVoice_voices : (s.setVoice v w).voices = s.voices.set v w := rfl
@[simp] theorem State.setVoice_status : (s.setVoice v w).status = s.status := rfl
@[simp] theorem State.setVoice_result : (s.setVoice v w).result = s.result := rfl
@[simp] theorem State.setVoice_port : (s.setVoice v w).port = s.port := rfl
@[simp] theorem State.setVoice_smpMem : (s.setVoice v w).smpMem = s.smpMem := rfl
@[simp] theorem State.setVoice_outMem : (s.setVoice v w).outMem = s.outMem := rfl
@[simp] theorem State.setVoice_input : (s.setVoice v w).input = s.input := rfl
@[simp] theorem State.setVoice_freeTag : (s.setVoice v w).freeTag = s.freeTag := rfl

end Slots

section Complete

variable (s : State)

@[simp] theorem State.complete_cfg : s.complete.cfg = s.cfg := rfl
@[simp] theorem State.complete_glob : s.complete.glob = s.glob := rfl
@[simp] theorem State.complete_chans : s.complete.chans = s.chans := rfl
@[simp] theorem State.complete_voices : s.complete.voices = s.voices := rfl
@[simp] theorem State.complete_status :
    s.complete.status = statusWithAnyVoice s.status (anyVoice s.voices) := rfl
@[simp] theorem State.complete_result : s.complete.result = s.result := rfl
@[simp] theorem State.complete_port : s.complete.port = s.port := rfl
@[simp] theorem State.complete_smpMem : s.complete.smpMem = s.smpMem := rfl
@[simp] theorem State.complete_outMem : s.complete.outMem = s.outMem := rfl
@[simp] theorem State.complete_input : s.complete.input = s.input := rfl
@[simp] theorem State.complete_freeTag : s.complete.freeTag = s.freeTag := rfl

end Complete

section Reset

variable (s : State)

@[simp] theorem State.hostReset_cfg : s.hostReset.cfg = s.cfg := rfl
@[simp] theorem State.hostReset_glob : s.hostReset.glob = Globals.reset := rfl
@[simp] theorem State.hostReset_chans : s.hostReset.chans = Vector.replicate 16 Channel.reset := rfl
@[simp] theorem State.hostReset_voices :
    s.hostReset.voices = List.replicate s.cfg.numVoices Voice.reset := rfl
@[simp] theorem State.hostReset_status : s.hostReset.status = 0#32 := rfl
@[simp] theorem State.hostReset_result : s.hostReset.result = 0#32 := rfl
@[simp] theorem State.hostReset_port : s.hostReset.port = .header := rfl
@[simp] theorem State.hostReset_smpMem : s.hostReset.smpMem = s.smpMem := rfl
@[simp] theorem State.hostReset_outMem : s.hostReset.outMem = s.outMem := rfl
@[simp] theorem State.hostReset_input : s.hostReset.input = s.input := rfl
@[simp] theorem State.hostReset_freeTag : s.hostReset.freeTag = s.freeTag := rfl

/-- Every channel after reset. -/
@[simp] theorem State.hostReset_chan (d : BitVec 4) : s.hostReset.chan d = Channel.reset := by
  simp [State.chan]

end Reset

section Voices

variable (v : Voice) (st : VState) (level : BitVec 8)

@[simp] theorem Voice.setEnv_state : (v.setEnv st level).state = st := rfl
@[simp] theorem Voice.setEnv_level : (v.setEnv st level).rt.level = level := rfl
@[simp] theorem Voice.setEnv_ch : (v.setEnv st level).ch = v.ch := rfl
@[simp] theorem Voice.setEnv_seq : (v.setEnv st level).seq = v.seq := rfl
@[simp] theorem Voice.setEnv_birth : (v.setEnv st level).birth = v.birth := rfl
@[simp] theorem Voice.setEnv_argp : (v.setEnv st level).argp = v.argp := rfl
@[simp] theorem Voice.setEnv_arg : (v.setEnv st level).arg = v.arg := rfl
@[simp] theorem Voice.setEnv_subcnt : (v.setEnv st level).rt.subcnt = v.rt.subcnt := rfl
@[simp] theorem Voice.setEnv_subidx : (v.setEnv st level).rt.subidx = v.rt.subidx := rfl
@[simp] theorem Voice.setEnv_delay : (v.setEnv st level).rt.delay = v.rt.delay := rfl
@[simp] theorem Voice.setEnv_timer : (v.setEnv st level).rt.timer = v.rt.timer := rfl
@[simp] theorem Voice.setEnv_released : (v.setEnv st level).rt.released = v.rt.released := rfl
@[simp] theorem Voice.setEnv_echoCnt : (v.setEnv st level).rt.echoCnt = v.rt.echoCnt := rfl
@[simp] theorem Voice.setEnv_wcurL : (v.setEnv st level).rt.wcurL = v.rt.wcurL := rfl
@[simp] theorem Voice.setEnv_wcurR : (v.setEnv st level).rt.wcurR = v.rt.wcurR := rfl

@[simp] theorem Voice.release_state : v.release.state = v.state := rfl
@[simp] theorem Voice.release_released : v.release.rt.released = true := rfl
@[simp] theorem Voice.release_ch : v.release.ch = v.ch := rfl
@[simp] theorem Voice.release_seq : v.release.seq = v.seq := rfl
@[simp] theorem Voice.release_birth : v.release.birth = v.birth := rfl
@[simp] theorem Voice.release_argp : v.release.argp = v.argp := rfl
@[simp] theorem Voice.release_subcnt : v.release.rt.subcnt = v.rt.subcnt := rfl
@[simp] theorem Voice.release_timer : v.release.rt.timer = v.rt.timer := rfl

@[simp] theorem Voice.kill_state : v.kill.state = .dead := rfl
@[simp] theorem Voice.kill_level : v.kill.rt.level = 0#8 := rfl
@[simp] theorem Voice.kill_ch : v.kill.ch = v.ch := rfl
@[simp] theorem Voice.kill_seq : v.kill.seq = v.seq := rfl
@[simp] theorem Voice.kill_birth : v.kill.birth = v.birth := rfl
@[simp] theorem Voice.kill_argp : v.kill.argp = v.argp := rfl
@[simp] theorem Voice.kill_subcnt : v.kill.rt.subcnt = v.rt.subcnt := rfl
@[simp] theorem Voice.kill_timer : v.kill.rt.timer = v.rt.timer := rfl

end Voices

section Reverb

variable (cfg : Params) (g : Globals) (c : Channel)

@[simp] theorem Channel.resetReverb_args : (c.resetReverb cfg g).args = c.args := rfl
@[simp] theorem Channel.resetReverb_type : (c.resetReverb cfg g).reverbType = c.reverbType := rfl
@[simp] theorem Channel.resetReverb_intensity :
    (c.resetReverb cfg g).reverbIntensity = c.reverbIntensity := rfl
@[simp] theorem Channel.resetReverb_ring0 : (c.resetReverb cfg g).ring0 = [] := rfl
@[simp] theorem Channel.resetReverb_ring1 : (c.resetReverb cfg g).ring1 = [] := rfl
@[simp] theorem Channel.resetReverb_ring2 : (c.resetReverb cfg g).ring2 = [] := rfl
@[simp] theorem Channel.resetReverb_cur0 : (c.resetReverb cfg g).cur0 = 0 := rfl
@[simp] theorem Channel.resetReverb_acc : (c.resetReverb cfg g).acc = c.acc := rfl

/-- Initialising every channel initialises each. -/
theorem chan_resetAllReverbs (s : State) (d : BitVec 4) :
    (resetAllReverbs cfg g s.chans)[d.toNat]'d.isLt = (s.chan d).resetReverb cfg g := by
  simp [resetAllReverbs, State.chan]

end Reverb

section Fetch

variable (s : State) (nbits w : Nat)

@[simp] theorem State.withFetchWord_port :
    (s.withFetchWord nbits w).port = .data (tableWords nbits w).1 := rfl
@[simp] theorem State.withFetchWord_input :
    (s.withFetchWord nbits w).input = .port (tableWords nbits w).2 :: s.input := rfl
@[simp] theorem State.withFetchWord_voices : (s.withFetchWord nbits w).voices = s.voices := rfl
@[simp] theorem State.withFetchWord_cfg : (s.withFetchWord nbits w).cfg = s.cfg := rfl

end Fetch

end Sys2Proof.Machine
end

