-- ==== Sys2Proof/Laws/Commands.lean ====
section
/-!
SUPPORT. What each shared way for a command to end can do.
-/

namespace Sys2Proof.Machine

/-- A normal end answers the completed state. -/
@[simp] theorem State.done_eq (s : State) : s.done = .next s.complete := rfl

/-- An error answers the state with the error bit set, completed. -/
theorem State.raise_eq (e : Err) (s : State) :
    State.raise e s = .next ({ s with status := statusWithError s.status e } : State).complete := rfl

/-- What an error leaves: all but `STATUS`; the error bit set, `ANY_VOICE` recomputed, the other bits kept. -/
theorem State.raise_next {e : Err} {s t : State} (h : State.raise e s = .next t) :
    t = { s with status := statusWithAnyVoice (statusWithError s.status e) (anyVoice s.voices) } := by
  rw [State.raise_eq] at h
  cases h
  rfl

/-- A command on a slot that exists runs on it. -/
theorem State.withSlot_some {v : BitVec 8} {s : State} {w : Voice} (h : s.voices[v.toNat]? = some w)
    (k : Voice → Host.Outcome State Fault Refusal) : State.withSlot v s k = k w := by
  simp [State.withSlot, h]

/-- A command on a slot that does not exist raises `ERR_NOVOICE`. -/
theorem State.withSlot_none {v : BitVec 8} {s : State} (h : s.voices[v.toNat]? = none)
    (k : Voice → Host.Outcome State Fault Refusal) : State.withSlot v s k = State.raise .noVoice s := by
  simp [State.withSlot, h]

/-- Everything a command on a slot can answer. -/
theorem State.withSlot_next {v : BitVec 8} {s t : State} {k : Voice → Host.Outcome State Fault Refusal}
    (h : State.withSlot v s k = .next t) :
    (s.voices[v.toNat]? = none ∧ State.raise .noVoice s = .next t) ∨
      ∃ w, s.voices[v.toNat]? = some w ∧ k w = .next t := by
  cases hw : s.voices[v.toNat]? with
  | none => rw [State.withSlot_none hw] at h; exact .inl ⟨rfl, h⟩
  | some w => rw [State.withSlot_some hw] at h; exact .inr ⟨w, rfl, h⟩

/-- `ANY_VOICE` of a completed state. -/
theorem State.complete_anyVoice (s : State) : s.complete.status.getLsbD 8 = anyVoice s.voices := by
  rw [State.complete_status, statusWithAnyVoice_bit _ _ (by decide)]
  rfl

/-- Completing changes no bit of `STATUS` but `ANY_VOICE`. -/
theorem State.complete_bit (s : State) {k : Nat} (hk : k < 32) (h : k ≠ 8) :
    s.complete.status.getLsbD k = s.status.getLsbD k := by
  rw [State.complete_status, statusWithAnyVoice_bit _ _ hk, if_neg h]

/-- Completing a state whose `ANY_VOICE` is right changes nothing. -/
theorem State.complete_self {s : State} (h : s.status.getLsbD 8 = anyVoice s.voices) : s.complete = s := by
  unfold State.complete
  rw [statusWithAnyVoice_self h]

/-! ### Selectors -/

/-- A birth field is found under its selector. -/
@[simp] theorem voiceRegOf_sel (r : VoiceReg) : voiceRegOf r.sel = some r := by cases r <;> rfl

/-- A channel register is found under its selector. -/
@[simp] theorem chanRegOf_sel (r : ChanReg) : chanRegOf r.sel = some r := by cases r <;> rfl

/-- A global register is found under its selector. -/
@[simp] theorem globRegOf_sel (r : GlobReg) : globRegOf r.sel = some r := by cases r <;> rfl

/-- A readback item is found under its selector. -/
@[simp] theorem readItemOf_sel (r : ReadItem) : readItemOf r.sel = some r := by cases r <;> rfl

end Sys2Proof.Machine
end

