-- ==== Sys2Proof/Laws/Store.lean ====
section
/-!
SUPPORT. The laws of the canonical stores: read after write, and that a write keeps the canonical form; then the
same of memory bytes, memory elements and rings.
-/

namespace Sys2Proof.Machine

section Store

variable {α : Type} [DecidableEq α] (d : α)

/-- A store whose indices all lie above i reads `d` at i. -/
theorem storeRead_below {bound lo : Nat} {l : List (Nat × α)} (h : storeWf d bound lo l = true) {i : Nat}
    (hi : i < lo) : storeRead d l i = d := by
  induction l generalizing lo with
  | nil => rfl
  | cons p t ih =>
    obtain ⟨k, x⟩ := p
    simp only [storeWf, Bool.and_eq_true, decide_eq_true_eq] at h
    have hk : k ≠ i := by omega
    simp only [storeRead, hk, if_false]
    exact ih h.2 (by omega)

/-- A lower start keeps the form. -/
theorem storeWf_mono {bound lo lo' : Nat} {l : List (Nat × α)} (h : storeWf d bound lo l = true)
    (hl : lo' ≤ lo) : storeWf d bound lo' l = true := by
  cases l with
  | nil => rfl
  | cons p t =>
    obtain ⟨k, x⟩ := p
    simp only [storeWf, Bool.and_eq_true, decide_eq_true_eq] at h ⊢
    exact ⟨⟨⟨by omega, h.1.1.2⟩, h.1.2⟩, h.2⟩

/-- A store in canonical form with bound 0 lists nothing. -/
theorem storeWf_zero {lo : Nat} {l : List (Nat × α)} : storeWf d 0 lo l = true ↔ l = [] := by
  cases l with
  | nil => simp [storeWf]
  | cons p t => simp [storeWf]

/-- A write leaves the content at every other index. -/
theorem storeRead_write_other (l : List (Nat × α)) {i j : Nat} (y : α) (h : j ≠ i) :
    storeRead d (storeWrite d l i y) j = storeRead d l j := by
  induction l with
  | nil =>
    by_cases hy : y = d
    · simp [storeWrite, hy, storeRead]
    · simp [storeWrite, hy, storeRead, Ne.symm h]
  | cons p t ih =>
    obtain ⟨k, x⟩ := p
    simp only [storeWrite]
    split
    · split
      · rfl
      · simp [storeRead, Ne.symm h]
    · split
      · next hik =>
        subst hik
        split
        · simp [storeRead, Ne.symm h]
        · simp [storeRead, Ne.symm h]
      · simp only [storeRead]
        split
        · rfl
        · exact ih

/-- What is written is read, in a store of canonical form. -/
theorem storeRead_write_same {bound lo : Nat} {l : List (Nat × α)} (h : storeWf d bound lo l = true) (i : Nat)
    (y : α) : storeRead d (storeWrite d l i y) i = y := by
  induction l generalizing lo with
  | nil =>
    by_cases hy : y = d
    · simp [storeWrite, hy, storeRead]
    · simp [storeWrite, hy, storeRead]
  | cons p t ih =>
    obtain ⟨k, x⟩ := p
    simp only [storeWf, Bool.and_eq_true, decide_eq_true_eq] at h
    simp only [storeWrite]
    split
    · next hik =>
      split
      · next hy =>
        have hk : k ≠ i := by omega
        simp only [storeRead, hk, if_false]
        rw [storeRead_below d h.2 (by omega), hy]
      · simp [storeRead]
    · split
      · next hik =>
        subst hik
        split
        · next hy => rw [storeRead_below d h.2 (by omega), hy]
        · simp [storeRead]
      · next hki =>
        simp only [storeRead, Ne.symm hki, if_false]
        exact ih h.2

/-- A write keeps the canonical form. -/
theorem storeWf_write {bound lo : Nat} {l : List (Nat × α)} (h : storeWf d bound lo l = true) {i : Nat}
    (hlo : lo ≤ i) (hi : i < bound) (y : α) : storeWf d bound lo (storeWrite d l i y) = true := by
  induction l generalizing lo with
  | nil =>
    by_cases hy : y = d
    · simp [storeWrite, hy, storeWf]
    · simp [storeWrite, hy, storeWf, hlo, hi]
  | cons p t ih =>
    obtain ⟨k, x⟩ := p
    simp only [storeWrite]
    have h' := h
    simp only [storeWf, Bool.and_eq_true, decide_eq_true_eq] at h'
    split
    · next hik =>
      split
      · exact h
      · next hy =>
        simp only [storeWf, Bool.and_eq_true, decide_eq_true_eq]
        exact ⟨⟨⟨hlo, hi⟩, by simpa using hy⟩, ⟨⟨by omega, h'.1.1.2⟩, h'.1.2⟩, h'.2⟩
    · split
      · next hik =>
        subst hik
        split
        · exact storeWf_mono d h'.2 (by omega)
        · next hy =>
          simp only [storeWf, Bool.and_eq_true, decide_eq_true_eq]
          exact ⟨⟨⟨hlo, hi⟩, by simpa using hy⟩, h'.2⟩
      · next hik hki =>
        simp only [storeWf, Bool.and_eq_true, decide_eq_true_eq]
        exact ⟨h'.1, ih h'.2 (by omega)⟩

/-- Two stores of canonical form with the same content are equal. -/
theorem storeWf_ext {bound lo : Nat} {l m : List (Nat × α)} (hl : storeWf d bound lo l = true)
    (hm : storeWf d bound lo m = true) (h : ∀ i, storeRead d l i = storeRead d m i) : l = m := by
  induction l generalizing lo m with
  | nil =>
    cases m with
    | nil => rfl
    | cons p t =>
      obtain ⟨k, x⟩ := p
      simp only [storeWf, Bool.and_eq_true, bne_iff_ne, ne_eq] at hm
      have := h k
      simp only [storeRead, if_true] at this
      exact absurd this.symm hm.1.2
  | cons p t ih =>
    obtain ⟨k, x⟩ := p
    have hl' := hl
    simp only [storeWf, Bool.and_eq_true, decide_eq_true_eq, bne_iff_ne, ne_eq] at hl'
    cases m with
    | nil =>
      have := h k
      simp only [storeRead, if_true] at this
      exact absurd this hl'.1.2
    | cons q u =>
      obtain ⟨k', x'⟩ := q
      have hm' := hm
      simp only [storeWf, Bool.and_eq_true, decide_eq_true_eq, bne_iff_ne, ne_eq] at hm'
      have hk : k = k' := by
        rcases Nat.lt_trichotomy k k' with hlt | heq | hlt
        · have := h k
          have hne : k' ≠ k := by omega
          simp only [storeRead, if_true, hne, if_false] at this
          rw [storeRead_below d hm'.2 (by omega)] at this
          exact absurd this hl'.1.2
        · exact heq
        · have := h k'
          have hne : k ≠ k' := by omega
          simp only [storeRead, if_true, hne, if_false] at this
          rw [storeRead_below d hl'.2 (by omega)] at this
          exact absurd this.symm hm'.1.2
      subst hk
      have hx : x = x' := by simpa [storeRead] using h k
      subst hx
      have ht : t = u := by
        refine ih hl'.2 hm'.2 fun i => ?_
        by_cases hi : k = i
        · subst hi
          rw [storeRead_below d hl'.2 (by omega), storeRead_below d hm'.2 (by omega)]
        · simpa [storeRead, hi] using h i
      rw [ht]

end Store

/-! ### Memory bytes -/

/-- A byte written is read. -/
theorem Memory.readByte_writeByte_same {words : Nat} {m : Memory} (h : m.wf words = true) (a : Nat) (b : Byte) :
    (m.writeByte a b).readByte a = b :=
  storeRead_write_same _ h a b

/-- A byte written leaves every other byte. -/
theorem Memory.readByte_writeByte_other (m : Memory) {a a' : Nat} (b : Byte) (h : a' ≠ a) :
    (m.writeByte a b).readByte a' = m.readByte a' :=
  storeRead_write_other _ m b h

/-- A byte written to an element that exists keeps the canonical form. -/
theorem Memory.wf_writeByte {words : Nat} {m : Memory} (h : m.wf words = true) {a : Nat} (ha : a < 4 * words)
    (b : Byte) : (m.writeByte a b).wf words = true :=
  storeWf_write _ h (Nat.zero_le a) ha b

/-! ### Memory elements -/

/-- An element written keeps the canonical form. -/
theorem Memory.wf_writeElem {words : Nat} {m : Memory} (h : m.wf words = true) {i : Nat} (hi : i < words)
    (v : F32) : (m.writeElem i v).wf words = true := by
  unfold Memory.writeElem
  exact Memory.wf_writeByte (Memory.wf_writeByte (Memory.wf_writeByte (Memory.wf_writeByte h (by omega) _)
    (by omega) _) (by omega) _) (by omega) _

/-- An element written leaves every byte outside its four. -/
theorem Memory.readByte_writeElem_other (m : Memory) {i a : Nat} (v : F32) (h : a < 4 * i ∨ 4 * i + 4 ≤ a) :
    (m.writeElem i v).readByte a = m.readByte a := by
  unfold Memory.writeElem
  rw [Memory.readByte_writeByte_other _ _ (by omega), Memory.readByte_writeByte_other _ _ (by omega),
    Memory.readByte_writeByte_other _ _ (by omega), Memory.readByte_writeByte_other _ _ (by omega)]

/-- The four bytes of an element that was written. -/
theorem Memory.readByte_writeElem_same {words : Nat} {m : Memory} (h : m.wf words = true) {i : Nat}
    (hi : i < words) (v : F32) {k : Nat} (hk : k < 4) :
    (m.writeElem i v).readByte (4 * i + k) = byteOf v k := by
  have h0 := Memory.wf_writeByte h (a := 4 * i) (by omega) (byteOf v 0)
  have h1 := Memory.wf_writeByte h0 (a := 4 * i + 1) (by omega) (byteOf v 1)
  have h2 := Memory.wf_writeByte h1 (a := 4 * i + 2) (by omega) (byteOf v 2)
  unfold Memory.writeElem
  obtain rfl | rfl | rfl | rfl : k = 0 ∨ k = 1 ∨ k = 2 ∨ k = 3 := by omega
  · rw [Memory.readByte_writeByte_other _ _ (by omega), Memory.readByte_writeByte_other _ _ (by omega),
      Memory.readByte_writeByte_other _ _ (by omega)]
    exact Memory.readByte_writeByte_same h _ _
  · rw [Memory.readByte_writeByte_other _ _ (by omega), Memory.readByte_writeByte_other _ _ (by omega)]
    exact Memory.readByte_writeByte_same h0 _ _
  · rw [Memory.readByte_writeByte_other _ _ (by omega)]
    exact Memory.readByte_writeByte_same h1 _ _
  · exact Memory.readByte_writeByte_same h2 _ _

/-- An element is its four bytes put together. -/
theorem bytes_of_elem (v : F32) : byteOf v 3 ++ byteOf v 2 ++ byteOf v 1 ++ byteOf v 0 = v := by
  apply BitVec.eq_of_getLsbD_eq
  intro j hj
  simp only [byteOf, BitVec.getLsbD_append, BitVec.getLsbD_extractLsb']
  split
  · next h => simp [h]
  · split
    · next h => simp [h]; congr 1; omega
    · split
      · next h => simp [h]; congr 1; omega
      · next h1 h2 h3 =>
        have : j - 8 - 8 - 8 < 8 := by omega
        simp [this]; congr 1; omega

/-- An element written is read. -/
theorem Memory.readElem_writeElem_same {words : Nat} {m : Memory} (h : m.wf words = true) {i : Nat}
    (hi : i < words) (v : F32) : (m.writeElem i v).readElem i = v := by
  unfold Memory.readElem
  rw [Memory.readByte_writeElem_same h hi v (by omega : 3 < 4),
    Memory.readByte_writeElem_same h hi v (by omega : 2 < 4),
    Memory.readByte_writeElem_same h hi v (by omega : 1 < 4)]
  have h0 := Memory.readByte_writeElem_same h hi v (by omega : 0 < 4)
  rw [Nat.add_zero] at h0
  rw [h0]
  exact bytes_of_elem v

/-- An element written leaves every other element. -/
theorem Memory.readElem_writeElem_other (m : Memory) {i j : Nat} (v : F32) (h : j ≠ i) :
    (m.writeElem i v).readElem j = m.readElem j := by
  unfold Memory.readElem
  rw [Memory.readByte_writeElem_other m v (by omega), Memory.readByte_writeElem_other m v (by omega),
    Memory.readByte_writeElem_other m v (by omega), Memory.readByte_writeElem_other m v (by omega)]

/-! ### Rings -/

/-- A pair written is read. -/
theorem Ring.get_put_same {bound : Nat} {r : Ring} (h : storeWf Stereo.zero bound 0 r = true) (i : Nat)
    (x : Stereo) : (r.put i x).get i = x :=
  storeRead_write_same _ h i x

/-- A pair written leaves every other pair. -/
theorem Ring.get_put_other (r : Ring) {i j : Nat} (x : Stereo) (h : j ≠ i) : (r.put i x).get j = r.get j :=
  storeRead_write_other _ r x h

/-- A pair written inside a ring keeps the canonical form. -/
theorem Ring.wf_put {bound : Nat} {r : Ring} (h : storeWf Stereo.zero bound 0 r = true) {i : Nat}
    (hi : i < bound) (x : Stereo) : storeWf Stereo.zero bound 0 (r.put i x) = true :=
  storeWf_write _ h (Nat.zero_le i) hi x

/-- Pairs written inside a buffer keep the canonical form. -/
theorem Ring.wf_putFrom {bound : Nat} {r : Ring} (h : storeWf Stereo.zero bound 0 r = true) {j : Nat}
    {xs : List Stereo} (hj : j + xs.length ≤ bound) : storeWf Stereo.zero bound 0 (r.putFrom j xs) = true := by
  induction xs generalizing r j with
  | nil => exact h
  | cons x xs ih =>
    rw [List.length_cons] at hj
    exact ih (Ring.wf_put h (by omega) x) (by omega)

end Sys2Proof.Machine
end

