-- ==== Sys2Proof/Laws/Render.lean ====
section
/-!
SUPPORT. What rendering can do: each part of a voice's sample leaves the voice's identity; and the inductions
over the samples of a block, the slots of a channel and the channels of a PROCESS, each made once.
-/

namespace Sys2Proof.Machine

/-! ### What no part of rendering changes -/

/-- w has the birth fields, the channel, the birth number and the pending arguments of v. -/
def SameNote (v w : Voice) : Prop :=
  w.birth = v.birth ∧ w.ch = v.ch ∧ w.seq = v.seq ∧ w.argp = v.argp

theorem SameNote.refl (v : Voice) : SameNote v v := ⟨rfl, rfl, rfl, rfl⟩

theorem SameNote.trans {u v w : Voice} (h : SameNote u v) (k : SameNote v w) : SameNote u w :=
  ⟨k.1.trans h.1, k.2.1.trans h.2.1, k.2.2.1.trans h.2.2.1, k.2.2.2.trans h.2.2.2⟩

/-- w is the same note as v at the same place of its frame grid, and released as v is. -/
def SameGrid (v w : Voice) : Prop :=
  SameNote v w ∧ w.rt.subcnt = v.rt.subcnt ∧ w.rt.subidx = v.rt.subidx ∧ w.rt.delay = v.rt.delay ∧
    w.rt.released = v.rt.released

theorem SameGrid.refl (v : Voice) : SameGrid v v := ⟨.refl v, rfl, rfl, rfl, rfl⟩

theorem SameGrid.trans {u v w : Voice} (h : SameGrid u v) (k : SameGrid v w) : SameGrid u w :=
  ⟨h.1.trans k.1, k.2.1.trans h.2.1, k.2.2.1.trans h.2.2.1, k.2.2.2.1.trans h.2.2.2.1,
    k.2.2.2.2.trans h.2.2.2.2⟩

/-! ### The envelope -/

theorem releaseThreshold_sameGrid (v : Voice) : SameGrid v (releaseThreshold v) := by
  unfold releaseThreshold
  split
  · split <;> exact ⟨⟨rfl, rfl, rfl, rfl⟩, rfl, rfl, rfl, rfl⟩
  · exact .refl v

/-- `envStep` is one case on the voice the release entry leaves (R110). -/
theorem envStep_cases (P : Voice → Prop) (v : Voice)
    (hhold : (releaseEntry v).state = .free ∨ (releaseEntry v).state = .sus ∨ (releaseEntry v).state = .dead →
      P (releaseEntry v))
    (hinit : (releaseEntry v).state = .init → P (initStep (releaseEntry v)))
    (hatk : (releaseEntry v).state = .atk → P (atkStep (releaseEntry v)))
    (hdec : (releaseEntry v).state = .dec → P (decStep (releaseEntry v)))
    (hrel : (releaseEntry v).state = .rel → P (relStep (releaseEntry v)))
    (hecho : (releaseEntry v).state = .pseudoEcho → P (echoStep (releaseEntry v)))
    (hdie : (releaseEntry v).state = .die → P ((releaseEntry v).setEnv .dead 0#8)) : P (envStep v) := by
  unfold envStep
  cases h : (releaseEntry v).state <;> simp only [h]
  · exact hhold (.inl h)
  · exact hinit h
  · exact hatk h
  · exact hdec h
  · exact hhold (.inr (.inl h))
  · exact hrel h
  · exact hecho h
  · exact hdie h
  · exact hhold (.inr (.inr h))

theorem setEnv_sameGrid (v : Voice) (st : VState) (level : BitVec 8) : SameGrid v (v.setEnv st level) :=
  ⟨⟨rfl, rfl, rfl, rfl⟩, rfl, rfl, rfl, rfl⟩

theorem envStep_sameGrid (v : Voice) : SameGrid v (envStep v) := by
  have hr : SameGrid v (releaseEntry v) := by
    unfold releaseEntry; split <;> exact ⟨⟨rfl, rfl, rfl, rfl⟩, rfl, rfl, rfl, rfl⟩
  refine envStep_cases (SameGrid v) v (fun _ => hr) (fun _ => hr.trans ?_)
    (fun _ => hr.trans (setEnv_sameGrid _ _ _)) (fun _ => hr.trans ?_)
    (fun _ => hr.trans ((setEnv_sameGrid _ _ _).trans (releaseThreshold_sameGrid _)))
    (fun _ => hr.trans ?_) (fun _ => hr.trans (setEnv_sameGrid _ _ _))
  · unfold initStep atkStep
    split
    · exact setEnv_sameGrid _ _ _
    · exact (setEnv_sameGrid _ _ _).trans (setEnv_sameGrid _ _ _)
  · simp only [decStep]
    split
    · split
      · exact (setEnv_sameGrid _ _ _).trans (releaseThreshold_sameGrid _)
      · exact setEnv_sameGrid _ _ _
    · exact setEnv_sameGrid _ _ _
  · simp only [echoStep]
    split <;> exact ⟨⟨rfl, rfl, rfl, rfl⟩, rfl, rfl, rfl, rfl⟩

/-- The envelope changes only the state, the level and the echo counter (R110). -/
theorem envStep_frame (v : Voice) : envStep v =
    { v with
      state := (envStep v).state
      rt := { v.rt with level := (envStep v).rt.level, echoCnt := (envStep v).rt.echoCnt } } := by
  have thr : ∀ u, releaseThreshold u =
      { u with
        state := (releaseThreshold u).state
        rt := { u.rt with level := (releaseThreshold u).rt.level, echoCnt := (releaseThreshold u).rt.echoCnt } } := by
    intro u; unfold releaseThreshold; split <;> [split; skip] <;> rfl
  have rel : releaseEntry v = { v with state := (releaseEntry v).state } := by
    unfold releaseEntry; split <;> rfl
  apply envStep_cases (fun w => w =
    { v with state := w.state, rt := { v.rt with level := w.rt.level, echoCnt := w.rt.echoCnt } }) v
  all_goals intro _; rw [rel]
  · unfold initStep atkStep; split <;> rfl
  · rfl
  · simp only [decStep]; split
    · split
      · rw [thr]; rfl
      · rfl
    · rfl
  · unfold relStep; rw [thr]; rfl
  · simp only [echoStep]; split <;> rfl
  · rfl

/-- The envelope does not read the active arguments. -/
theorem envStep_withArg (v : Voice) (x : Args) : envStep { v with arg := x } = { envStep v with arg := x } := by
  have thr : ∀ u : Voice, releaseThreshold { u with arg := x } = { releaseThreshold u with arg := x } := by
    intro u; unfold releaseThreshold; simp only []; split <;> [split; skip] <;> rfl
  have rel : releaseEntry { v with arg := x } = { releaseEntry v with arg := x } := by
    unfold releaseEntry; simp only []; split <;> rfl
  have ini : ∀ u : Voice, initStep { u with arg := x } = { initStep u with arg := x } := by
    intro u; unfold initStep; simp only []; split <;> rfl
  have dec : ∀ u : Voice, decStep { u with arg := x } = { decStep u with arg := x } := by
    intro u; simp only [decStep]; split
    · split
      · exact thr (u.setEnv .rel 0#8)
      · rfl
    · rfl
  have ech : ∀ u : Voice, echoStep { u with arg := x } = { echoStep u with arg := x } := by
    intro u; simp only [echoStep]; split <;> rfl
  have rls : ∀ u : Voice, relStep { u with arg := x } = { relStep u with arg := x } := fun u =>
    thr (u.setEnv .rel (scaleLevel u.rt.level u.birth.rel))
  unfold envStep
  rw [rel]
  generalize releaseEntry v = u
  simp only []
  split
  all_goals first | rfl | exact ini u | exact dec u | exact rls u | exact ech u

/-- The release threshold leaves a slot that is not FREE not FREE. -/
theorem releaseThreshold_not_free {v : Voice} (h : v.state ≠ .free) : (releaseThreshold v).state ≠ .free := by
  unfold releaseThreshold
  split
  · split
    · simp
    · simp
  · exact h

/-- The attack leaves a slot not FREE. -/
theorem atkStep_not_free (v : Voice) : (atkStep v).state ≠ .free := by
  simp only [atkStep, Voice.setEnv_state]
  split <;> simp

/-- An envelope step leaves a slot that is not FREE not FREE. -/
theorem envStep_not_free {v : Voice} (h : v.state ≠ .free) : (envStep v).state ≠ .free := by
  have hr : (releaseEntry v).state ≠ .free := by
    unfold releaseEntry; split
    · simp
    · exact h
  refine envStep_cases (fun w => w.state ≠ .free) v (fun _ => hr) (fun _ => ?_)
    (fun _ => atkStep_not_free _) (fun _ => ?_) (fun _ => releaseThreshold_not_free (by simp)) (fun hs => ?_)
    (fun _ => by simp)
  · unfold initStep
    split
    · simp
    · exact atkStep_not_free _
  · simp only [decStep]
    split
    · split
      · exact releaseThreshold_not_free (by simp)
      · simp
    · simp
  · simp only [echoStep]
    split
    · simp
    · exact hr

/-! ### Generators, resamplers, LFO -/

/-- w is the same note as v in the same state, at the same place of its grid. -/
def SameState (v w : Voice) : Prop := SameGrid v w ∧ w.state = v.state

theorem SameState.refl (v : Voice) : SameState v v := ⟨.refl v, rfl⟩

theorem SameState.trans {u v w : Voice} (h : SameState u v) (k : SameState v w) : SameState u w :=
  ⟨h.1.trans k.1, k.2.trans h.2⟩

theorem fetchAppend_sameState (e : Env) (v : Voice) : SameState v (fetchAppend e v) := by
  simp only [fetchAppend]
  split <;> exact ⟨⟨⟨rfl, rfl, rfl, rfl⟩, rfl, rfl, rfl, rfl⟩, rfl⟩

theorem fetchMany_sameState (e : Env) (k : Nat) (v : Voice) : SameState v (fetchMany e k v) := by
  induction k generalizing v with
  | zero => exact .refl v
  | succ k ih => exact (fetchAppend_sameState e v).trans (ih _)

theorem linearSample_sameState (e : Env) (chunk : Option Nat) (v : Voice) :
    SameState v (linearSample e chunk v).1 := by
  have hstep : ∀ w, SameState w (linearStep w).1 :=
    fun w => ⟨⟨⟨rfl, rfl, rfl, rfl⟩, rfl, rfl, rfl, rfl⟩, rfl⟩
  cases chunk with
  | none => exact hstep v
  | some nc => exact (fetchMany_sameState e _ v).trans (hstep _)

theorem blepSample_sameState (e : Env) (v : Voice) : SameState v (blepSample e v).1 := by
  simp only [blepSample, SameState, SameGrid, SameNote, and_self]

theorem phaseSample_sameState (v : Voice) (x : F64) : SameState v (phaseSample v x).1 :=
  ⟨⟨⟨rfl, rfl, rfl, rfl⟩, rfl, rfl, rfl, rfl⟩, rfl⟩

theorem genSample_sameState (e : Env) (chunk : Option Nat) (v : Voice) :
    SameState v (genSample e chunk v).1 := by
  simp only [genSample]
  cases v.birth.dspType with
  | none => exact .refl v
  | pcm => exact linearSample_sameState e chunk v
  | pcmFixed => exact linearSample_sameState e chunk v
  | pulse => exact phaseSample_sameState v _
  | saw => exact phaseSample_sameState v _
  | triangle => exact phaseSample_sameState v _
  | square => exact blepSample_sameState e v

theorem sweepFrame_sameState (cfg : Params) (first : Bool) (v : Voice) :
    SameState v (sweepFrame cfg first v) := by
  simp only [sweepFrame]
  split
  · exact ⟨⟨⟨rfl, rfl, rfl, rfl⟩, rfl, rfl, rfl, rfl⟩, rfl⟩
  · split <;> exact ⟨⟨⟨rfl, rfl, rfl, rfl⟩, rfl, rfl, rfl, rfl⟩, rfl⟩

theorem genFrame_sameState (e : Env) (first : Bool) (v : Voice) : SameState v (genFrame e first v) := by
  have hpwm : ∀ w, SameState w (pwmFrame first w) := by
    intro w; simp only [pwmFrame]; split <;> exact ⟨⟨⟨rfl, rfl, rfl, rfl⟩, rfl, rfl, rfl, rfl⟩, rfl⟩
  have hrinc : ∀ w x, SameState w (setRinc e.cfg w x) :=
    fun w x => ⟨⟨⟨rfl, rfl, rfl, rfl⟩, rfl, rfl, rfl, rfl⟩, rfl⟩
  have hinc : ∀ w, SameState w (phaseIncStep e.glob w) :=
    fun w => ⟨⟨⟨rfl, rfl, rfl, rfl⟩, rfl, rfl, rfl, rfl⟩, rfl⟩
  simp only [genFrame]
  cases v.birth.dspType with
  | none => exact .refl v
  | pcm => exact hrinc v _
  | pcmFixed => exact hrinc v _
  | square => exact (sweepFrame_sameState e.cfg first v).trans (hrinc _ _)
  | pulse => exact (hpwm v).trans (hinc _)
  | saw => exact hinc v
  | triangle => exact hinc v

/-- A generator's frame reads neither the state nor the level nor the echo counter. -/
theorem genFrame_setEnv (e : Env) (first : Bool) (v : Voice) (st : VState) (l c : BitVec 8) :
    genFrame e first { v with state := st, rt := { v.rt with level := l, echoCnt := c } } =
      { genFrame e first v with
        state := st, rt := { (genFrame e first v).rt with level := l, echoCnt := c } } := by
  have hsweep : sweepFrame e.cfg first { v with state := st, rt := { v.rt with level := l, echoCnt := c } } =
      { sweepFrame e.cfg first v with
        state := st, rt := { (sweepFrame e.cfg first v).rt with level := l, echoCnt := c } } := by
    simp only [sweepFrame]
    generalize initialTimer e.cfg v.rt.freq = q
    generalize sweepTimer e.cfg v.birth v.rt.timer = r
    split
    · rfl
    · split <;> rfl
  have htone : ∀ w : Voice, toneFreq e.cfg { w with state := st, rt := { w.rt with level := l, echoCnt := c } } =
      toneFreq e.cfg w := fun w => by simp only [toneFreq]
  unfold genFrame
  simp only []
  split <;> simp only [hsweep, htone, setRinc, phaseIncStep, pwmFrame]
  split <;> rfl

/-- Two sums over one list with the same terms on both sides are one pair of sums. -/
theorem fold_pair (f x : Int → F64) (l : List Int) (a b : F64) :
    l.foldl (fun (s : F64 × Stereo) d =>
      (F64.add s.1 (f d), ⟨F64.add s.2.l (F64.mul (f d) (x d)), F64.add s.2.r (F64.mul (f d) (x d))⟩)) (a, ⟨b, b⟩) =
    (let r := l.foldl (fun (s : F64 × F64) d => (F64.add s.1 (f d), F64.add s.2 (F64.mul (f d) (x d)))) (a, b)
     (r.1, ⟨r.2, r.2⟩)) := by
  induction l generalizing a b with
  | nil => rfl
  | cons d l ih => rw [List.foldl_cons, List.foldl_cons]; exact ih _ _

/-- The sums of R197 are the same on both sides, for the two sides of a square stream are one (R156). -/
theorem blepSums_eq (cfg : Params) (v : Voice) (w : Int) (f : Int → F64) (r : F64 × F64)
    (hw : blepWidth cfg v = w) (hf : blepWeight cfg v = f)
    (hr : r = ((List.range (2 * w + 1).toNat).map fun i => (i : Int) - w).foldl
      (fun (s : F64 × F64) d => (F64.add s.1 (f d),
        F64.add s.2 (F64.mul (f d) (squareStream v.birth.duty (v.rt.ridx.toNat + d)))))
      (F64.zero, F64.zero)) :
    blepSums cfg v = (r.1, ⟨r.2, r.2⟩) := by
  rw [hr, ← hw, ← hf]
  exact fold_pair (blepWeight cfg v) (fun d => squareStream v.birth.duty (v.rt.ridx.toNat + d)) _ F64.zero F64.zero

theorem lfoClock_sameState (e : Env) (slot j : Nat) (v : Voice) : SameState v (lfoClock e slot j v) := by
  unfold lfoClock
  extract_lets acc thr
  generalize lfoLoop thr v.arg.lfoSpeed (acc.mag + 1) acc v.rt.lfoPhase = o
  cases o <;> exact ⟨⟨⟨rfl, rfl, rfl, rfl⟩, rfl, rfl, rfl, rfl⟩, rfl⟩

/-! ### The frame step and the sample -/

theorem frameStep_sameGrid (e : Env) (v : Voice) : SameGrid v (frameStep e v) := by
  have harg : SameGrid v { v with arg := v.argp } := ⟨⟨rfl, rfl, rfl, rfl⟩, rfl, rfl, rfl, rfl⟩
  have henv := harg.trans (envStep_sameGrid { v with arg := v.argp })
  simp only [frameStep]
  split
  · exact henv.trans ⟨⟨rfl, rfl, rfl, rfl⟩, rfl, rfl, rfl, rfl⟩
  · refine henv.trans ?_
    generalize envStep { v with arg := v.argp } = w
    have hfreq : SameGrid w { w with rt := { w.rt with freq := pitchFreq w } } :=
      ⟨⟨rfl, rfl, rfl, rfl⟩, rfl, rfl, rfl, rfl⟩
    exact (hfreq.trans (genFrame_sameState e _ _).1).trans ⟨⟨rfl, rfl, rfl, rfl⟩, rfl, rfl, rfl, rfl⟩

/-- A frame step's state is the envelope's. -/
theorem frameStep_state (e : Env) (v : Voice) :
    (frameStep e v).state = (envStep { v with arg := v.argp }).state := by
  simp only [frameStep]
  split
  · rfl
  · exact (genFrame_sameState e _ _).2

theorem frameStepIfDue_sameGrid (e : Env) (v : Voice) : SameGrid v (frameStepIfDue e v) := by
  unfold frameStepIfDue
  split
  · exact frameStep_sameGrid e v
  · exact .refl v

/-- A frame step leaves a slot that is not FREE not FREE. -/
theorem frameStepIfDue_not_free (e : Env) {v : Voice} (h : v.state ≠ .free) :
    (frameStepIfDue e v).state ≠ .free := by
  unfold frameStepIfDue
  split
  · rw [frameStep_state]
    exact envStep_not_free h
  · exact h

/-- The counters stay below `SPF` (R36, R101). -/
theorem advanceCounters_subcnt {g : Globals} {v : Voice} (h : v.rt.subcnt.toNat < g.spf.toNat) :
    (advanceCounters g v).rt.subcnt.toNat < g.spf.toNat := by
  have hs := g.spf.isLt
  simp only [advanceCounters]
  split
  · simp only [BitVec.toNat_ofNat]; omega
  · next hne =>
    have hadd : (v.rt.subcnt + 1#16).toNat = v.rt.subcnt.toNat + 1 := by
      rw [BitVec.toNat_add, BitVec.toNat_ofNat]; omega
    have hne' : v.rt.subcnt.toNat + 1 ≠ g.spf.toNat := fun hh =>
      hne (BitVec.eq_of_toNat_eq (by rw [hadd, hh]))
    rw [hadd]; omega

theorem advanceCounters_sameNote (g : Globals) (v : Voice) : SameNote v (advanceCounters g v) := by
  simp only [advanceCounters]; split <;> exact ⟨rfl, rfl, rfl, rfl⟩

theorem advanceCounters_state (g : Globals) (v : Voice) : (advanceCounters g v).state = v.state := by
  simp only [advanceCounters]; split <;> rfl

theorem endOfStream_sameGrid (j n : Nat) (v : Voice) : SameGrid v (endOfStream j n v) := by
  unfold endOfStream; split <;> exact ⟨⟨rfl, rfl, rfl, rfl⟩, rfl, rfl, rfl, rfl⟩

theorem endOfStream_not_free (j n : Nat) {v : Voice} (h : v.state ≠ .free) :
    (endOfStream j n v).state ≠ .free := by
  unfold endOfStream; split
  · simp
  · exact h

/-- The two ways a sample goes: the frame step killed the voice, or the sample is rendered. -/
theorem voiceSample_cases (e : Env) (slot : Nat) (fresh : Bool) (j n : Nat) (v : Voice) :
    ((frameStepIfDue e v).state = .dead ∧
        voiceSample e slot fresh j n v = (frameStepIfDue e v, Stereo.zero)) ∨
      ((frameStepIfDue e v).state ≠ .dead ∧ ∃ w y, SameState (frameStepIfDue e v) w ∧
        voiceSample e slot fresh j n v = (endOfStream j n (advanceCounters e.glob w), y)) := by
  simp only [voiceSample]
  split
  · next h => exact .inl ⟨h, rfl⟩
  · next h =>
    exact .inr ⟨h, _, _, (genSample_sameState e _ _).trans (lfoClock_sameState e slot j _), rfl⟩

theorem voiceSample_sameNote (e : Env) (slot : Nat) (fresh : Bool) (j n : Nat) (v : Voice) :
    SameNote v (voiceSample e slot fresh j n v).1 := by
  obtain ⟨_, h⟩ | ⟨_, w, y, hw, h⟩ := voiceSample_cases e slot fresh j n v <;> rw [h]
  · exact (frameStepIfDue_sameGrid e v).1
  · exact ((((frameStepIfDue_sameGrid e v).1.trans hw.1.1).trans (advanceCounters_sameNote e.glob w))).trans
      (endOfStream_sameGrid j n _).1

theorem voiceSample_not_free (e : Env) (slot : Nat) (fresh : Bool) (j n : Nat) {v : Voice}
    (hv : v.state ≠ .free) : (voiceSample e slot fresh j n v).1.state ≠ .free := by
  obtain ⟨_, h⟩ | ⟨_, w, y, hw, h⟩ := voiceSample_cases e slot fresh j n v <;> rw [h]
  · exact frameStepIfDue_not_free e hv
  · refine endOfStream_not_free j n ?_
    rw [advanceCounters_state, hw.2]
    exact frameStepIfDue_not_free e hv

theorem voiceSample_subcnt (e : Env) (slot : Nat) (fresh : Bool) (j n : Nat) {v : Voice}
    (hv : v.rt.subcnt.toNat < e.glob.spf.toNat) :
    (voiceSample e slot fresh j n v).1.rt.subcnt.toNat < e.glob.spf.toNat := by
  obtain ⟨_, h⟩ | ⟨_, w, y, hw, h⟩ := voiceSample_cases e slot fresh j n v <;> rw [h]
  · rw [(frameStepIfDue_sameGrid e v).2.1]; exact hv
  · rw [(endOfStream_sameGrid j n _).2.1]
    refine advanceCounters_subcnt ?_
    rw [hw.1.2.1, (frameStepIfDue_sameGrid e v).2.1]; exact hv

/-! ### The samples of a block -/

/-- A DEAD voice renders nothing (R119, R232). -/
theorem renderFrom_dead (e : Env) (slot n : Nat) (fresh : Bool) (j : Nat) {v : Voice} (h : v.state = .dead)
    (acc : List Stereo) : renderFrom e slot n fresh j v acc = (v, acc) := by
  cases acc <;> simp [renderFrom, h]

/-- What every skipped and every rendered sample keeps, rendering a block keeps. -/
theorem renderFrom_keeps (e : Env) (slot n : Nat) (P : Voice → Prop)
    (hdelay : ∀ v, P v → P { v with rt := { v.rt with delay := v.rt.delay - 1#32 } })
    (hsample : ∀ fresh j v, P v → v.state ≠ .dead → P (voiceSample e slot fresh j n v).1)
    {v : Voice} (hv : P v) (fresh : Bool) (j : Nat) (acc : List Stereo) :
    P (renderFrom e slot n fresh j v acc).1 := by
  induction acc generalizing v fresh j with
  | nil => exact hv
  | cons a rest ih =>
    simp only [renderFrom]
    split
    · exact hv
    · next hd =>
      split
      · exact ih (hdelay v hv) fresh (j + 1)
      · exact ih (hsample fresh j v hv hd) false (j + 1)

/-- Rendering keeps the length of the buffer. -/
@[simp] theorem renderFrom_length (e : Env) (slot n : Nat) (fresh : Bool) (j : Nat) (v : Voice)
    (acc : List Stereo) : (renderFrom e slot n fresh j v acc).2.length = acc.length := by
  induction acc generalizing v fresh j with
  | nil => rfl
  | cons a rest ih =>
    simp only [renderFrom]
    split
    · rfl
    · split
      · rw [List.length_cons, List.length_cons, ih]
      · rw [List.length_cons, List.length_cons, ih]

/-- What a voice becomes depends on how long the buffer is, not on what it holds (R232: voices share no state
but the channel buffer). -/
theorem renderFrom_voice_congr (e : Env) (slot n : Nat) (fresh : Bool) (j : Nat) (v : Voice)
    {acc acc' : List Stereo} (h : acc.length = acc'.length) :
    (renderFrom e slot n fresh j v acc).1 = (renderFrom e slot n fresh j v acc').1 := by
  induction acc generalizing v fresh j acc' with
  | nil =>
    have : acc' = [] := List.length_eq_zero_iff.mp h.symm
    rw [this]
  | cons a rest ih =>
    cases acc' with
    | nil => simp at h
    | cons a' rest' =>
      have h' : rest.length = rest'.length := by simpa using h
      simp only [renderFrom]
      split
      · rfl
      · split
        · exact ih fresh (j + 1) _ h'
        · exact ih false (j + 1) _ h'

theorem renderVoice_keeps (e : Env) (slot n : Nat) (P : Voice → Prop)
    (hdelay : ∀ v, P v → P { v with rt := { v.rt with delay := v.rt.delay - 1#32 } })
    (hsample : ∀ fresh j v, P v → v.state ≠ .dead → P (voiceSample e slot fresh j n v).1)
    {v : Voice} (hv : P v) (acc : List Stereo) : P (renderVoice e slot n v acc).1 :=
  renderFrom_keeps e slot n P hdelay hsample hv true 0 acc

theorem renderVoice_sameNote (e : Env) (slot n : Nat) (v : Voice) (acc : List Stereo) :
    SameNote v (renderVoice e slot n v acc).1 :=
  renderVoice_keeps e slot n (SameNote v) (fun _ h => h)
    (fun fresh j w h _ => h.trans (voiceSample_sameNote e slot fresh j n w)) (.refl v) acc

theorem renderVoice_not_free (e : Env) (slot n : Nat) {v : Voice} (h : v.state ≠ .free) (acc : List Stereo) :
    (renderVoice e slot n v acc).1.state ≠ .free :=
  renderVoice_keeps e slot n (fun w => w.state ≠ .free) (fun _ h => h)
    (fun fresh j _ h _ => voiceSample_not_free e slot fresh j n h) h acc

/-! ### The slots of a channel -/

@[simp] theorem renderSlots_length_voices (e : Env) (c : BitVec 4) (n slot : Nat) (vs : List Voice)
    (acc : List Stereo) : (renderSlots e c n slot vs acc).1.length = vs.length := by
  induction vs generalizing slot acc with
  | nil => rfl
  | cons v vs ih => simp only [renderSlots, List.length_cons, ih]

@[simp] theorem renderSlots_length_acc (e : Env) (c : BitVec 4) (n slot : Nat) (vs : List Voice)
    (acc : List Stereo) : (renderSlots e c n slot vs acc).2.length = acc.length := by
  induction vs generalizing slot acc with
  | nil => rfl
  | cons v vs ih =>
    simp only [renderSlots]
    rw [ih]
    split
    · simp [renderVoice]
    · rfl

/-- Each slot after a channel is rendered: a slot of the channel is rendered, another is as it was. -/
theorem renderSlots_getElem? (e : Env) (c : BitVec 4) (n slot : Nat) (vs : List Voice) (acc : List Stereo)
    (i : Nat) :
    (renderSlots e c n slot vs acc).1[i]? =
      vs[i]?.map fun v =>
        if rendersInto c v then
          (renderVoice e (slot + i) n v (List.replicate acc.length Stereo.zero)).1
        else v := by
  induction vs generalizing slot acc i with
  | nil => simp [renderSlots]
  | cons v vs ih =>
    cases i with
    | zero =>
      simp only [renderSlots, List.getElem?_cons_zero, Option.map_some, Nat.add_zero]
      split
      · rw [renderVoice, renderVoice]
        exact congrArg some (renderFrom_voice_congr e slot n true 0 v (by simp))
      · rfl
    | succ i =>
      simp only [renderSlots, List.getElem?_cons_succ]
      rw [ih, Nat.add_right_comm]
      have hl : (if rendersInto c v = true then renderVoice e slot n v acc else (v, acc)).2.length =
          acc.length := by
        split
        · simp [renderVoice]
        · rfl
      rw [hl]
      rfl

/-! ### Reverb and mix -/

@[simp] theorem reverbBlock_length (cfg : Params) (g : Globals) (c : Channel) (xs : List Stereo) :
    (reverbBlock cfg g c xs).2.length = xs.length := by
  induction xs generalizing c with
  | nil => rfl
  | cons x xs ih => simp only [reverbBlock, List.length_cons, ih]

/-- What the reverb of every sample keeps, the reverb of a block keeps. -/
theorem reverbBlock_keeps (cfg : Params) (g : Globals) (P : Channel → Prop)
    (h : ∀ c x, P c → P (reverbSample cfg g c x).1) {c : Channel} (hc : P c) (xs : List Stereo) :
    P (reverbBlock cfg g c xs).1 := by
  induction xs generalizing c with
  | nil => exact hc
  | cons x xs ih => exact ih (h c x hc)

/-- The registers of a channel are not the reverb's to write. -/
theorem reverbSample_registers (cfg : Params) (g : Globals) (c : Channel) (x : Stereo) :
    (reverbSample cfg g c x).1.args = c.args ∧ (reverbSample cfg g c x).1.reverbType = c.reverbType ∧
      (reverbSample cfg g c x).1.reverbIntensity = c.reverbIntensity ∧
      (reverbSample cfg g c x).1.acc = c.acc := by
  unfold reverbSample
  cases h : c.reverbType <;> simp [reverbBase, reverbVariant, h]

/-- The mix of a block leaves every byte outside the block's elements. -/
theorem mixBlock_other (tag c j : Nat) (m : Memory) (ys : List Stereo) {a : Nat}
    (h : a < 8 * j ∨ 8 * (j + ys.length) ≤ a) : (mixBlock tag c j m ys).readByte a = m.readByte a := by
  induction ys generalizing j m with
  | nil => rfl
  | cons y ys ih =>
    rw [List.length_cons] at h
    simp only [mixBlock]
    rw [ih _ _ (by omega), mixElem, Memory.readByte_writeElem_other _ _ (by omega), mixElem,
      Memory.readByte_writeElem_other _ _ (by omega)]

/-- The mix of a block inside output memory keeps its canonical form. -/
theorem mixBlock_wf {words : Nat} (tag c j : Nat) {m : Memory} (hm : m.wf words = true) (ys : List Stereo)
    (h : 2 * (j + ys.length) ≤ words) : (mixBlock tag c j m ys).wf words = true := by
  induction ys generalizing j m with
  | nil => exact hm
  | cons y ys ih =>
    rw [List.length_cons] at h
    exact ih _ (Memory.wf_writeElem (Memory.wf_writeElem hm (by omega) _) (by omega) _) (by omega)

/-! ### The channels of a PROCESS -/

@[simp] theorem processChannel_cfg (n : Nat) (s : State) (c : BitVec 4) : (processChannel n s c).cfg = s.cfg :=
  rfl
@[simp] theorem processChannel_glob (n : Nat) (s : State) (c : BitVec 4) :
    (processChannel n s c).glob = s.glob := rfl
@[simp] theorem processChannel_status (n : Nat) (s : State) (c : BitVec 4) :
    (processChannel n s c).status = s.status := rfl
@[simp] theorem processChannel_result (n : Nat) (s : State) (c : BitVec 4) :
    (processChannel n s c).result = s.result := rfl
@[simp] theorem processChannel_port (n : Nat) (s : State) (c : BitVec 4) :
    (processChannel n s c).port = s.port := rfl
@[simp] theorem processChannel_smpMem (n : Nat) (s : State) (c : BitVec 4) :
    (processChannel n s c).smpMem = s.smpMem := rfl
@[simp] theorem processChannel_input (n : Nat) (s : State) (c : BitVec 4) :
    (processChannel n s c).input = s.input := rfl
@[simp] theorem processChannel_freeTag (n : Nat) (s : State) (c : BitVec 4) :
    (processChannel n s c).freeTag = s.freeTag := rfl
@[simp] theorem processChannel_env (n : Nat) (s : State) (c : BitVec 4) :
    (processChannel n s c).env = s.env := rfl

/-- The channels after one of them is processed. -/
theorem processChannel_chan (n : Nat) (s : State) (c d : BitVec 4) :
    (processChannel n s c).chan d =
      if d = c then
        let xs := (renderSlots s.env c n 0 s.voices (List.replicate n Stereo.zero)).2
        { (reverbBlock s.cfg s.glob (s.chan c) xs).1 with
          acc := Ring.putFrom (reverbBlock s.cfg s.glob (s.chan c) xs).1.acc 0
            (reverbBlock s.cfg s.glob (s.chan c) xs).2 }
      else s.chan d := by
  rw [← State.chan_setChan]
  rfl

/-- What every channel's part keeps, the whole PROCESS keeps up to the reclaim. -/
theorem processChannels_keeps (n : Nat) (P : State → Prop) (h : ∀ s c, P s → P (processChannel n s c))
    {s : State} (hs : P s) (cs : List (BitVec 4)) : P (cs.foldl (processChannel n) s) := by
  induction cs generalizing s with
  | nil => exact hs
  | cons c cs ih => exact ih (h s c hs)

/-- The channels of a PROCESS change the slots, the channels and output memory only. -/
theorem processChannels_frame (n : Nat) (s : State) (cs : List (BitVec 4)) :
    (cs.foldl (processChannel n) s).cfg = s.cfg ∧ (cs.foldl (processChannel n) s).glob = s.glob ∧
      (cs.foldl (processChannel n) s).status = s.status ∧ (cs.foldl (processChannel n) s).result = s.result ∧
      (cs.foldl (processChannel n) s).port = s.port ∧ (cs.foldl (processChannel n) s).smpMem = s.smpMem ∧
      (cs.foldl (processChannel n) s).input = s.input ∧
      (cs.foldl (processChannel n) s).freeTag = s.freeTag ∧
      (cs.foldl (processChannel n) s).voices.length = s.voices.length :=
  processChannels_keeps n
    (fun t => t.cfg = s.cfg ∧ t.glob = s.glob ∧ t.status = s.status ∧ t.result = s.result ∧ t.port = s.port ∧
      t.smpMem = s.smpMem ∧ t.input = s.input ∧ t.freeTag = s.freeTag ∧ t.voices.length = s.voices.length)
    (fun t c ⟨h1, h2, h3, h4, h5, h6, h7, h8, h9⟩ =>
      ⟨h1, h2, h3, h4, h5, h6, h7, h8, by simp [processChannel, h9]⟩)
    ⟨rfl, rfl, rfl, rfl, rfl, rfl, rfl, rfl, rfl⟩ cs

/-- What the rendering of a slot keeps of each slot (its number and what stands in it), a PROCESS keeps up to
the reclaim. -/
theorem processChannels_slots (n : Nat) (s : State) (R : Nat → Voice → Prop)
    (h : ∀ i v acc, R i v → v.state ≠ .free → R i (renderVoice s.env i n v acc).1)
    (hs : ∀ i v, s.voices[i]? = some v → R i v) (cs : List (BitVec 4)) :
    ∀ i v, (cs.foldl (processChannel n) s).voices[i]? = some v → R i v := by
  have := processChannels_keeps n (fun t => t.env = s.env ∧ ∀ i v, t.voices[i]? = some v → R i v)
    (fun t c ⟨he, ht⟩ => ⟨he, fun i v hv => by
      simp only [processChannel] at hv
      rw [renderSlots_getElem?] at hv
      cases ho : t.voices[i]? with
      | none => rw [ho] at hv; cases hv
      | some w =>
        rw [ho] at hv
        cases hr : rendersInto c w with
        | false => simp only [Option.map_some, hr, Bool.false_eq_true, if_false, Option.some.injEq] at hv
                   subst hv; exact ht i w ho
        | true =>
          simp only [Option.map_some, hr, if_true, Option.some.injEq, Nat.zero_add] at hv
          subst hv
          rw [he]
          refine h i w _ (ht i w ho) ?_
          simp only [rendersInto, Bool.and_eq_true, bne_iff_ne, ne_eq] at hr
          exact hr.1⟩) ⟨rfl, hs⟩ cs
  exact this.2

/-- The fields of the state after the work of a PROCESS. -/
theorem processBlock_frame (n : Nat) (s : State) :
    (processBlock n s).cfg = s.cfg ∧ (processBlock n s).glob = s.glob ∧ (processBlock n s).status = s.status ∧
      (processBlock n s).result = s.result ∧ (processBlock n s).port = s.port ∧
      (processBlock n s).smpMem = s.smpMem ∧ (processBlock n s).input = s.input ∧
      (processBlock n s).freeTag = s.freeTag + 1 ∧ (processBlock n s).voices.length = s.voices.length := by
  obtain ⟨h1, h2, h3, h4, h5, h6, h7, h8, h9⟩ := processChannels_frame n s allChannels
  exact ⟨h1, h2, h3, h4, h5, h6, h7, by simp [processBlock, h8], by simp [processBlock, h9]⟩

/-- Reclaim leaves no slot DEAD (R238). -/
theorem reclaimSlot_not_dead (v : Voice) : (reclaimSlot v).state ≠ .dead := by
  unfold reclaimSlot
  split
  · simp
  · assumption

/-- Reclaim changes no field but `STATE` (R238). -/
theorem reclaimSlot_fields (v : Voice) : SameGrid v (reclaimSlot v) ∧ (reclaimSlot v).rt = v.rt := by
  unfold reclaimSlot
  split <;> exact ⟨⟨⟨rfl, rfl, rfl, rfl⟩, rfl, rfl, rfl, rfl⟩, rfl⟩

end Sys2Proof.Machine
end

