-- ==== Sys2Proof/Laws/Exec.lean ====
section
/-!
SUPPORT. Everything a command can do, said once: it ends in an error, or completes with the effect its rule
gives it.
-/

namespace Sys2Proof.Machine

/-- What command i does to state s before `ANY_VOICE` is recomputed, where it does not end in an error. -/
def Effect : Instr → State → State → Prop
  | .nop, s, u => u = s
  | .setv sel v d, s, u => ∃ r w b, voiceRegOf sel = some r ∧ s.voices[v.toNat]? = some w ∧ w.state = .free ∧
      w.birth.write r d = some b ∧ u = s.setVoice v.toNat { w with birth := b }
  | .noteon ch v off, s, u => ∃ w, s.voices[v.toNat]? = some w ∧ w.state = .free ∧
      ((w.birth.dspType = .none ∧ u = s) ∨
        (w.birth.dspType ≠ .none ∧ (w.birth.dspType.isPcm = true → regionOk s.cfg w.birth = true) ∧
          u = { s.setVoice v.toNat (newVoice ch (s.chan ch).args s.glob.seq off w) with
            glob := { s.glob with seq := narrowU64 (s.glob.seq.toNat + 1) } }))
  | .release v, s, u => ∃ w, s.voices[v.toNat]? = some w ∧ w.state ≠ .free ∧ u = s.setVoice v.toNat w.release
  | .kill v, s, u => ∃ w, s.voices[v.toNat]? = some w ∧ w.state ≠ .free ∧ u = s.setVoice v.toNat w.kill
  | .updargs v, s, u => ∃ w, s.voices[v.toNat]? = some w ∧ w.state ≠ .free ∧
      u = s.setVoice v.toNat { w with argp := (s.chan w.ch).args }
  | .updargsCh ch, s, u => u = { s with voices := s.voices.map (updargsSlot ch (s.chan ch).args) }
  | .setc sel ch d, s, u => ∃ r c, chanRegOf sel = some r ∧ (s.chan ch).write r d = some c ∧
      u = s.setChan ch (if r = .reverbType then c.resetReverb s.cfg s.glob else c)
  | .setg sel d, s, u => ∃ r g, globRegOf sel = some r ∧
      (r.needsSilence = true → anyVoice s.voices = false) ∧ s.glob.write r d = some g ∧
      u = { s with
        glob := g
        chans := if r = .spf ∧ g.spf ≠ s.glob.spf then resetAllReverbs s.cfg g s.chans else s.chans }
  | .process n, s, u => n.toNat ≠ 0 ∧ n.toNat ≤ s.cfg.blockMax ∧ u = processBlock n.toNat s
  | .noteoff ch key, s, u => (oldestSeq ch (assembleU 127 key) s.voices = none ∧ u = s) ∨
      ∃ q, oldestSeq ch (assembleU 127 key) s.voices = some q ∧
        u = { s with voices := releaseOldest ch (assembleU 127 key) q s.voices }
  | .alloff, s, u => u = { s with voices := s.voices.map alloffSlot }
  | .clrstat m, s, u => m.toNat ≤ 0x1F ∧ u = { s with status := statusCleared s.status m }
  | .rdvoice sel v, s, u => ∃ it w, readItemOf sel = some it ∧ s.voices[v.toNat]? = some w ∧
      u = { s with result := narrowResult (w.item it) }

/-- The state an error leaves. -/
def raised (e : Err) (s : State) : State := ({ s with status := statusWithError s.status e } : State).complete

theorem State.raise_def (e : Err) (s : State) : State.raise e s = .next (raised e s) := rfl

/-- A command on a slot that exists and meets a condition, or an error. -/
theorem withSlot_cases {v : BitVec 8} {s t : State} {k : Voice → Host.Outcome State Fault Refusal}
    (h : State.withSlot v s k = .next t) :
    (∃ e, t = raised e s) ∨ ∃ w, s.voices[v.toNat]? = some w ∧ k w = .next t := by
  obtain ⟨_, h⟩ | h := State.withSlot_next h
  · rw [State.raise_def] at h; cases h; exact .inl ⟨_, rfl⟩
  · exact .inr h

/-- A command answers a next state in one of two ways: an error, or its effect, completed (R239, R261). -/
theorem exec_cases {i : Instr} {s t : State} (h : exec i s = .next t) :
    (∃ e, t = raised e s) ∨ ∃ u, Effect i s u ∧ t = u.complete := by
  cases i with
  | nop => cases h; exact .inr ⟨s, rfl, rfl⟩
  | setv sel v d =>
    simp only [exec, execSetv] at h
    split at h
    · cases h; exact .inl ⟨_, rfl⟩
    · next r hr =>
      obtain h | ⟨w, hw, h⟩ := withSlot_cases h
      · exact .inl h
      · split at h
        · cases h; exact .inl ⟨_, rfl⟩
        · next hf =>
          split at h
          · cases h; exact .inl ⟨_, rfl⟩
          · next b hb => cases h; exact .inr ⟨_, ⟨r, w, b, hr, hw, by simpa using hf, hb, rfl⟩, rfl⟩
  | noteon ch v off =>
    obtain h | ⟨w, hw, h⟩ := withSlot_cases h
    · exact .inl h
    · split at h
      · cases h; exact .inl ⟨_, rfl⟩
      · next hf =>
        split at h
        · next hd => cases h; exact .inr ⟨_, ⟨w, hw, by simpa using hf, .inl ⟨hd, rfl⟩⟩, rfl⟩
        · next hd =>
          split at h
          · cases h; exact .inl ⟨_, rfl⟩
          · next hr =>
            cases h
            refine .inr ⟨_, ⟨w, hw, by simpa using hf, .inr ⟨hd, fun hp => ?_, rfl⟩⟩, rfl⟩
            simpa [hp] using hr
  | release v =>
    obtain h | ⟨w, hw, h⟩ := withSlot_cases h
    · exact .inl h
    · split at h
      · cases h; exact .inl ⟨_, rfl⟩
      · next hf => cases h; exact .inr ⟨_, ⟨w, hw, hf, rfl⟩, rfl⟩
  | kill v =>
    obtain h | ⟨w, hw, h⟩ := withSlot_cases h
    · exact .inl h
    · split at h
      · cases h; exact .inl ⟨_, rfl⟩
      · next hf => cases h; exact .inr ⟨_, ⟨w, hw, hf, rfl⟩, rfl⟩
  | updargs v =>
    obtain h | ⟨w, hw, h⟩ := withSlot_cases h
    · exact .inl h
    · split at h
      · cases h; exact .inl ⟨_, rfl⟩
      · next hf => cases h; exact .inr ⟨_, ⟨w, hw, hf, rfl⟩, rfl⟩
  | updargsCh ch => cases h; exact .inr ⟨_, rfl, rfl⟩
  | setc sel ch d =>
    simp only [exec, execSetc] at h
    split at h
    · cases h; exact .inl ⟨_, rfl⟩
    · next r hr =>
      split at h
      · cases h; exact .inl ⟨_, rfl⟩
      · next c hc => cases h; exact .inr ⟨_, ⟨r, c, hr, hc, rfl⟩, rfl⟩
  | setg sel d =>
    simp only [exec, execSetg] at h
    split at h
    · cases h; exact .inl ⟨_, rfl⟩
    · next r hr =>
      split at h
      · cases h; exact .inl ⟨_, rfl⟩
      · next hq =>
        split at h
        · cases h; exact .inl ⟨_, rfl⟩
        · next g hg =>
          cases h
          exact .inr ⟨_, ⟨r, g, hr, fun hn => by simpa [hn] using hq, hg, rfl⟩, rfl⟩
  | process n =>
    simp only [exec, execProcess] at h
    split at h
    · cases h; exact .inl ⟨_, rfl⟩
    · next hn => cases h; exact .inr ⟨_, ⟨by omega, by omega, rfl⟩, rfl⟩
  | noteoff ch key =>
    simp only [exec, execNoteoff] at h
    split at h
    · next ho => cases h; exact .inr ⟨_, .inl ⟨ho, rfl⟩, rfl⟩
    · next q ho => cases h; exact .inr ⟨_, .inr ⟨q, ho, rfl⟩, rfl⟩
  | alloff => cases h; exact .inr ⟨_, rfl, rfl⟩
  | clrstat m =>
    simp only [exec, execClrstat, assembleB] at h
    by_cases hm : m.toNat ≤ 0x1F
    · simp only [hm, if_true] at h; cases h; exact .inr ⟨_, ⟨hm, rfl⟩, rfl⟩
    · simp only [hm, if_false] at h; cases h; exact .inl ⟨_, rfl⟩
  | rdvoice sel v =>
    simp only [exec, execRdvoice] at h
    split at h
    · cases h; exact .inl ⟨_, rfl⟩
    · next it hit =>
      obtain h | ⟨w, hw, h⟩ := withSlot_cases h
      · exact .inl h
      · cases h; exact .inr ⟨_, ⟨it, w, hit, hw, rfl⟩, rfl⟩

/-- A command ends in an error in no other way than leaving the raised state. -/
theorem raised_frame (e : Err) (s : State) : raised e s = { s with status := (raised e s).status } := rfl

/-- Bit by bit, `STATUS` after an error. -/
theorem raised_bit (e : Err) (s : State) {k : Nat} (hk : k < 32) :
    (raised e s).status.getLsbD k =
      if k = 8 then anyVoice s.voices else (s.status.getLsbD k || decide (k = e.bit)) := by
  show (statusWithAnyVoice (statusWithError s.status e) (anyVoice s.voices)).getLsbD k = _
  rw [statusWithAnyVoice_bit _ _ hk, statusWithError_bit _ _ hk]

end Sys2Proof.Machine
end

