-- ==== Sys2Proof/Laws/Numeric.lean ====
section
/-!
SUPPORT. Integers, and rounding: a value that the format holds is rounded to itself.
-/

namespace Sys2Proof.Machine

/-! ### Integers -/

/-- `clamp` stays in its interval. -/
theorem clamp_mem {v lo hi : Int} (h : lo ≤ hi) : lo ≤ clamp v lo hi ∧ clamp v lo hi ≤ hi := by
  unfold clamp
  omega

/-- `clamp` keeps a value of its interval. -/
theorem clamp_of_mem {v lo hi : Int} (h1 : lo ≤ v) (h2 : v ≤ hi) : clamp v lo hi = v := by
  unfold clamp
  omega

/-- `sat_u32` gives a u32. -/
theorem satU32_mem (v : Int) : 0 ≤ satU32 v ∧ satU32 v < 2 ^ 32 := by
  unfold satU32 clamp
  omega

/-- A sum that fits a u64 register is exact. -/
theorem narrowU64_of_lt {n : Nat} (h : n < 2 ^ 64) : narrowU64 n = BitVec.ofNat 64 n := by
  exact if_pos h

/-- An item that fits `RESULT` is exact. -/
theorem narrowResult_of_lt {n : Nat} (h : n < 2 ^ 32) : narrowResult n = BitVec.ofNat 32 n := by
  exact if_pos h

/-! ### Rounding -/

section Rounding

variable (f : FloatFormat)

/-- A magnitude below infinity has an exponent field below the greatest. -/
theorem FloatFormat.exp_lt {m : Nat} (h : m < f.infMag) : m / 2 ^ f.fracBits < 2 ^ f.expBits - 1 :=
  Nat.div_lt_of_lt_mul (by simpa [FloatFormat.infMag, Nat.mul_comm] using h)

/-- The value of a finite magnitude rounds to that magnitude (R9): nothing is lost where nothing has to be. -/
theorem FloatFormat.round_units {m : Nat} (h : m < f.infMag) : f.round (f.units m) 1 = m := by
  have hp : 0 < 2 ^ f.fracBits := Nat.two_pow_pos _
  have hm : m % 2 ^ f.fracBits < 2 ^ f.fracBits := Nat.mod_lt _ hp
  have hdm : 2 ^ f.fracBits * (m / 2 ^ f.fracBits) + m % 2 ^ f.fracBits = m := Nat.div_add_mod _ _
  unfold FloatFormat.round FloatFormat.units
  generalize he : m / 2 ^ f.fracBits = e at *
  generalize hr : m % 2 ^ f.fracBits = r at *
  simp only [Nat.div_one, Nat.one_mul]
  by_cases h0 : e = 0
  · subst h0
    have hlt : r < 2 ^ (f.fracBits + 1) := by rw [Nat.pow_succ]; omega
    simp only [if_true, hlt, Nat.pow_zero, Nat.div_one, Nat.mod_one, Nat.zero_mul, Nat.zero_add,
      Nat.mul_zero]
    simp only [Nat.not_lt_zero, decide_false, Bool.false_or]
    have : ((1 : Nat) == 0) = false := rfl
    rw [this]
    simp only [Bool.false_and, Bool.false_eq_true, if_false]
    rw [Nat.mul_zero, Nat.zero_add] at hdm
    rw [hdm]
    exact Nat.min_eq_left (Nat.le_of_lt h)
  · obtain ⟨k, rfl⟩ := Nat.exists_eq_succ_of_ne_zero h0
    simp only [h0, if_false, Nat.succ_sub_one]
    have hk : (if (2 ^ f.fracBits + r) * 2 ^ k < 2 ^ (f.fracBits + 1) then 0
        else ((2 ^ f.fracBits + r) * 2 ^ k).log2 - f.fracBits) = k := by
      split
      · next hlt =>
        by_contra hne
        have h2 : 2 ≤ 2 ^ k := by
          calc 2 = 2 ^ 1 := rfl
            _ ≤ 2 ^ k := Nat.pow_le_pow_right (by omega) (by omega)
        have : 2 ^ f.fracBits * 2 ≤ (2 ^ f.fracBits + r) * 2 ^ k :=
          Nat.mul_le_mul (Nat.le_add_right _ _) h2
        rw [Nat.pow_succ] at hlt
        omega
      · have hlog : ((2 ^ f.fracBits + r) * 2 ^ k).log2 = f.fracBits + k := by
          have hne : (2 ^ f.fracBits + r) * 2 ^ k ≠ 0 :=
            Nat.mul_ne_zero (by omega) (Nat.pos_iff_ne_zero.mp (Nat.two_pow_pos _))
          rw [Nat.log2_eq_iff hne, Nat.pow_succ, Nat.pow_add]
          constructor
          · exact Nat.mul_le_mul_right _ (Nat.le_add_right _ _)
          · rw [Nat.mul_assoc, Nat.mul_comm (2 ^ k) 2, ← Nat.mul_assoc]
            exact Nat.mul_lt_mul_of_pos_right (by omega) (Nat.two_pow_pos _)
        rw [hlog]; omega
    rw [hk]
    have hq : (2 ^ f.fracBits + r) * 2 ^ k / 2 ^ k = 2 ^ f.fracBits + r :=
      Nat.mul_div_cancel _ (Nat.two_pow_pos _)
    have hz : (2 ^ f.fracBits + r) * 2 ^ k % 2 ^ k = 0 := Nat.mul_mod_left _ _
    rw [hq, hz]
    have hne : ((2 : Nat) ^ k == 2 * 0) = false := by
      have := Nat.two_pow_pos k
      simp
    rw [hne]
    simp only [Nat.mul_zero, Nat.not_lt_zero, decide_false, Bool.false_or, Bool.false_and,
      Bool.false_eq_true, if_false]
    have hsum : k * 2 ^ f.fracBits + (2 ^ f.fracBits + r) = m := by
      rw [← hdm, Nat.mul_succ, Nat.mul_comm k]; omega
    rw [hsum]
    exact Nat.min_eq_left (Nat.le_of_lt h)

/-- A quotient rounds the same when both parts are scaled. -/
theorem FloatFormat.round_scale (a : Nat) {d : Nat} (hd : 0 < d) : f.round (a * d) d = f.round a 1 := by
  unfold FloatFormat.round
  simp only [Nat.mul_div_cancel _ hd, Nat.div_one, Nat.one_mul]
  generalize (if a < 2 ^ (f.fracBits + 1) then 0 else a.log2 - f.fracBits) = k
  have h2 : a * d / (d * 2 ^ k) = a / 2 ^ k := by rw [Nat.mul_comm a d, Nat.mul_div_mul_left _ _ hd]
  have h3 : a * d % (d * 2 ^ k) = d * (a % 2 ^ k) := by rw [Nat.mul_comm a d, Nat.mul_mod_mul_left]
  rw [h2, h3]
  have h4 : decide (d * 2 ^ k < 2 * (d * (a % 2 ^ k))) = decide (2 ^ k < 2 * (a % 2 ^ k)) := by
    rw [Nat.mul_left_comm]
    exact decide_eq_decide.mpr (Nat.mul_lt_mul_left hd)
  have h5 : (d * 2 ^ k == 2 * (d * (a % 2 ^ k))) = (2 ^ k == 2 * (a % 2 ^ k)) := by
    rw [Nat.mul_left_comm, Bool.eq_iff_iff, beq_iff_eq, beq_iff_eq]
    exact Nat.mul_right_inj (Nat.pos_iff_ne_zero.mp hd)
  rw [h4, h5]

end Rounding

end Sys2Proof.Machine

namespace Sys2Proof.F64

open Sys2Proof.Machine

/-! ### Parts of a value put together -/

/-- There are units in 1. -/
theorem one1074_pos : 0 < one1074 := Nat.two_pow_pos _

/-- Exponent and fraction are below 2^63. -/
theorem mag_lt (x : F64) : x.mag < 2 ^ 63 := Nat.mod_lt _ (by decide)

/-- A value is its sign and its magnitude. -/
theorem ofMag_self (x : F64) : ofMag x.sign x.mag = x := by
  obtain ⟨b⟩ := x
  have hb := b.isLt
  have hs : (F64.mk b).sign = decide (2 ^ 63 ≤ b.toNat) := by
    simp only [F64.sign]
    rw [← BitVec.msb_eq_getLsbD_last, BitVec.msb_eq_decide]
  simp only [ofMag, hs, mag, F64.mk.injEq]
  apply BitVec.eq_of_toNat_eq
  rw [BitVec.toNat_ofNat]
  by_cases h : 2 ^ 63 ≤ b.toNat
  · simp only [h, decide_true, if_true]; omega
  · simp only [h, decide_false, Bool.false_eq_true, if_false]; omega

/-- The sign of a value put together. -/
@[simp] theorem sign_ofMag (s : Bool) {m : Nat} (h : m < 2 ^ 63) : (ofMag s m).sign = s := by
  simp only [sign, ofMag]
  rw [← BitVec.msb_eq_getLsbD_last, BitVec.msb_eq_decide, BitVec.toNat_ofNat]
  cases s
  · simp only [Bool.false_eq_true, if_false]
    rw [decide_eq_false_iff_not]; omega
  · simp only [if_true]
    rw [decide_eq_true_iff]; omega

/-- The magnitude of a value put together. -/
@[simp] theorem mag_ofMag (s : Bool) {m : Nat} (h : m < 2 ^ 63) : (ofMag s m).mag = m := by
  simp only [mag, ofMag, BitVec.toNat_ofNat]
  cases s
  · simp only [Bool.false_eq_true, if_false]; omega
  · simp only [if_true]; omega

/-- The sign of a zero is nothing to the order, nor to whether a value is NaN. -/
theorem key_withZeroSign (s : Bool) (y : F64) :
    (withZeroSign s y).key = y.key ∧ (withZeroSign s y).isNaN = y.isNaN := by
  unfold withZeroSign
  split
  · next h =>
    have hm : y.mag = 0 := by simpa [isZero] using h
    have h0 : (ofMag s 0).mag = 0 := mag_ofMag s (Nat.two_pow_pos 63)
    simp [key, isNaN, hm, h0]
  · exact ⟨rfl, rfl⟩

/-- The binary64 pattern of infinity. -/
theorem infMag64 : binary64.infMag = 0x7FF0000000000000 := by decide

/-- The binary32 pattern of infinity. -/
theorem infMag32 : binary32.infMag = 0x7F800000 := by decide

/-- A finite value is not NaN. -/
theorem not_isNaN_of_isFinite {x : F64} (h : x.isFinite = true) : x.isNaN = false := by
  simp only [isFinite, isNaN, decide_eq_true_eq, decide_eq_false_iff_not] at *; omega

/-- A finite value is no infinity. -/
theorem not_isInf_of_isFinite {x : F64} (h : x.isFinite = true) : x.isInf = false := by
  simp only [isFinite, isInf, decide_eq_true_eq, beq_eq_false_iff_ne] at *; omega

/-- A finite magnitude has value 0 only when it is 0. -/
theorem units_eq_zero {m : Nat} : binary64.units m = 0 ↔ m = 0 := by
  have hdm := Nat.div_add_mod m (2 ^ 52)
  have hp : 0 < 2 ^ (m / 2 ^ 52 - 1) := Nat.two_pow_pos _
  constructor
  · intro h
    by_cases h0 : m / 2 ^ 52 = 0
    · simp only [FloatFormat.units, binary64, h0, if_true] at h
      rw [h0, h] at hdm; omega
    · simp only [FloatFormat.units, binary64, h0, if_false] at h
      exact absurd h (Nat.mul_ne_zero (by omega) (Nat.pos_iff_ne_zero.mp hp))
  · rintro rfl; decide

/-- The exact value of x is 0 only for the two zeros. -/
theorem units_zero_iff (x : F64) : x.units = 0 ↔ x.mag = 0 := by
  unfold units
  split
  · rw [Int.neg_eq_zero, Int.natCast_eq_zero]; exact units_eq_zero
  · rw [Int.natCast_eq_zero]; exact units_eq_zero

/-- The exact value of x is negative only when its sign is set. -/
theorem sign_of_units_neg {x : F64} (h : x.units < 0) : x.sign = true := by
  by_contra hs
  simp only [units, hs] at h
  have : (0 : Int) ≤ (binary64.units x.mag : Int) := Int.natCast_nonneg _
  simp at h
  omega

/-- A finite value that is not zero is what its exact value rounds to, whatever sign a zero would take. -/
theorem ofUnits_units {x : F64} (hf : x.isFinite = true) (hz : x.mag ≠ 0) (zs : Bool) :
    ofUnits zs x.units 1 = x := by
  have hm : x.mag < binary64.infMag := by simpa [isFinite] using hf
  have hu : x.units ≠ 0 := fun h => hz ((units_zero_iff x).mp h)
  have hn : x.units.natAbs = binary64.units x.mag := by
    unfold units; split <;> simp
  have hs : decide (x.units < 0) = x.sign := by
    have hpos : 0 < binary64.units x.mag := Nat.pos_of_ne_zero fun h => hz (units_eq_zero.mp h)
    unfold units
    cases x.sign
    · simp only [Bool.false_eq_true, if_false, decide_eq_false_iff_not]; omega
    · simp only [if_true, decide_eq_true_eq]; omega
  unfold ofUnits
  rw [if_neg hu, hn, hs, FloatFormat.round_units _ hm]
  exact ofMag_self x

/-- The exact value of 1. -/
theorem units_one : one.units = (one1074 : Int) := by
  have hs : one.sign = false := by decide
  have hm : one.mag = 1023 * 2 ^ 52 := by decide
  have hu : binary64.units (1023 * 2 ^ 52) = 2 ^ 52 * 2 ^ 1022 := by
    simp [FloatFormat.units, binary64]
  rw [units, hs, hm, hu, ← Nat.pow_add]
  rfl

/-- x + 0 = x for a finite x that is not zero, with either zero. -/
theorem add_zero_right {x z : F64} (hf : x.isFinite = true) (hx : x.mag ≠ 0) (hz : z.mag = 0) : add x z = x := by
  have hzf : z.isFinite = true := by rw [isFinite, hz, infMag64]; rfl
  unfold add
  rw [not_isNaN_of_isFinite hf, not_isNaN_of_isFinite hzf, not_isInf_of_isFinite hf, not_isInf_of_isFinite hzf,
    (units_zero_iff z).mpr hz, Int.add_zero]
  simp only [Bool.or_self, Bool.false_eq_true, if_false]
  exact ofUnits_units hf hx _

/-- x × 1 = x for a finite x. -/
theorem mul_one_right {x : F64} (hf : x.isFinite = true) : mul x one = x := by
  have h1n : one.isNaN = false := by decide
  have h1i : one.isInf = false := by decide
  have h1s : one.sign = false := by decide
  have h1u : one.units = (one1074 : Int) := units_one
  unfold mul
  rw [not_isNaN_of_isFinite hf, not_isInf_of_isFinite hf, h1n, h1i, h1s, h1u]
  simp only [Bool.or_self, Bool.false_eq_true, if_false]
  by_cases hz : x.mag = 0
  · rw [(units_zero_iff x).mpr hz, Int.zero_mul, ofUnits, if_pos rfl]
    have := ofMag_self x
    rw [hz] at this
    cases hs : x.sign <;> rw [hs] at this <;> simpa using this
  · have hm : x.mag < binary64.infMag := by simpa [isFinite] using hf
    have hpos : (0 : Int) < (one1074 : Int) := by
      have := one1074_pos
      omega
    have hround : binary64.round (x.units * (one1074 : Int)).natAbs one1074 = x.mag := by
      have hn : x.units.natAbs = binary64.units x.mag := by unfold units; split <;> simp
      rw [Int.natAbs_mul, Int.natAbs_natCast, hn]
      rw [FloatFormat.round_scale _ _ one1074_pos, FloatFormat.round_units _ hm]
    have hu : x.units ≠ 0 := fun h => hz ((units_zero_iff x).mp h)
    have hs : decide (x.units * (one1074 : Int) < 0) = x.sign := by
      have hpu : 0 < binary64.units x.mag := Nat.pos_of_ne_zero fun h => hz (units_eq_zero.mp h)
      unfold units
      cases x.sign
      · simp only [Bool.false_eq_true, if_false, decide_eq_false_iff_not]
        have := Int.mul_pos (by omega : (0 : Int) < (binary64.units x.mag : Int)) hpos
        omega
      · simp only [if_true, decide_eq_true_eq]
        exact Int.mul_neg_of_neg_of_pos (by omega) hpos
    unfold ofUnits
    rw [if_neg (Int.mul_ne_zero hu (by omega)), hround, hs]
    exact ofMag_self x

/-! ### Widening an f32 -/

/-- Every integer of at most 53 bits, shifted in the range of the exponent, is the exact value of a finite
magnitude. -/
theorem exists_units {p q : Nat} (hp : p < 2 ^ 53) (hq : q ≤ 2045) :
    ∃ m, m < binary64.infMag ∧ binary64.units m = p * 2 ^ q := by
  by_cases hsub : p * 2 ^ q < 2 ^ 52
  · refine ⟨p * 2 ^ q, by rw [infMag64]; omega, ?_⟩
    simp only [FloatFormat.units, binary64, Nat.div_eq_of_lt hsub, if_true, Nat.mod_eq_of_lt hsub]
  · have hp0 : p ≠ 0 := by rintro rfl; simp at hsub
    have hk : 2 ^ p.log2 ≤ p := Nat.log2_self_le hp0
    have hk' : p < 2 ^ (p.log2 + 1) := Nat.lt_log2_self
    generalize p.log2 = k at hk hk'
    have hk52 : k ≤ 52 := by
      by_contra h
      have := Nat.pow_le_pow_right (n := 2) (by omega) (show 53 ≤ k by omega)
      omega
    have htq : 52 - k ≤ q := by
      by_contra h
      refine hsub (lt_of_lt_of_le (Nat.mul_lt_mul_of_pos_right hk' (Nat.two_pow_pos q)) ?_)
      rw [← Nat.pow_add]
      exact Nat.pow_le_pow_right (by omega) (by omega)
    have hlo : 2 ^ 52 ≤ p * 2 ^ (52 - k) := by
      calc 2 ^ 52 = 2 ^ k * 2 ^ (52 - k) := by rw [← Nat.pow_add]; congr 1; omega
        _ ≤ _ := Nat.mul_le_mul_right _ hk
    have hhi : p * 2 ^ (52 - k) < 2 ^ 53 := by
      calc p * 2 ^ (52 - k) < 2 ^ (k + 1) * 2 ^ (52 - k) :=
            Nat.mul_lt_mul_of_pos_right hk' (Nat.two_pow_pos _)
        _ = 2 ^ 53 := by rw [← Nat.pow_add]; congr 1; omega
    have hval : p * 2 ^ q = p * 2 ^ (52 - k) * 2 ^ (q - (52 - k)) := by
      rw [Nat.mul_assoc, ← Nat.pow_add]; congr 2; omega
    generalize p * 2 ^ (52 - k) = M at hlo hhi hval
    generalize hr : q - (52 - k) = r at hval
    have hdiv : ((r + 1) * 2 ^ 52 + (M - 2 ^ 52)) / 2 ^ 52 = r + 1 := by omega
    have hmod : ((r + 1) * 2 ^ 52 + (M - 2 ^ 52)) % 2 ^ 52 = M - 2 ^ 52 := by omega
    refine ⟨(r + 1) * 2 ^ 52 + (M - 2 ^ 52), by rw [infMag64]; omega, ?_⟩
    simp only [FloatFormat.units, binary64, hdiv, hmod, Nat.add_one_ne_zero, if_false,
      Nat.add_sub_cancel, Nat.add_sub_cancel' hlo, hval]

/-- The exact value of a binary32 magnitude, in units of 2^-149. -/
theorem units32 (m : Nat) :
    binary32.units m =
      if m / 2 ^ 23 = 0 then m % 2 ^ 23 else (2 ^ 23 + m % 2 ^ 23) * 2 ^ (m / 2 ^ 23 - 1) := rfl

/-- Widening is exact (R9): the magnitude of a widened finite f32 has the f32's exact value. -/
theorem widen_units {m : Nat} (h : m < binary32.infMag) :
    binary64.round (binary32.units m * unitRatio) 1 < binary64.infMag ∧
      binary64.units (binary64.round (binary32.units m * unitRatio) 1) = binary32.units m * unitRatio := by
  rw [infMag32] at h
  have hex : ∃ p q, p < 2 ^ 53 ∧ q ≤ 2045 ∧ binary32.units m * unitRatio = p * 2 ^ q := by
    rw [units32, unitRatio]
    by_cases h0 : m / 2 ^ 23 = 0
    · exact ⟨m % 2 ^ 23, 925, by omega, by omega, by rw [if_pos h0]⟩
    · refine ⟨2 ^ 23 + m % 2 ^ 23, m / 2 ^ 23 - 1 + 925, by omega, by omega, ?_⟩
      rw [if_neg h0, Nat.mul_assoc, ← Nat.pow_add]
  obtain ⟨p, q, hp, hq, he⟩ := hex
  obtain ⟨m', hm', hu⟩ := exists_units hp hq
  rw [he, ← hu, binary64.round_units hm']
  exact ⟨hm', rfl⟩

/-- A widened finite f32: sign, and a finite magnitude with the f32's exact value. -/
theorem ofF32_finite {v : F32} (h : v.toNat % 2 ^ 31 < binary32.infMag) :
    (ofF32 v).isFinite = true ∧ (ofF32 v).sign = v.getLsbD 31 ∧
      binary64.units (ofF32 v).mag = binary32.units (v.toNat % 2 ^ 31) * unitRatio := by
  obtain ⟨h1, h2⟩ := widen_units h
  have hlt : binary64.round (binary32.units (v.toNat % 2 ^ 31) * unitRatio) 1 < 2 ^ 63 := by
    rw [infMag64] at h1; omega
  have hv : ofF32 v = ofMag (v.getLsbD 31)
      (binary64.round (binary32.units (v.toNat % 2 ^ 31) * unitRatio) 1) := by
    simp only [ofF32]
    rw [if_neg (by omega), if_neg (by omega)]
  rw [hv, isFinite, mag_ofMag _ hlt, sign_ofMag _ hlt]
  exact ⟨by simpa using h1, rfl, h2⟩

/-- A widened f32 that is not finite is not finite. -/
theorem ofF32_not_finite {v : F32} (h : binary32.infMag ≤ v.toNat % 2 ^ 31) : (ofF32 v).isFinite = false := by
  simp only [ofF32]
  split
  · decide
  · rw [if_pos (by omega), isFinite, inf, mag_ofMag _ (by decide)]
    simp

end Sys2Proof.F64
end

