-- ==== Sys2Proof/Laws/Answers.lean ====
section
/-!
SUPPORT. The model's ways to end a command in the terms of Safety.lean.
-/

namespace Sys2Proof.Machine

/-- `STATUS` with `ANY_VOICE` recomputed, by the slots. -/
theorem statusFor_eq (st : Word) (vs : List Voice) : statusFor st vs = statusWithAnyVoice st (anyVoice vs) := by
  have hmask : ∀ k, (0x00000100#32).getLsbD k = decide (k = 8) := anyVoiceMask_bit
  unfold statusFor
  by_cases h : ∃ w ∈ vs, w.state ≠ .free
  · rw [if_pos h, (anyVoice_iff vs).mpr h]
    apply BitVec.eq_of_getLsbD_eq
    intro k hk
    rw [statusWithAnyVoice_bit _ _ hk, BitVec.getLsbD_or, hmask]
    by_cases h8 : k = 8 <;> simp [h8]
  · have ha : anyVoice vs = false := by
      cases ha : anyVoice vs with
      | false => rfl
      | true => exact absurd ((anyVoice_iff vs).mp ha) h
    rw [if_neg h, ha]
    simp [statusWithAnyVoice, anyVoiceMask]

/-- A completed state. -/
theorem State.complete_def (s : State) : s.complete = { s with status := statusFor s.status s.voices } := by
  rw [statusFor_eq]
  rfl

/-- A normal end. -/
theorem State.done_def (s : State) : s.done = .next { s with status := statusFor s.status s.voices } := by
  rw [← State.complete_def]
  rfl

/-- An error. -/
theorem State.raise_errorState (e : Err) (s : State) : State.raise e s = .next (errorState e.bit s) := by
  rw [State.raise_eq, State.complete_def]
  rfl

/-- `ANY_VOICE` recomputed where it is right. -/
theorem statusFor_self {s : State} (h : s.statusWf) : statusFor s.status s.voices = s.status := by
  rw [statusFor_eq]
  refine statusWithAnyVoice_self ?_
  rw [Bool.eq_iff_iff, h.2, anyVoice_iff]

/-- The region check of NOTEON (R141). -/
theorem regionOk_iff {cfg : Params} {b : Birth} : regionOk cfg b = true ↔ RegionInside cfg b := by
  have h0 : b.smpEnd.toNat ≠ 0 ↔ b.smpEnd ≠ 0#32 :=
    ⟨fun h e => h (by rw [e]; rfl), fun h e => h (BitVec.eq_of_toNat_eq (by simpa using e))⟩
  unfold regionOk RegionInside
  simp only [Bool.and_eq_true, bne_iff_ne, decide_eq_true_eq, Bool.or_eq_true, Bool.not_eq_true', h0]
  cases b.smpLoopEn <;> simp [and_assoc]

/-- The generators that play sample memory. -/
theorem isPcm_iff {d : DspType} : d.isPcm = true ↔ d = .pcm ∨ d = .pcmFixed := by
  cases d <;> simp [DspType.isPcm]

/-! ### Kind f -/

open Sys2Proof.F64

/-- A widened finite f32 has magnitude zero exactly for a zero. -/
theorem ofF32_mag_zero {d : Word} (h : f32Finite d) : (ofF32 d).mag = 0 ↔ d.toNat % 2 ^ 31 = 0 := by
  have h' : d.toNat % 2 ^ 31 < binary32.infMag := by rw [infMag32]; exact h
  rw [← units_eq_zero, (ofF32_finite h').2.2, units32]
  have : unitRatio ≠ 0 := by rw [unitRatio]; exact (Nat.two_pow_pos _).ne'
  rw [Nat.mul_eq_zero, or_iff_left this]
  split
  · omega
  · rw [Nat.mul_eq_zero, or_iff_left (Nat.two_pow_pos _).ne']; omega

/-- The sign bit of a word is its value's highest bit. -/
theorem getLsbD_31 (d : Word) : d.getLsbD 31 = decide (2 ^ 31 ≤ d.toNat) := by
  have := d.isLt
  rw [BitVec.getLsbD, Nat.testBit_eq_decide_div_mod_eq]
  congr 1
  apply propext
  omega

/-- Kind f accepts a finite pattern whose value is legal (R82). -/
theorem assembleF_some {legal : F64 → Bool} {d : Word} (h : f32Finite d) (hl : legal (ofF32 d) = true) :
    assembleF legal d = some (ofF32 d) := by
  have h' : d.toNat % 2 ^ 31 < binary32.infMag := by rw [infMag32]; exact h
  simp [assembleF, hl, (ofF32_finite h').1]

/-- Kind f refuses every other pattern (R82). -/
theorem assembleF_none {legal : F64 → Bool} {d : Word} (h : ¬ (f32Finite d ∧ legal (ofF32 d) = true)) :
    assembleF legal d = none := by
  by_cases hf : f32Finite d
  · have hl : legal (ofF32 d) = false := by
      cases hv : legal (ofF32 d) with
      | false => rfl
      | true => exact absurd ⟨hf, hv⟩ h
    simp [assembleF, hl]
  · have h' : binary32.infMag ≤ d.toNat % 2 ^ 31 := by rw [infMag32]; exact Nat.le_of_not_lt hf
    simp [assembleF, ofF32_not_finite h']

/-- The finite widened patterns above 0 (R22, R33). -/
theorem positive_iff {d : Word} : f32Finite d ∧ isPositive (ofF32 d) = true ↔ f32Positive d := by
  have hd := d.isLt
  constructor
  · rintro ⟨h, hp⟩
    have h' : d.toNat % 2 ^ 31 < binary32.infMag := by rw [infMag32]; exact h
    have hz := ofF32_mag_zero h
    have hs := (ofF32_finite h').2.1
    rw [getLsbD_31] at hs
    simp only [isPositive, lt, Bool.and_eq_true, key] at hp
    have hk := of_decide_eq_true hp.2
    rw [show F64.zero.sign = false by decide, show F64.zero.mag = 0 by decide, hs] at hk
    unfold f32Finite at h
    unfold f32Positive
    generalize (ofF32 d).mag = m at hk hz
    by_cases hb : 2 ^ 31 ≤ d.toNat
    · rw [decide_eq_true hb] at hk
      simp only [if_true, Bool.false_eq_true, if_false] at hk
      omega
    · rw [decide_eq_false hb] at hk
      simp only [Bool.false_eq_true, if_false] at hk
      omega
  · rintro ⟨h1, h2⟩
    have h : f32Finite d := by unfold f32Finite; omega
    have h' : d.toNat % 2 ^ 31 < binary32.infMag := by rw [infMag32]; exact h
    have hz := ofF32_mag_zero h
    have hs := (ofF32_finite h').2.1
    rw [getLsbD_31, show decide (2 ^ 31 ≤ d.toNat) = false by simp; omega] at hs
    refine ⟨h, ?_⟩
    simp only [isPositive, lt, key, not_isNaN_of_isFinite (ofF32_finite h').1, hs,
      show F64.zero.isNaN = false by decide, show F64.zero.sign = false by decide,
      show F64.zero.mag = 0 by decide]
    simp
    omega

/-- The finite widened patterns of at least 0 (R22). -/
theorem nonNegative_iff {d : Word} : f32Finite d ∧ isNonNegative (ofF32 d) = true ↔ f32NonNegative d := by
  have hd := d.isLt
  have key' (h : f32Finite d) : isNonNegative (ofF32 d) = true ↔ (d.toNat < 2 ^ 31 ∨ d.toNat % 2 ^ 31 = 0) := by
    have h' : d.toNat % 2 ^ 31 < binary32.infMag := by rw [infMag32]; exact h
    have hz := ofF32_mag_zero h
    have hs := (ofF32_finite h').2.1
    rw [getLsbD_31] at hs
    simp only [isNonNegative, le, key, not_isNaN_of_isFinite (ofF32_finite h').1, hs,
      show F64.zero.isNaN = false by decide, show F64.zero.sign = false by decide,
      show F64.zero.mag = 0 by decide]
    by_cases hb : 2 ^ 31 ≤ d.toNat
    · simp; omega
    · simp; omega
  unfold f32NonNegative
  constructor
  · rintro ⟨h, hp⟩
    rw [key' h] at hp
    unfold f32Finite at h
    omega
  · intro hp
    have h : f32Finite d := by unfold f32Finite; omega
    exact ⟨h, (key' h).2 (by omega)⟩

end Sys2Proof.Machine
end

