-- ==== Sys2Proof/Laws/Decode.lean ====
section
/-!
SUPPORT. The header's fields read back, and the header put together from its fields (R81).
-/

namespace Sys2Proof

section Header

variable (op sel : BitVec 8) (ch : BitVec 4) (voice : BitVec 8)

/-- A header as one number. -/
theorem header_toNat :
    (header op sel ch voice).toNat =
      op.toNat * 2 ^ 24 + sel.toNat * 2 ^ 16 + ch.toNat * 2 ^ 12 + voice.toNat := by
  have h1 := sel.isLt; have h2 := ch.isLt; have h3 := voice.isLt
  have h0 : (0#4).toNat < 2 ^ 4 := by decide
  simp only [header, BitVec.toNat_append]
  rw [← Nat.shiftLeft_add_eq_or_of_lt h1, ← Nat.shiftLeft_add_eq_or_of_lt h2,
    ← Nat.shiftLeft_add_eq_or_of_lt h0, ← Nat.shiftLeft_add_eq_or_of_lt h3]
  simp only [Nat.shiftLeft_eq, BitVec.toNat_ofNat]
  omega

@[simp] theorem headerOp_header : headerOp (header op sel ch voice) = op := by
  apply BitVec.eq_of_toNat_eq
  have h1 := sel.isLt; have h2 := ch.isLt; have h3 := voice.isLt; have h4 := op.isLt
  rw [headerOp, BitVec.extractLsb'_toNat, header_toNat, Nat.shiftRight_eq_div_pow]
  omega

@[simp] theorem headerSel_header : headerSel (header op sel ch voice) = sel := by
  apply BitVec.eq_of_toNat_eq
  have h1 := sel.isLt; have h2 := ch.isLt; have h3 := voice.isLt
  rw [headerSel, BitVec.extractLsb'_toNat, header_toNat, Nat.shiftRight_eq_div_pow]
  omega

@[simp] theorem headerCh_header : headerCh (header op sel ch voice) = ch := by
  apply BitVec.eq_of_toNat_eq
  have h2 := ch.isLt; have h3 := voice.isLt
  rw [headerCh, BitVec.extractLsb'_toNat, header_toNat, Nat.shiftRight_eq_div_pow]
  omega

@[simp] theorem headerRsv_header : headerRsv (header op sel ch voice) = 0#4 := by
  apply BitVec.eq_of_toNat_eq
  have h3 := voice.isLt
  rw [headerRsv, BitVec.extractLsb'_toNat, header_toNat, Nat.shiftRight_eq_div_pow, BitVec.toNat_ofNat]
  omega

@[simp] theorem headerVoice_header : headerVoice (header op sel ch voice) = voice := by
  apply BitVec.eq_of_toNat_eq
  have h3 := voice.isLt
  rw [headerVoice, BitVec.extractLsb'_toNat, header_toNat, Nat.shiftRight_eq_div_pow]
  omega

/-- A header whose `RSV` is zero is the header of its fields. -/
theorem header_of_fields {h : Word} (hr : headerRsv h = 0#4) :
    header (headerOp h) (headerSel h) (headerCh h) (headerVoice h) = h := by
  apply BitVec.eq_of_toNat_eq
  have hl := h.isLt
  have hr' := congrArg BitVec.toNat hr
  rw [header_toNat]
  simp only [headerOp, headerSel, headerCh, headerRsv, headerVoice, BitVec.extractLsb'_toNat,
    Nat.shiftRight_eq_div_pow, BitVec.toNat_ofNat] at hr' ⊢
  omega

end Header

/-- The checks of one opcode are passed exactly when none of them fails. -/
theorem decodeChecked_ok_iff {unused z : Bool} {sels : Option Nat} {sel : BitVec 8} {d : Word} {i j : Instr} :
    decodeChecked unused z sels sel d i = .ok j ↔
      unused = false ∧ (z = true → d = 0#32) ∧ (∀ n ∈ sels, sel.toNat < n) ∧ i = j := by
  unfold decodeChecked
  cases unused <;> cases z <;> cases sels <;> by_cases hd : d = 0#32 <;> simp [hd]
  all_goals
    next n =>
      by_cases hn : n ≤ sel.toNat
      · simp [hn]
      · simp [hn]; omega

/-- Decoding answers a command only for a defined opcode and a zero `RSV`. -/
theorem decode_ok_iff {h d : Word} {i : Instr} :
    decode h d = .ok i ↔
      (headerOp h).toNat < 0x0D ∧ headerRsv h = 0#4 ∧
        decodeFields (headerOp h) (headerSel h) (headerCh h) (headerVoice h) d = .ok i := by
  unfold decode
  by_cases h1 : 0x0D ≤ (headerOp h).toNat
  · simp only [h1, if_true, reduceCtorEq, false_iff]; omega
  · by_cases h2 : headerRsv h = 0#4
    · simp [h1, h2]; omega
    · simp [h1, h2]

end Sys2Proof
end

