-- ==== Sys2Proof/Laws/Process.lean ====
section
/-!
SUPPORT. What a PROCESS does to each slot, to each channel and to output memory.
-/

namespace Sys2Proof.Machine

/-- The reclaim touches neither the channels nor output memory. -/
theorem processBlock_chans_outMem (n : Nat) (s : State) :
    (processBlock n s).chans = (allChannels.foldl (processChannel n) s).chans ∧
      (processBlock n s).outMem = (allChannels.foldl (processChannel n) s).outMem := by
  unfold processBlock
  generalize allChannels.foldl (processChannel n) s = t
  exact ⟨rfl, rfl⟩

/-! ### Slots -/

/-- What rendering a block makes of slot j. -/
def renderedSlot (e : Env) (n j : Nat) (w : Voice) : Voice :=
  if w.state = .free then w else (renderVoice e j n w (List.replicate n Stereo.zero)).1

theorem renderedSlot_sameNote (e : Env) (n j : Nat) (w : Voice) : SameNote w (renderedSlot e n j w) := by
  unfold renderedSlot
  split
  · exact .refl w
  · exact renderVoice_sameNote e j n w _

/-- One channel's part renders the channel's slots. -/
theorem processChannel_slot (n : Nat) (s : State) (c : BitVec 4) (j : Nat) :
    (processChannel n s c).voices[j]? =
      s.voices[j]?.map fun w => if w.ch = c then renderedSlot s.env n j w else w := by
  simp only [processChannel, renderSlots_getElem?, List.length_replicate, Nat.zero_add]
  congr 1
  funext w
  simp only [rendersInto, renderedSlot]
  by_cases hf : w.state = .free <;> by_cases hc : w.ch = c <;> simp [hf, hc]

/-- The channels of a PROCESS render each of their slots once. -/
theorem processChannels_slot (n : Nat) (s : State) (cs : List (BitVec 4)) (hd : cs.Nodup) (j : Nat) :
    (cs.foldl (processChannel n) s).voices[j]? =
      s.voices[j]?.map fun w => if w.ch ∈ cs then renderedSlot s.env n j w else w := by
  induction cs generalizing s with
  | nil => simp
  | cons c cs ih =>
    rw [List.foldl_cons, ih _ (List.nodup_cons.mp hd).2, processChannel_slot, processChannel_env,
      Option.map_map]
    congr 1
    funext w
    simp only [Function.comp]
    by_cases hc : w.ch = c
    · have hn : w.ch ∉ cs := hc ▸ (List.nodup_cons.mp hd).1
      simp [hc, (renderedSlot_sameNote s.env n j w).2.1, (List.nodup_cons.mp hd).1]
    · simp [hc]

/-- Every channel is one of the sixteen. -/
theorem mem_allChannels (c : BitVec 4) : c ∈ allChannels := by
  have h : ∀ c : BitVec 4, c ∈ allChannels := by decide
  exact h c

theorem allChannels_nodup : allChannels.Nodup := by decide

/-- Each slot after a PROCESS: rendered, if it is not FREE, and reclaimed (R230, R238). -/
theorem processBlock_slot (n : Nat) (s : State) (j : Nat) :
    (processBlock n s).voices[j]? = s.voices[j]?.map fun w => reclaimSlot (renderedSlot s.env n j w) := by
  simp only [processBlock, List.getElem?_map, processChannels_slot n s allChannels allChannels_nodup,
    Option.map_map]
  congr 1
  funext w
  simp [mem_allChannels]

/-- What holds of every slot rendered and reclaimed holds of every slot after a PROCESS. -/
theorem processBlock_forall {n : Nat} {s : State} {P : Voice → Prop}
    (h : ∀ j w, s.voices[j]? = some w → P (reclaimSlot (renderedSlot s.env n j w))) :
    ∀ w ∈ (processBlock n s).voices, P w := by
  intro w hw
  obtain ⟨j, hj⟩ := List.mem_iff_getElem?.mp hw
  rw [processBlock_slot] at hj
  cases ho : s.voices[j]? with
  | none => rw [ho] at hj; cases hj
  | some u => rw [ho] at hj; cases hj; exact h j u ho

/-! ### Channels -/

/-- The buffer a channel's voices are rendered into is the fold of R230's loop over the slots. -/
theorem renderSlots_acc (e : Env) (c : BitVec 4) (n slot : Nat) (vs : List Voice) (acc : List Stereo) :
    (renderSlots e c n slot vs acc).2 =
      (vs.zipIdx slot).foldl
        (fun acc p => if p.1.state ≠ .free ∧ p.1.ch = c then (renderVoice e p.2 n p.1 acc).2 else acc) acc := by
  induction vs generalizing slot acc with
  | nil => rfl
  | cons v vs ih =>
    simp only [renderSlots, ih, List.zipIdx_cons, List.foldl_cons]
    congr 1
    by_cases hf : v.state = .free <;> by_cases hc : v.ch = c <;> simp [rendersInto, hf, hc]

theorem dryBlock_eq (s : State) (n : Nat) (c : BitVec 4) :
    dryBlock s n c = (renderSlots s.env c n 0 s.voices (List.replicate n Stereo.zero)).2 :=
  (renderSlots_acc s.env c n 0 s.voices _).symm

@[simp] theorem dryBlock_length (s : State) (n : Nat) (c : BitVec 4) : (dryBlock s n c).length = n := by
  simp [dryBlock_eq]

@[simp] theorem wetBlock_length (s : State) (n : Nat) (c : BitVec 4) : (wetBlock s n c).2.length = n := by
  simp [wetBlock]

/-- What another channel's voices become is nothing to a channel's buffer. -/
theorem renderSlots_acc_other (e e' : Env) (c d : BitVec 4) (hd : d ≠ c) (n slot : Nat) (vs : List Voice)
    (acc acc' : List Stereo) :
    (renderSlots e d n slot (renderSlots e' c n slot vs acc').1 acc).2 = (renderSlots e d n slot vs acc).2 := by
  induction vs generalizing slot acc acc' with
  | nil => rfl
  | cons v vs ih =>
    simp only [renderSlots, ih]
    congr 1
    by_cases hc : v.ch = c
    · have hr : rendersInto d v = false := by simp [rendersInto, hc, Ne.symm hd]
      have hr' : rendersInto d (if rendersInto c v = true then renderVoice e' slot n v acc' else (v, acc')).1
          = false := by
        split
        · simp [rendersInto, (renderVoice_sameNote e' slot n v acc').2.1, hc, Ne.symm hd]
        · exact hr
      rw [hr', hr]
      rfl
    · rw [if_neg (show ¬ rendersInto c v = true by simp [rendersInto, hc])]

/-- One channel's part leaves what another channel will hear. -/
theorem processChannel_dryBlock (n : Nat) (s : State) {c d : BitVec 4} (hd : d ≠ c) :
    dryBlock (processChannel n s c) n d = dryBlock s n d := by
  rw [dryBlock_eq, dryBlock_eq, processChannel_env]
  exact renderSlots_acc_other s.env s.env c d hd n 0 s.voices _ _

theorem processChannel_wetBlock (n : Nat) (s : State) {c d : BitVec 4} (hd : d ≠ c) :
    wetBlock (processChannel n s c) n d = wetBlock s n d := by
  simp only [wetBlock, processChannel_dryBlock n s hd, processChannel_chan, if_neg hd]
  rfl

/-- One channel's part: its reverb has run over what its voices gave, its buffer holds the result, and the
result is mixed into output memory. -/
theorem processChannel_eq (n : Nat) (s : State) (c : BitVec 4) :
    (processChannel n s c).chan c =
      { (wetBlock s n c).1 with acc := (wetBlock s n c).1.acc.putFrom 0 (wetBlock s n c).2 } ∧
    (processChannel n s c).outMem = mixBlock s.freeTag c.toNat 0 s.outMem (wetBlock s n c).2 := by
  refine ⟨?_, ?_⟩
  · rw [processChannel_chan, if_pos rfl, wetBlock, dryBlock_eq]
  · rw [wetBlock, dryBlock_eq]
    rfl

/-- The channels and output memory after some channels are processed. -/
theorem processChannels_eq (n : Nat) (s : State) (cs : List (BitVec 4)) (hd : cs.Nodup) :
    (∀ d, (cs.foldl (processChannel n) s).chan d =
      if d ∈ cs then
        { (wetBlock s n d).1 with acc := (wetBlock s n d).1.acc.putFrom 0 (wetBlock s n d).2 }
      else s.chan d) ∧
    (cs.foldl (processChannel n) s).outMem =
      cs.foldl (fun m c => mixBlock s.freeTag c.toNat 0 m (wetBlock s n c).2) s.outMem := by
  induction cs generalizing s with
  | nil => simp
  | cons c cs ih =>
    obtain ⟨hc, hcs⟩ := List.nodup_cons.mp hd
    obtain ⟨ih1, ih2⟩ := ih (processChannel n s c) hcs
    refine ⟨fun d => ?_, ?_⟩
    · rw [List.foldl_cons, ih1]
      by_cases hdc : d = c
      · subst hdc
        rw [if_neg hc, if_pos List.mem_cons_self, (processChannel_eq n s d).1]
      · simp only [List.mem_cons, hdc, false_or, processChannel_wetBlock n s hdc, processChannel_chan, if_false]
    · rw [List.foldl_cons, ih2, List.foldl_cons, (processChannel_eq n s c).2]
      refine List.foldl_ext _ _ _ fun m d hm => ?_
      rw [processChannel_wetBlock n s (ne_of_mem_of_not_mem hm hc)]
      rfl

/-- Each channel after a PROCESS: its reverb has run over what its voices gave, and its buffer holds the result
(R230, R234). -/
theorem processBlock_chan (n : Nat) (s : State) (d : BitVec 4) :
    (processBlock n s).chan d =
      { (wetBlock s n d).1 with acc := (wetBlock s n d).1.acc.putFrom 0 (wetBlock s n d).2 } := by
  refine (State.chan_congr (processBlock_chans_outMem n s).1 d).trans ?_
  rw [(processChannels_eq n s allChannels allChannels_nodup).1, if_pos (mem_allChannels d)]

/-- Output memory after a PROCESS: the channels mixed into it, in order (R230, R235). -/
theorem processBlock_outMem (n : Nat) (s : State) :
    (processBlock n s).outMem =
      allChannels.foldl (fun m c => mixBlock s.freeTag c.toNat 0 m (wetBlock s n c).2) s.outMem :=
  (processBlock_chans_outMem n s).2.trans (processChannels_eq n s allChannels allChannels_nodup).2

/-! ### Reverb -/

/-- The registers and the buffer of a channel after a block of reverb. -/
theorem reverbBlock_registers (cfg : Params) (g : Globals) (c : Channel) (xs : List Stereo) :
    (reverbBlock cfg g c xs).1.args = c.args ∧ (reverbBlock cfg g c xs).1.reverbType = c.reverbType ∧
      (reverbBlock cfg g c xs).1.reverbIntensity = c.reverbIntensity ∧
      (reverbBlock cfg g c xs).1.acc = c.acc :=
  reverbBlock_keeps cfg g (fun d => d.args = c.args ∧ d.reverbType = c.reverbType ∧
      d.reverbIntensity = c.reverbIntensity ∧ d.acc = c.acc)
    (fun d x ⟨h1, h2, h3, h4⟩ => by
      obtain ⟨k1, k2, k3, k4⟩ := reverbSample_registers cfg g d x
      exact ⟨k1.trans h1, k2.trans h2, k3.trans h3, k4.trans h4⟩) ⟨rfl, rfl, rfl, rfl⟩ xs

/-- The base cursor after a block: as many places on as the block has samples (R212, R220). -/
theorem reverbBlock_cur0 {cfg : Params} {g : Globals} {c : Channel} (h : c.reverbType = .base)
    (hc : c.cur0 < ring0Len cfg g) (xs : List Stereo) :
    (reverbBlock cfg g c xs).1.cur0 = (c.cur0 + xs.length) % ring0Len cfg g := by
  induction xs generalizing c with
  | nil => simp [reverbBlock, Nat.mod_eq_of_lt hc]
  | cons x xs ih =>
    have hs : (reverbSample cfg g c x).1.cur0 = (c.cur0 + 1) % ring0Len cfg g := by
      simp [reverbSample, h, reverbBase]
    simp only [reverbBlock]
    rw [ih ((reverbSample_registers cfg g c x).2.1.trans h) (by rw [hs]; exact Nat.mod_lt _ (by omega)), hs,
      Nat.mod_add_mod, List.length_cons]
    congr 1
    omega

/-- A variant's cursors after a block. -/
theorem reverbBlock_cur12 {cfg : Params} {g : Globals} {c : Channel} {x : Variant}
    (h : c.reverbType = .variant x) (h1 : c.cur1 < revLen1 x cfg g) (h2 : c.cur2 < revLen2 x cfg g)
    (xs : List Stereo) :
    (reverbBlock cfg g c xs).1.cur1 = (c.cur1 + xs.length) % revLen1 x cfg g ∧
      (reverbBlock cfg g c xs).1.cur2 = (c.cur2 + xs.length) % revLen2 x cfg g := by
  induction xs generalizing c with
  | nil => simp [reverbBlock, Nat.mod_eq_of_lt h1, Nat.mod_eq_of_lt h2]
  | cons y xs ih =>
    have hs1 : (reverbSample cfg g c y).1.cur1 = (c.cur1 + 1) % revLen1 x cfg g := by
      simp [reverbSample, h, reverbVariant]
    have hs2 : (reverbSample cfg g c y).1.cur2 = (c.cur2 + 1) % revLen2 x cfg g := by
      simp [reverbSample, h, reverbVariant]
    obtain ⟨i1, i2⟩ := ih ((reverbSample_registers cfg g c y).2.1.trans h)
      (by rw [hs1]; exact Nat.mod_lt _ (by omega)) (by rw [hs2]; exact Nat.mod_lt _ (by omega))
    simp only [reverbBlock]
    rw [i1, i2, hs1, hs2, Nat.mod_add_mod, Nat.mod_add_mod, List.length_cons]
    exact ⟨by congr 1; omega, by congr 1; omega⟩

/-- With no reverb a block leaves the channel and its samples. -/
theorem reverbBlock_off {cfg : Params} {g : Globals} {c : Channel} (h : c.reverbType = .off)
    (xs : List Stereo) : reverbBlock cfg g c xs = (c, xs) := by
  induction xs with
  | nil => rfl
  | cons x xs ih => simp [reverbBlock, reverbSample, h, ih]

/-! ### Output memory -/

/-- A PROCESS of n samples leaves every byte from element 2n on (R236). -/
theorem processBlock_readByte (n : Nat) (s : State) {a : Nat} (ha : 8 * n ≤ a) :
    (processBlock n s).outMem.readByte a = s.outMem.readByte a := by
  rw [(processBlock_chans_outMem n s).2]
  exact processChannels_keeps n (fun t => t.outMem.readByte a = s.outMem.readByte a)
    (fun t c ht => by
      refine Eq.trans ?_ ht
      simp only [processChannel]
      exact mixBlock_other _ _ _ _ _ (.inr (by simpa using ha))) rfl allChannels

/-- A PROCESS of a legal count keeps output memory in canonical form. -/
theorem processBlock_outMem_wf {n : Nat} {s : State} (hn : n ≤ s.cfg.blockMax)
    (h : s.outMem.wf (outWords s.cfg) = true) : (processBlock n s).outMem.wf (outWords s.cfg) = true := by
  rw [(processBlock_chans_outMem n s).2]
  exact processChannels_keeps n (fun t => t.outMem.wf (outWords s.cfg) = true)
    (fun t c ht => mixBlock_wf _ _ _ ht _ (by simp [outWords]; omega)) h allChannels

/-! ### PROCESS as a command -/

/-- A PROCESS of a legal count completes with the work of R230. -/
theorem exec_process {n : Word} {s : State} (h1 : 1 ≤ n.toNat) (h2 : n.toNat ≤ s.cfg.blockMax) :
    exec (.process n) s = (processBlock n.toNat s).done := by
  simp only [exec, execProcess]
  rw [if_neg (by omega)]

/-- A rendered sample never sets or clears `RELEASED`. -/
theorem voiceSample_released (e : Env) (slot : Nat) (fresh : Bool) (j n : Nat) (v : Voice) :
    (voiceSample e slot fresh j n v).1.rt.released = v.rt.released := by
  have h0 := (frameStepIfDue_sameGrid e v).2.2.2.2
  rcases voiceSample_cases e slot fresh j n v with ⟨_, h⟩ | ⟨_, w, y, hs, h⟩
  · rw [h]
    exact h0
  · rw [h]
    refine ((endOfStream_sameGrid j n _).2.2.2.2).trans ?_
    have : (advanceCounters e.glob w).rt.released = w.rt.released := by
      unfold advanceCounters
      simp only []
      split <;> rfl
    rw [this, hs.1.2.2.2.2, h0]

end Sys2Proof.Machine
end

