-- ==== Sys2Proof/Laws/Effect.lean ====
section
/-!
SUPPORT. What a command's effect is for one slot and for the global registers, and that every command
completes.
-/

namespace Sys2Proof.Machine

/-- How a command may change one slot. -/
inductive SlotChange (s : State) (j : Nat) (w w' : Voice) : Prop where
  | same (h : w' = w)
  | birth (hf : w.state = .free) (r : VoiceReg) (d : Word) (b : Birth) (hb : w.birth.write r d = some b)
      (h : w' = { w with birth := b })
  | created (hf : w.state = .free) (hd : w.birth.dspType ≠ .none)
      (hr : w.birth.dspType.isPcm = true → regionOk s.cfg w.birth = true) (ch : BitVec 4) (off : Word)
      (h : w' = newVoice ch (s.chan ch).args s.glob.seq off w)
  | released (hf : w.state ≠ .free) (h : w' = w.release)
  | killed (hf : w.state ≠ .free) (h : w' = w.kill)
  | args (hf : w.state ≠ .free) (h : w' = { w with argp := (s.chan w.ch).args })
  | rendered (n : Nat) (h : w' = reclaimSlot (renderedSlot s.env n j w))

/-- A slot after one slot is replaced. -/
theorem set_slot {s : State} {v j : Nat} {w1 w' : Voice}
    (h : (s.voices.set v w1)[j]? = some w') : s.voices[j]? = some w' ∨ (j = v ∧ w' = w1) := by
  rw [List.getElem?_set] at h
  split at h
  · next e =>
    split at h
    · cases h; exact .inr ⟨e.symm, rfl⟩
    · cases h
  · exact .inl h

/-- A live slot is not FREE (R31). -/
theorem live_not_free {w : Voice} (h : w.state.live = true) : w.state ≠ .free := by
  intro e; rw [e] at h; cases h

/-- A slot after NOTEOFF's release: as before, or a candidate released (R240). -/
theorem releaseOldest_slot (ch : BitVec 4) (key seq : Nat) (vs : List Voice) (j : Nat) (w' : Voice)
    (h : (releaseOldest ch key seq vs)[j]? = some w') :
    vs[j]? = some w' ∨ ∃ w, vs[j]? = some w ∧ noteoffCandidate ch key w = true ∧ w' = w.release := by
  induction vs generalizing j with
  | nil => cases h
  | cons v vs ih =>
    simp only [releaseOldest] at h
    split at h
    · next hc =>
      cases j with
      | zero =>
        simp only [List.getElem?_cons_zero, Option.some.injEq] at h
        simp only [Bool.and_eq_true] at hc
        exact .inr ⟨v, rfl, hc.1, h.symm⟩
      | succ j => exact .inl h
    · cases j with
      | zero => exact .inl h
      | succ j => exact ih j h

/-- Every slot after a command's effect, by what changed it. -/
theorem effect_slot {i : Instr} {s u : State} (h : Effect i s u) {j : Nat} {w' : Voice} (hj : u.voices[j]? = some w') :
    ∃ w, s.voices[j]? = some w ∧ SlotChange s j w w' := by
  cases i with
  | nop => cases h; exact ⟨_, hj, .same rfl⟩
  | setv =>
    obtain ⟨r, w, b, _, hw, hf, hb, rfl⟩ := h
    obtain h | ⟨rfl, rfl⟩ := set_slot hj
    · exact ⟨_, h, .same rfl⟩
    · exact ⟨w, hw, .birth hf r _ b hb rfl⟩
  | noteon ch v off =>
    obtain ⟨w, hw, hf, ⟨_, rfl⟩ | ⟨hd, hr, rfl⟩⟩ := h
    · exact ⟨_, hj, .same rfl⟩
    · obtain h | ⟨rfl, rfl⟩ := set_slot hj
      · exact ⟨_, h, .same rfl⟩
      · exact ⟨w, hw, .created hf hd hr ch off rfl⟩
  | release =>
    obtain ⟨w, hw, hf, rfl⟩ := h
    obtain h | ⟨rfl, rfl⟩ := set_slot hj
    · exact ⟨_, h, .same rfl⟩
    · exact ⟨w, hw, .released hf rfl⟩
  | kill =>
    obtain ⟨w, hw, hf, rfl⟩ := h
    obtain h | ⟨rfl, rfl⟩ := set_slot hj
    · exact ⟨_, h, .same rfl⟩
    · exact ⟨w, hw, .killed hf rfl⟩
  | updargs =>
    obtain ⟨w, hw, hf, rfl⟩ := h
    obtain h | ⟨rfl, rfl⟩ := set_slot hj
    · exact ⟨_, h, .same rfl⟩
    · exact ⟨w, hw, .args hf rfl⟩
  | updargsCh ch =>
    cases h
    simp only [List.getElem?_map, Option.map_eq_some_iff] at hj
    obtain ⟨w, hw, rfl⟩ := hj
    refine ⟨w, hw, ?_⟩
    unfold updargsSlot
    split
    · next hl => obtain ⟨hl, rfl⟩ := hl; exact .args (live_not_free hl) rfl
    · exact .same rfl
  | setc => obtain ⟨r, c, _, _, rfl⟩ := h; exact ⟨_, hj, .same rfl⟩
  | setg => obtain ⟨r, c, _, _, _, rfl⟩ := h; exact ⟨_, hj, .same rfl⟩
  | process n =>
    obtain ⟨_, hn, rfl⟩ := h
    rw [processBlock_slot, Option.map_eq_some_iff] at hj
    obtain ⟨w, hw, rfl⟩ := hj
    exact ⟨w, hw, .rendered _ rfl⟩
  | noteoff ch key =>
    obtain ⟨_, rfl⟩ | ⟨q, _, rfl⟩ := h
    · exact ⟨_, hj, .same rfl⟩
    · obtain h | ⟨w, hw, hc, rfl⟩ := releaseOldest_slot _ _ _ _ _ _ hj
      · exact ⟨_, h, .same rfl⟩
      · refine ⟨w, hw, .released ?_ rfl⟩
        simp only [noteoffCandidate, Bool.and_eq_true] at hc
        exact live_not_free hc.1.1.1
  | alloff =>
    cases h
    simp only [List.getElem?_map, Option.map_eq_some_iff] at hj
    obtain ⟨w, hw, rfl⟩ := hj
    refine ⟨w, hw, ?_⟩
    unfold alloffSlot
    split
    · exact .same rfl
    · next hf => exact .killed hf rfl
  | clrstat m => obtain ⟨_, rfl⟩ := h; exact ⟨_, hj, .same rfl⟩
  | rdvoice => obtain ⟨it, w, _, _, rfl⟩ := h; exact ⟨_, hj, .same rfl⟩

/-- The configuration is no command's; `SPF` is only SETG's, while every slot is FREE (R45, R245). -/
theorem effect_glob {i : Instr} {s u : State} (h : Effect i s u) :
    u.cfg = s.cfg ∧ (u.glob.spf = s.glob.spf ∨
      (1 ≤ u.glob.spf.toNat ∧ anyVoice s.voices = false ∧ u.voices = s.voices)) := by
  cases i with
  | nop => cases h; exact ⟨rfl, .inl rfl⟩
  | setv => obtain ⟨r, w, b, _, _, _, _, rfl⟩ := h; exact ⟨rfl, .inl rfl⟩
  | noteon => obtain ⟨w, _, _, ⟨_, rfl⟩ | ⟨_, _, rfl⟩⟩ := h <;> exact ⟨rfl, .inl rfl⟩
  | release => obtain ⟨w, _, _, rfl⟩ := h; exact ⟨rfl, .inl rfl⟩
  | kill => obtain ⟨w, _, _, rfl⟩ := h; exact ⟨rfl, .inl rfl⟩
  | updargs => obtain ⟨w, _, _, rfl⟩ := h; exact ⟨rfl, .inl rfl⟩
  | updargsCh => cases h; exact ⟨rfl, .inl rfl⟩
  | setc => obtain ⟨r, c, _, _, rfl⟩ := h; exact ⟨rfl, .inl rfl⟩
  | setg sel d =>
    obtain ⟨r, c, hr, hs, hw, rfl⟩ := h
    cases r with
    | spf =>
      simp only [Globals.write] at hw
      split at hw
      · cases hw
      · next hn => cases hw; exact ⟨rfl, .inr ⟨by simp; omega, hs rfl, rfl⟩⟩
    | outputGain =>
      simp only [Globals.write, Option.map_eq_some_iff] at hw
      obtain ⟨x, _, rfl⟩ := hw
      exact ⟨rfl, .inl rfl⟩
    | sampleRate =>
      simp only [Globals.write, Option.map_eq_some_iff] at hw
      obtain ⟨x, _, rfl⟩ := hw
      exact ⟨rfl, .inl rfl⟩
    | bpm =>
      simp only [Globals.write, Option.map_eq_some_iff] at hw
      obtain ⟨x, _, rfl⟩ := hw
      exact ⟨rfl, .inl rfl⟩
  | process n =>
    obtain ⟨_, hn, rfl⟩ := h
    exact ⟨(processBlock_frame n.toNat s).1, .inl (by rw [(processBlock_frame n.toNat s).2.1])⟩
  | noteoff => obtain ⟨_, rfl⟩ | ⟨q, _, rfl⟩ := h <;> exact ⟨rfl, .inl rfl⟩
  | alloff => cases h; exact ⟨rfl, .inl rfl⟩
  | clrstat m => obtain ⟨_, rfl⟩ := h; exact ⟨rfl, .inl rfl⟩
  | rdvoice => obtain ⟨it, w, _, _, rfl⟩ := h; exact ⟨rfl, .inl rfl⟩

/-- Every command completes in every state (R272). -/
theorem exec_total (i : Instr) (s : State) : ∃ t, exec i s = .next t := by
  have ws : ∀ (v : BitVec 8) (s : State) (k : Voice → Host.Outcome State Fault Refusal),
      (∀ w, ∃ t, k w = .next t) → ∃ t, State.withSlot v s k = .next t := by
    intro v s k h
    unfold State.withSlot; split
    · exact ⟨_, rfl⟩
    · exact h _
  cases i with
  | nop => exact ⟨_, rfl⟩
  | setv sel v d =>
    simp only [exec, execSetv]; split
    · exact ⟨_, rfl⟩
    · refine ws _ _ _ fun w => ?_
      split
      · exact ⟨_, rfl⟩
      · split <;> exact ⟨_, rfl⟩
  | noteon =>
    refine ws _ _ _ fun w => ?_
    split
    · exact ⟨_, rfl⟩
    · split
      · exact ⟨_, rfl⟩
      · split <;> exact ⟨_, rfl⟩
  | release => refine ws _ _ _ fun w => ?_; split <;> exact ⟨_, rfl⟩
  | kill => refine ws _ _ _ fun w => ?_; split <;> exact ⟨_, rfl⟩
  | updargs => refine ws _ _ _ fun w => ?_; split <;> exact ⟨_, rfl⟩
  | updargsCh => exact ⟨_, rfl⟩
  | setc sel ch d =>
    simp only [exec, execSetc]; split
    · exact ⟨_, rfl⟩
    · split <;> exact ⟨_, rfl⟩
  | setg sel d =>
    simp only [exec, execSetg]; split
    · exact ⟨_, rfl⟩
    · split
      · exact ⟨_, rfl⟩
      · split <;> exact ⟨_, rfl⟩
  | process n => simp only [exec, execProcess]; split <;> exact ⟨_, rfl⟩
  | noteoff ch k => simp only [exec, execNoteoff]; split <;> exact ⟨_, rfl⟩
  | alloff => exact ⟨_, rfl⟩
  | clrstat m => simp only [exec, execClrstat]; split <;> exact ⟨_, rfl⟩
  | rdvoice sel v =>
    simp only [exec, execRdvoice]; split
    · exact ⟨_, rfl⟩
    · exact ws _ _ _ fun w => ⟨_, rfl⟩

end Sys2Proof.Machine
end

