-- ==== Sys2Proof/Laws/Envelope.lean ====
section
/-!
SUPPORT. Which case of `envStep` runs (R110-R119), and the release threshold written out.
-/

namespace Sys2Proof.Machine

variable {v : Voice}

/-- INIT (R111). -/
theorem envStep_init (h : v.state = .init) : envStep v = initStep v := by simp [envStep, releaseEntry, h]

/-- ATK, not released (R113). -/
theorem envStep_atk (h : v.state = .atk) (hr : v.rt.released = false) : envStep v = atkStep v := by
  simp [envStep, releaseEntry, h, hr]

/-- DEC, not released (R114). -/
theorem envStep_dec (h : v.state = .dec) (hr : v.rt.released = false) : envStep v = decStep v := by
  simp [envStep, releaseEntry, h, hr]

/-- SUS, not released (R115). -/
theorem envStep_sus (h : v.state = .sus) (hr : v.rt.released = false) : envStep v = v := by
  simp [envStep, releaseEntry, h, hr]

/-- REL, and the release entry (R112, R116). -/
theorem envStep_rel
    (h : v.state = .rel ∨ (v.rt.released = true ∧ (v.state = .atk ∨ v.state = .dec ∨ v.state = .sus))) :
    envStep v = relStep v := by
  rcases h with h | ⟨hr, h | h | h⟩ <;> simp [envStep, releaseEntry, *, relStep, Voice.setEnv]

/-- PSEUDO_ECHO (R117). -/
theorem envStep_echo (h : v.state = .pseudoEcho) : envStep v = echoStep v := by
  simp [envStep, releaseEntry, h]

/-- DIE (R118). -/
theorem envStep_die (h : v.state = .die) : envStep v = v.setEnv .dead 0#8 := by
  simp [envStep, releaseEntry, h]

/-- DEAD (R119). -/
theorem envStep_dead (h : v.state = .dead) : envStep v = v := by simp [envStep, releaseEntry, h]

/-- A scaled level is at most 254. -/
theorem scaleLevel_le (a b : BitVec 8) : a.toNat * b.toNat / 256 ≤ 254 := by
  have h1 := a.isLt
  have h2 := b.isLt
  have : a.toNat * b.toNat ≤ 255 * 255 := Nat.mul_le_mul (by omega) (by omega)
  omega

/-- The scaled level as a number (R114, R116). -/
theorem scaleLevel_toNat (a b : BitVec 8) : (scaleLevel a b).toNat = a.toNat * b.toNat / 256 := by
  have := scaleLevel_le a b
  simp only [scaleLevel, BitVec.toNat_ofNat]
  omega

/-- The attack's level is 255 exactly when the sum reaches it (R113). -/
theorem atkLevel_eq_iff (a b : BitVec 8) :
    BitVec.ofNat 8 (min (a.toNat + b.toNat) 255) = 255#8 ↔ min (a.toNat + b.toNat) 255 = 255 := by
  rw [← BitVec.toNat_inj, BitVec.toNat_ofNat, show (255#8).toNat = 255 from rfl]
  omega

/-- The release threshold, state by state (R116). -/
theorem releaseThreshold_def (v : Voice) :
    releaseThreshold v =
      if v.rt.level.toNat ≤ v.birth.echoVol.toNat then
        if v.birth.echoVol ≠ 0#8 ∧ v.birth.echoLen ≠ 0#8 then
          { v with
            state := .pseudoEcho
            rt := { v.rt with level := v.birth.echoVol, echoCnt := v.birth.echoLen } }
        else { v with state := .die, rt := { v.rt with level := 0#8 } }
      else v := rfl

end Sys2Proof.Machine
end

