-- ==== Sys2Proof/Laws/PerInstr.lean ====
section
/-!
SUPPORT. One statement per constructor of `Instr`: the header its encoding has stands in the row of
spec/opcode_table.json that the constructor is.
-/

namespace Sys2Proof.Laws

/-- The bits a row of the table fixes, and their values. -/
structure Row where
  mask : Word
  pattern : Word
deriving DecidableEq, Repr

/-- The row of spec/opcode_table.json of each constructor: its `mask` and `match`. -/
def rowOf : Instr → Row
  | .nop => ⟨0xFFFFFFFF#32, 0x00000000#32⟩
  | .setv _ _ _ => ⟨0xFF00FF00#32, 0x01000000#32⟩
  | .noteon _ _ _ => ⟨0xFFFF0F00#32, 0x02000000#32⟩
  | .release _ => ⟨0xFFFFFF00#32, 0x03000000#32⟩
  | .kill _ => ⟨0xFFFFFF00#32, 0x04000000#32⟩
  | .updargs _ => ⟨0xFFFFFF00#32, 0x05000000#32⟩
  | .updargsCh _ => ⟨0xFFFF0FFF#32, 0x05010000#32⟩
  | .setc _ _ _ => ⟨0xFF000FFF#32, 0x06000000#32⟩
  | .setg _ _ => ⟨0xFF00FFFF#32, 0x07000000#32⟩
  | .process _ => ⟨0xFFFFFFFF#32, 0x08000000#32⟩
  | .noteoff _ _ => ⟨0xFFFF0FFF#32, 0x09000000#32⟩
  | .alloff => ⟨0xFFFFFFFF#32, 0x0A000000#32⟩
  | .clrstat _ => ⟨0xFFFFFFFF#32, 0x0B000000#32⟩
  | .rdvoice _ _ => ⟨0xFF00FF00#32, 0x0C000000#32⟩

/-- The header's fields under a mask that is put together from masks of the fields. -/
theorem header_and (op sel : BitVec 8) (ch : BitVec 4) (voice : BitVec 8) (mo ms : BitVec 8)
    (mc mr : BitVec 4) (mv : BitVec 8) :
    header op sel ch voice &&& (mo ++ ms ++ mc ++ mr ++ mv) =
      header (op &&& mo) (sel &&& ms) (ch &&& mc) (voice &&& mv) := by
  unfold header
  rw [BitVec.and_append, BitVec.and_append, BitVec.and_append, BitVec.and_append, BitVec.zero_and]

namespace EncodingInRow

/-- The encoding of a command has every bit its row fixes. -/
def Statement (i : Instr) : Prop := (encode i).1 &&& (rowOf i).mask = (rowOf i).pattern

theorem nop : Statement .nop := by unfold Statement; decide

theorem setv (sel voice : BitVec 8) (d : Word) : Statement (.setv sel voice d) :=
  (header_and 0x01#8 sel 0#4 voice 0xFF#8 0x00#8 0xF#4 0xF#4 0x00#8).trans (by simp [rowOf, header])

theorem noteon (ch : BitVec 4) (voice : BitVec 8) (off : Word) : Statement (.noteon ch voice off) :=
  (header_and 0x02#8 0#8 ch voice 0xFF#8 0xFF#8 0x0#4 0xF#4 0x00#8).trans (by simp [rowOf, header])

theorem release (voice : BitVec 8) : Statement (.release voice) :=
  (header_and 0x03#8 0#8 0#4 voice 0xFF#8 0xFF#8 0xF#4 0xF#4 0x00#8).trans (by simp [rowOf, header])

theorem kill (voice : BitVec 8) : Statement (.kill voice) :=
  (header_and 0x04#8 0#8 0#4 voice 0xFF#8 0xFF#8 0xF#4 0xF#4 0x00#8).trans (by simp [rowOf, header])

theorem updargs (voice : BitVec 8) : Statement (.updargs voice) :=
  (header_and 0x05#8 0#8 0#4 voice 0xFF#8 0xFF#8 0xF#4 0xF#4 0x00#8).trans (by simp [rowOf, header])

theorem updargsCh (ch : BitVec 4) : Statement (.updargsCh ch) :=
  (header_and 0x05#8 1#8 ch 0#8 0xFF#8 0xFF#8 0x0#4 0xF#4 0xFF#8).trans (by simp [rowOf, header])

theorem setc (sel : BitVec 8) (ch : BitVec 4) (d : Word) : Statement (.setc sel ch d) :=
  (header_and 0x06#8 sel ch 0#8 0xFF#8 0x00#8 0x0#4 0xF#4 0xFF#8).trans (by simp [rowOf, header])

theorem setg (sel : BitVec 8) (d : Word) : Statement (.setg sel d) :=
  (header_and 0x07#8 sel 0#4 0#8 0xFF#8 0x00#8 0xF#4 0xF#4 0xFF#8).trans (by simp [rowOf, header])

theorem process (n : Word) : Statement (.process n) :=
  (header_and 0x08#8 0#8 0#4 0#8 0xFF#8 0xFF#8 0xF#4 0xF#4 0xFF#8).trans (by simp [rowOf, header])

theorem noteoff (ch : BitVec 4) (key : Word) : Statement (.noteoff ch key) :=
  (header_and 0x09#8 0#8 ch 0#8 0xFF#8 0xFF#8 0x0#4 0xF#4 0xFF#8).trans (by simp [rowOf, header])

theorem alloff : Statement .alloff := by unfold Statement; decide

theorem clrstat (mask : Word) : Statement (.clrstat mask) :=
  (header_and 0x0B#8 0#8 0#4 0#8 0xFF#8 0xFF#8 0xF#4 0xF#4 0xFF#8).trans (by simp [rowOf, header])

theorem rdvoice (sel voice : BitVec 8) : Statement (.rdvoice sel voice) :=
  (header_and 0x0C#8 sel 0#4 voice 0xFF#8 0x00#8 0xF#4 0xF#4 0x00#8).trans (by simp [rowOf, header])

end EncodingInRow

end Sys2Proof.Laws
end

