-- ==== Sys2Proof/Laws/Platform.lean ====
section
/-!
SUPPORT. `PLATFORM_MAP` (R65): what an address reaches, and that the consecutive map is legal.
-/

namespace Sys2Proof.Machine

/-- Where the map places a resource that is the only one of its kind of access at an address, it is found. -/
theorem placedAt_eq {m : PlatformMap} {kind : Resource → Bool} {a : Nat} {r : Resource} (hr : (a, r) ∈ m)
    (hk : kind r = true) (hu : ∀ r', (a, r') ∈ m → kind r' = true → r' = r) : placedAt m kind a = some r := by
  unfold placedAt
  cases hf : m.find? fun x => x.1 == a && kind x.2 with
  | none => exact absurd (List.find?_eq_none.mp hf _ hr) (by simp [hk])
  | some x =>
    have h1 := List.find?_some hf
    simp only [Bool.and_eq_true, beq_iff_eq] at h1
    have h2 := List.mem_of_find?_eq_some hf
    rw [← h1.1] at hu
    exact congrArg some (hu x.2 h2 h1.2)

/-- Where the map places no resource of a kind of access at an address, none is found. -/
theorem placedAt_none {m : PlatformMap} {kind : Resource → Bool} {a : Nat}
    (h : ∀ r, (a, r) ∈ m → kind r = false) : placedAt m kind a = none := by
  unfold placedAt
  rw [Option.map_eq_none_iff, List.find?_eq_none]
  rintro ⟨b, r⟩ hx hb
  simp only [Bool.and_eq_true, beq_iff_eq] at hb
  rw [hb.1] at hx
  exact absurd hb.2 (by simp [h r hx])

/-- In a legal map a resource that the host writes is what a store to its address reaches. -/
theorem placedAt_writes {cfg : Params} (h : cfg.mapLegal) {a : Nat} {r : Resource} (hr : (a, r) ∈ cfg.platformMap)
    (hk : hostWrites r = true) : placedAt cfg.platformMap hostWrites a = some r :=
  placedAt_eq hr hk fun r' hr' hk' => h.2 a r' r hr' hr (.inl ⟨hk', hk⟩)

/-- In a legal map a resource that the host reads is what a load from its address reaches. -/
theorem placedAt_reads {cfg : Params} (h : cfg.mapLegal) {a : Nat} {r : Resource} (hr : (a, r) ∈ cfg.platformMap)
    (hk : hostReads r = true) : placedAt cfg.platformMap hostReads a = some r :=
  placedAt_eq hr hk fun r' hr' hk' => h.2 a r' r hr' hr (.inr ⟨hk', hk⟩)

/-- What the consecutive map places. -/
theorem mem_consecutive (m n a : Nat) (r : Resource) :
    (a, r) ∈ PlatformMap.consecutive m n ↔
      ∃ k, ([.port, .status, .result] ++ (List.range m).map Resource.smp ++
        (List.range n).map Resource.out)[k]? = some r ∧ a = 4 * k := by
  simp only [PlatformMap.consecutive, List.mem_map, Prod.exists, Prod.mk.injEq, List.mem_zipIdx_iff_getElem?]
  constructor
  · rintro ⟨r', k, hk, rfl, rfl⟩
    exact ⟨k, hk, rfl⟩
  · rintro ⟨k, hk, rfl⟩
    exact ⟨r, k, hk, rfl, rfl⟩

/-- The consecutive map is legal for the memories it is made for. -/
theorem consecutive_mapLegal {cfg : Params}
    (h : cfg.platformMap = PlatformMap.consecutive cfg.smpWords (2 * cfg.blockMax)) : cfg.mapLegal := by
  unfold Params.mapLegal
  rw [h]
  refine ⟨fun r => ?_, fun a r r' hr hr' _ => ?_⟩
  · simp only [mem_consecutive]
    rw [exists_comm]
    simp only [exists_eq_right, ← List.mem_iff_getElem?]
    cases r <;> simp [Params.hasResource]
  · rw [mem_consecutive] at hr hr'
    obtain ⟨k, hk, rfl⟩ := hr
    obtain ⟨k', hk', he⟩ := hr'
    have : k = k' := by omega
    subst this
    exact Option.some.inj (hk.symm.trans hk')

end Sys2Proof.Machine
end

