-- ==== Sys2Proof/Laws/Ranges.lean ====
section
/-!
SUPPORT. The ranges of a voice's weights and sweep timer (R37, R39) through a rendered sample.
-/

namespace Sys2Proof.Machine

/-- w has the active arguments and the weights of v. -/
def SameGains (v w : Voice) : Prop :=
  w.arg = v.arg ∧ w.rt.wprevL = v.rt.wprevL ∧ w.rt.wprevR = v.rt.wprevR ∧ w.rt.wcurL = v.rt.wcurL ∧
    w.rt.wcurR = v.rt.wcurR

theorem SameGains.refl (v : Voice) : SameGains v v := ⟨rfl, rfl, rfl, rfl, rfl⟩

theorem SameGains.trans {u v w : Voice} (h : SameGains u v) (k : SameGains v w) : SameGains u w :=
  ⟨k.1.trans h.1, k.2.1.trans h.2.1, k.2.2.1.trans h.2.2.1, k.2.2.2.1.trans h.2.2.2.1,
    k.2.2.2.2.trans h.2.2.2.2⟩

/-- w has the active arguments, the weights and the sweep timer of v. -/
def SameControls (v w : Voice) : Prop := SameGains v w ∧ w.rt.timer = v.rt.timer

theorem SameControls.refl (v : Voice) : SameControls v v := ⟨.refl v, rfl⟩

theorem SameControls.trans {u v w : Voice} (h : SameControls u v) (k : SameControls v w) : SameControls u w :=
  ⟨h.1.trans k.1, k.2.trans h.2⟩

/-! ### The parts of a sample -/

theorem setEnv_sameControls (v : Voice) (st : VState) (level : BitVec 8) :
    SameControls v (v.setEnv st level) := ⟨⟨rfl, rfl, rfl, rfl, rfl⟩, rfl⟩

theorem releaseThreshold_sameControls (v : Voice) : SameControls v (releaseThreshold v) := by
  unfold releaseThreshold
  split
  · split <;> exact ⟨⟨rfl, rfl, rfl, rfl, rfl⟩, rfl⟩
  · exact .refl v

theorem envStep_sameControls (v : Voice) : SameControls v (envStep v) := by
  have hr : SameControls v (releaseEntry v) := by
    unfold releaseEntry; split <;> exact ⟨⟨rfl, rfl, rfl, rfl, rfl⟩, rfl⟩
  refine envStep_cases (SameControls v) v (fun _ => hr) (fun _ => hr.trans ?_)
    (fun _ => hr.trans (setEnv_sameControls _ _ _)) (fun _ => hr.trans ?_)
    (fun _ => hr.trans ((setEnv_sameControls _ _ _).trans (releaseThreshold_sameControls _)))
    (fun _ => hr.trans ?_) (fun _ => hr.trans (setEnv_sameControls _ _ _))
  · unfold initStep atkStep
    split
    · exact setEnv_sameControls _ _ _
    · exact (setEnv_sameControls _ _ _).trans (setEnv_sameControls _ _ _)
  · simp only [decStep]
    split
    · split
      · exact (setEnv_sameControls _ _ _).trans (releaseThreshold_sameControls _)
      · exact setEnv_sameControls _ _ _
    · exact setEnv_sameControls _ _ _
  · simp only [echoStep]
    split <;> exact ⟨⟨rfl, rfl, rfl, rfl, rfl⟩, rfl⟩

theorem fetchMany_sameControls (e : Env) (k : Nat) (v : Voice) : SameControls v (fetchMany e k v) := by
  induction k generalizing v with
  | zero => exact .refl v
  | succ k ih =>
    refine SameControls.trans ?_ (ih (fetchAppend e v))
    simp only [fetchAppend]
    split <;> exact ⟨⟨rfl, rfl, rfl, rfl, rfl⟩, rfl⟩

theorem linearSample_sameControls (e : Env) (chunk : Option Nat) (v : Voice) :
    SameControls v (linearSample e chunk v).1 := by
  have hstep : ∀ w, SameControls w (linearStep w).1 := fun w => ⟨⟨rfl, rfl, rfl, rfl, rfl⟩, rfl⟩
  cases chunk with
  | none => exact hstep v
  | some nc => exact (fetchMany_sameControls e _ v).trans (hstep _)

theorem genSample_sameControls (e : Env) (chunk : Option Nat) (v : Voice) :
    SameControls v (genSample e chunk v).1 := by
  have hphase : ∀ x, SameControls v (phaseSample v x).1 := fun x => ⟨⟨rfl, rfl, rfl, rfl, rfl⟩, rfl⟩
  simp only [genSample]
  cases v.birth.dspType with
  | none => exact .refl v
  | pcm => exact linearSample_sameControls e chunk v
  | pcmFixed => exact linearSample_sameControls e chunk v
  | pulse => exact hphase _
  | saw => exact hphase _
  | triangle => exact hphase _
  | square => simp only [blepSample, SameControls, SameGains, and_self]

theorem lfoClock_sameControls (e : Env) (slot j : Nat) (v : Voice) : SameControls v (lfoClock e slot j v) := by
  unfold lfoClock
  extract_lets acc thr
  generalize lfoLoop thr v.arg.lfoSpeed (acc.mag + 1) acc v.rt.lfoPhase = o
  cases o <;> exact ⟨⟨rfl, rfl, rfl, rfl, rfl⟩, rfl⟩

theorem genFrame_sameGains (e : Env) (first : Bool) (v : Voice) : SameGains v (genFrame e first v) := by
  have hpwm : ∀ w, SameGains w (pwmFrame first w) := by
    intro w; simp only [pwmFrame]; split <;> exact ⟨rfl, rfl, rfl, rfl, rfl⟩
  have hsweep : SameGains v (sweepFrame e.cfg first v) := by
    simp only [sweepFrame]
    split
    · exact ⟨rfl, rfl, rfl, rfl, rfl⟩
    · split <;> exact ⟨rfl, rfl, rfl, rfl, rfl⟩
  have hinc : ∀ w, SameGains w (phaseIncStep e.glob w) := fun w => by
    simp only [phaseIncStep, SameGains, and_self]
  have hrinc : ∀ w x, SameGains w (setRinc e.cfg w x) := fun w x => by
    simp only [setRinc, SameGains, and_self]
  simp only [genFrame]
  cases v.birth.dspType with
  | none => exact .refl v
  | pcm => exact hrinc v _
  | pcmFixed => exact hrinc v _
  | square => exact hsweep.trans (hrinc _ _)
  | pulse => exact (hpwm v).trans (hinc _)
  | saw => exact hinc v
  | triangle => exact hinc v

/-! ### The sweep timer -/

/-- The initial timer is in its range (R162). -/
theorem initialTimer_le (cfg : Params) (freq : F64) : initialTimer cfg freq ≤ cfg.timerMax := by
  unfold initialTimer
  generalize F64.roundHalfEven (F64.sub (F64.ofInt 2048) (F64.div cfg.gbClock freq)) = q
  have h := clamp_mem (v := q) (lo := 0) (hi := (cfg.timerMax : Int)) (by omega)
  omega

/-- A sweep update keeps the timer in its range (R163). -/
theorem sweepTimer_le (cfg : Params) (b : Birth) {t : Nat} (h : t ≤ cfg.timerMax) :
    sweepTimer cfg b t ≤ cfg.timerMax := by
  simp only [sweepTimer]
  generalize t / 2 ^ sweepShift b = d
  split <;> omega

/-- A generator's frame keeps the timer in its range. -/
theorem genFrame_timer (e : Env) (first : Bool) {v : Voice} (h : v.rt.timer ≤ e.cfg.timerMax) :
    (genFrame e first v).rt.timer ≤ e.cfg.timerMax := by
  have hpwm : (pwmFrame first v).rt.timer = v.rt.timer := by simp only [pwmFrame]; split <;> rfl
  have hsweep : (sweepFrame e.cfg first v).rt.timer ≤ e.cfg.timerMax := by
    have hi := initialTimer_le e.cfg v.rt.freq
    simp only [sweepFrame]
    generalize initialTimer e.cfg v.rt.freq = q at hi
    split
    · exact hi
    · split
      · exact sweepTimer_le _ _ h
      · exact h
  have hinc : ∀ w, (phaseIncStep e.glob w).rt.timer = w.rt.timer := fun w => by simp only [phaseIncStep]
  have hrinc : ∀ w x, (setRinc e.cfg w x).rt.timer = w.rt.timer := fun w x => by simp only [setRinc]
  simp only [genFrame]
  cases v.birth.dspType with
  | none => exact h
  | pcm => rw [hrinc]; exact h
  | pcmFixed => rw [hrinc]; exact h
  | square => rw [hrinc]; exact hsweep
  | pulse => rw [hinc, hpwm]; exact h
  | saw => rw [hinc]; exact h
  | triangle => rw [hinc]; exact h

/-! ### The weights -/

/-- The volume weights are at most 126 (R130). -/
theorem volumeWeight_le (v : Voice) {q : Int} (h : q ≤ 128) : volumeWeight v q ≤ 126 := by
  have h1 := v.birth.velocity.isLt
  have h2 := v.arg.volume.isLt
  unfold volumeWeight asr
  have hg : (v.birth.velocity.toNat : Int) * v.arg.volume.toNat ≤ 127 * 127 := by
    exact_mod_cast Nat.mul_le_mul (by omega) (by omega)
  have hg0 : (0 : Int) ≤ (v.birth.velocity.toNat : Int) * v.arg.volume.toNat := by positivity
  generalize (v.birth.velocity.toNat : Int) * v.arg.volume.toNat = g at hg hg0
  have : g * q ≤ 127 * 127 * 128 := by nlinarith
  omega

theorem panPosition_mem (v : Voice) : -64 ≤ panPosition v ∧ panPosition v ≤ 63 :=
  clamp_mem (by omega)

theorem volL_le (v : Voice) : volL v ≤ 126 := volumeWeight_le v (by have := panPosition_mem v; omega)

theorem volR_le (v : Voice) : volR v ≤ 126 := volumeWeight_le v (by have := panPosition_mem v; omega)

/-- The seed is a level. -/
theorem envSeed_le (b : Birth) : envSeed b ≤ 255 := by unfold envSeed; split <;> omega

/-! ### Ranges -/

/-- The timer and the weights of a voice are in their ranges. -/
def InRange (cfg : Params) (v : Voice) : Prop :=
  v.rt.timer ≤ cfg.timerMax ∧ v.rt.wprevL ≤ 255 * 126 ∧ v.rt.wprevR ≤ 255 * 126 ∧
    v.rt.wcurL ≤ 255 * 126 ∧ v.rt.wcurR ≤ 255 * 126

theorem SameControls.inRange {cfg : Params} {v w : Voice} (h : SameControls v w) (hv : InRange cfg v) :
    InRange cfg w := by
  obtain ⟨⟨_, h1, h2, h3, h4⟩, ht⟩ := h
  unfold InRange
  rw [ht, h1, h2, h3, h4]
  exact hv

/-- A frame step keeps the ranges. -/
theorem frameStep_inRange (e : Env) {v : Voice} (h : InRange e.cfg v) : InRange e.cfg (frameStep e v) := by
  have henv : InRange e.cfg (envStep { v with arg := v.argp }) :=
    (envStep_sameControls { v with arg := v.argp }).inRange h
  simp only [frameStep]
  split
  · exact ⟨henv.1, henv.2.2.2.1, henv.2.2.2.2, Nat.zero_le _, Nat.zero_le _⟩
  · generalize envStep { v with arg := v.argp } = w at henv
    generalize hu : ({ w with rt := { w.rt with freq := pitchFreq w } } : Voice) = u
    have hu' : InRange e.cfg u := by subst hu; exact henv
    have ht := genFrame_timer e (v.state == .init) hu'.1
    have hg := genFrame_sameGains e (v.state == .init) u
    generalize genFrame e (v.state == .init) u = x at ht hg
    have hl := x.rt.level.isLt
    have hL := volL_le x
    have hR := volR_le x
    have hs := envSeed_le v.birth
    obtain ⟨_, g1, g2, g3, g4⟩ := hg
    obtain ⟨_, u1, u2, u3, u4⟩ := hu'
    refine ⟨ht, ?_, ?_, Nat.mul_le_mul (by omega) hL, Nat.mul_le_mul (by omega) hR⟩
    · simp only [weightsStep]
      split
      · exact Nat.mul_le_mul hs hL
      · rw [g3]; exact u3
    · simp only [weightsStep]
      split
      · exact Nat.mul_le_mul hs hR
      · rw [g4]; exact u4

/-- A rendered sample keeps the ranges. -/
theorem voiceSample_inRange (e : Env) (slot : Nat) (fresh : Bool) (j n : Nat) {v : Voice}
    (h : InRange e.cfg v) : InRange e.cfg (voiceSample e slot fresh j n v).1 := by
  have hf : InRange e.cfg (frameStepIfDue e v) := by
    unfold frameStepIfDue
    split
    · exact frameStep_inRange e h
    · exact h
  simp only [voiceSample]
  split
  · exact hf
  · generalize frameStepIfDue e v = w at hf
    have hg := genSample_sameControls e (chunkAt e.glob fresh j n w) w
    generalize (genSample e (chunkAt e.glob fresh j n w) w).1 = x at hg
    have hx := (hg.trans (lfoClock_sameControls e slot j x)).inRange hf
    generalize lfoClock e slot j x = y at hx
    have hc : SameControls y (advanceCounters e.glob y) := by
      simp only [advanceCounters]; split <;> exact ⟨⟨rfl, rfl, rfl, rfl, rfl⟩, rfl⟩
    refine SameControls.inRange (hc.trans ?_) hx
    unfold endOfStream
    split
    · exact setEnv_sameControls _ _ _
    · exact .refl _

/-- Rendering a block keeps the ranges. -/
theorem renderedSlot_inRange (e : Env) (n j : Nat) {v : Voice} (h : InRange e.cfg v) :
    InRange e.cfg (renderedSlot e n j v) := by
  unfold renderedSlot
  split
  · exact h
  · exact renderVoice_keeps e j n (InRange e.cfg) (fun _ h => h)
      (fun fresh k _ h _ => voiceSample_inRange e j fresh k n h) h _

end Sys2Proof.Machine
end

