-- ==== Sys2Proof/Laws/Reverb.lean ====
section
/-!
SUPPORT. Reverb states that fit their channel's type (R25, R210, R216, R219).
-/

namespace Sys2Proof.Machine

/-- An empty ring with its cursor at 0 is an unused one. -/
theorem ringUnused_nil : ringUnused [] 0 := ⟨rfl, rfl⟩

/-- The base ring is not empty (R210). -/
theorem ring0Len_pos {cfg : Params} {g : Globals} (h1 : 1 ≤ g.spf.toNat) (h2 : 1 ≤ cfg.hwbuf) :
    0 < ring0Len cfg g := by
  unfold ring0Len
  positivity

/-- `REVX_LEN1` is at least 1 (R216). -/
theorem revLen1_pos (x : Variant) (cfg : Params) (g : Globals) : 0 < revLen1 x cfg g := by unfold revLen1; omega

/-- `REVX_LEN2` is at least 1 (R216). -/
theorem revLen2_pos (x : Variant) (cfg : Params) (g : Globals) : 0 < revLen2 x cfg g := by
  unfold revLen2
  simp only []
  split <;> omega

/-- An initial cursor lies in its ring (R216). -/
theorem emod_lt (a : Int) {n : Nat} (h : 0 < n) : (a % (n : Int)).toNat < n := by
  have := Int.emod_nonneg a (b := n) (by omega)
  have := Int.emod_lt_of_pos a (b := n) (by omega)
  omega

/-- The reverb state R219 leaves fits the channel's type. -/
theorem resetReverb_wf {cfg : Params} {g : Globals} (h1 : 1 ≤ g.spf.toNat) (h2 : 1 ≤ cfg.hwbuf) (c : Channel) :
    (c.resetReverb cfg g).reverbWf cfg g := by
  unfold Channel.reverbWf Channel.resetReverb
  cases c.reverbType with
  | off => exact ⟨ringUnused_nil, ringUnused_nil, ringUnused_nil⟩
  | base => exact ⟨⟨rfl, ring0Len_pos h1 h2⟩, ringUnused_nil, ringUnused_nil⟩
  | variant x =>
    exact ⟨ringUnused_nil, ⟨rfl, emod_lt _ (revLen1_pos x cfg g)⟩, ⟨rfl, emod_lt _ (revLen2_pos x cfg g)⟩⟩

/-- One sample of the reverb keeps the reverb state fitting (R212, R217). -/
theorem reverbSample_wf {cfg : Params} {g : Globals} {c : Channel} (h : c.reverbWf cfg g) (x : Stereo) :
    (reverbSample cfg g c x).1.reverbWf cfg g := by
  unfold Channel.reverbWf at *
  unfold reverbSample
  cases ht : c.reverbType with
  | off => simp only [ht] at h ⊢; exact h
  | base =>
    simp only [ht, reverbBase] at h ⊢
    exact ⟨⟨Ring.wf_put h.1.1 h.1.2 _, Nat.mod_lt _ (by have := h.1.2; unfold ring0Len; omega)⟩, h.2⟩
  | variant x =>
    simp only [ht, reverbVariant] at h ⊢
    exact ⟨h.1, ⟨Ring.wf_put h.2.1.1 h.2.1.2 _, Nat.mod_lt _ (revLen1_pos _ _ _)⟩,
      ⟨Ring.wf_put h.2.2.1 h.2.2.2 _, Nat.mod_lt _ (revLen2_pos _ _ _)⟩⟩

/-- Whether the reverb state fits depends on the type, the rings and the cursors only. -/
theorem reverbWf_congr {cfg : Params} {g : Globals} {c d : Channel} (h : c.reverbWf cfg g)
    (e : d.reverbType = c.reverbType) (h0 : d.ring0 = c.ring0) (h1 : d.ring1 = c.ring1)
    (h2 : d.ring2 = c.ring2) (k0 : d.cur0 = c.cur0) (k1 : d.cur1 = c.cur1) (k2 : d.cur2 = c.cur2) :
    d.reverbWf cfg g := by
  unfold Channel.reverbWf at *
  rw [e, h0, h1, h2, k0, k1, k2]; exact h

/-- Of the global registers, only `SPF` decides whether the reverb state fits. -/
theorem reverbWf_spf {cfg : Params} {g g' : Globals} {c : Channel} (h : c.reverbWf cfg g)
    (e : g'.spf = g.spf) : c.reverbWf cfg g' := by
  unfold Channel.reverbWf revLen2 revLen1 at *
  rw [e]; exact h

end Sys2Proof.Machine
end

