-- ==== Sys2Proof/Laws/Step.lean ====
section
/-!
SUPPORT. Everything a step can do, said once.
-/

namespace Sys2Proof.Machine

/-- The state in which a command runs: its data word taken, the port expecting a header again. -/
def State.commandState (s : State) (rest : List HostEvent) : State := { s with port := .header, input := rest }

/-- The access of a resource that an access of the host amounts to: a store is one of what the map places at its
address (R65). -/
def HostEvent.resolved (m : PlatformMap) : HostEvent → Option HostEvent
  | .store a w =>
    match placedAt m hostWrites a with
    | some .port => some (.port w)
    | some (.smp i) => some (.writeSmp i w)
    | some (.out i) => some (.writeOut i w)
    | some .status | some .result | none => none
  | e => some e

/-- An access does what the access of the resource it amounts to does. -/
theorem hostStep_resolved {e e' : HostEvent} {s : State} (h : e.resolved s.cfg.platformMap = some e') :
    hostStep e s = hostStep e' s := by
  cases e with
  | store a w =>
    simp only [HostEvent.resolved] at h
    simp only [hostStep, State.hostStore]
    split at h <;> cases h <;> simp only [*]
  | _ => cases h; rfl

/-- A store to an address at which nothing can be written faults. -/
theorem hostStep_unresolved {e : HostEvent} {s : State} (h : e.resolved s.cfg.platformMap = none) :
    hostStep e s = .fault .notWritable := by
  cases e with
  | store a w =>
    simp only [HostEvent.resolved] at h
    simp only [hostStep, State.hostStore]
    split at h <;> cases h <;> simp only [*]
  | _ => cases h

/-- No access amounts to a store. -/
theorem resolved_ne_store {m : PlatformMap} {e : HostEvent} {a : Nat} {w : Word} :
    e.resolved m ≠ some (.store a w) := by
  cases e with
  | store => simp only [HostEvent.resolved]; split <;> simp
  | _ => simp [HostEvent.resolved]

/-- What a step that answers a next state did. -/
inductive StepEffect (s t : State) : Prop where
  | idle (hi : s.input = []) (h : t = s)
  | latch (w : Word) (e : HostEvent) (rest : List HostEvent) (hi : s.input = e :: rest)
      (he : e.resolved s.cfg.platformMap = some (.port w)) (hp : s.port = .header)
      (h : t = { s with port := .data w, input := rest })
  | command (hd d : Word) (e : HostEvent) (rest : List HostEvent) (i : Instr) (hi : s.input = e :: rest)
      (he : e.resolved s.cfg.platformMap = some (.port d)) (hp : s.port = .data hd) (hw : decode hd d = .ok i)
      (h : exec i (s.commandState rest) = .next t)
  | illegal (hd d : Word) (e : HostEvent) (rest : List HostEvent) (why : DecodeError) (hi : s.input = e :: rest)
      (he : e.resolved s.cfg.platformMap = some (.port d)) (hp : s.port = .data hd)
      (hw : decode hd d = .rejected why) (h : t = raised .illegal (s.commandState rest))
  | writeSmp (k : Nat) (v : F32) (e : HostEvent) (rest : List HostEvent) (hi : s.input = e :: rest)
      (he : e.resolved s.cfg.platformMap = some (.writeSmp k v)) (hk : k < s.cfg.smpWords)
      (h : t = { s with input := rest, smpMem := s.smpMem.writeElem k v })
  | writeOut (k : Nat) (v : F32) (e : HostEvent) (rest : List HostEvent) (hi : s.input = e :: rest)
      (he : e.resolved s.cfg.platformMap = some (.writeOut k v)) (hk : k < outWords s.cfg)
      (h : t = { s with input := rest, outMem := s.outMem.writeElem k v })
  | reset (e : HostEvent) (rest : List HostEvent) (hi : s.input = e :: rest)
      (he : e.resolved s.cfg.platformMap = some .reset) (h : t = ({ s with input := rest } : State).hostReset)

/-- A step answers a next state in one of these ways. -/
theorem step_cases {s t : State} (h : step s = .next t) : StepEffect s t := by
  unfold step at h
  split at h
  · next hi => cases h; exact .idle hi rfl
  · next e rest hi =>
    cases he : e.resolved s.cfg.platformMap with
    | none => rw [hostStep_unresolved (s := { s with input := rest }) he] at h; cases h
    | some e' =>
      rw [hostStep_resolved (s := { s with input := rest }) he] at h
      cases e' with
      | port d =>
        simp only [hostStep, portWrite] at h
        cases hp : s.port with
        | header => simp only [hp] at h; cases h; exact .latch d e rest hi he hp rfl
        | data hd =>
          simp only [hp, runWords] at h
          cases hw : decode hd d with
          | ok i => simp only [hw] at h; exact .command hd d e rest i hi he hp hw h
          | rejected why => simp only [hw] at h; cases h; exact .illegal hd d e rest why hi he hp hw rfl
      | writeSmp k v =>
        simp only [hostStep, State.hostWriteSmp] at h
        split at h
        · next hk => cases h; exact .writeSmp k v e rest hi he hk rfl
        · cases h
      | writeOut k v =>
        simp only [hostStep, State.hostWriteOut] at h
        split at h
        · next hk => cases h; exact .writeOut k v e rest hi he hk rfl
        · cases h
      | store a w => exact absurd he resolved_ne_store
      | reset => cases h; exact .reset e rest hi he rfl

/-- A property of the state that neither the port nor the host's queue has a part in, and that the reset state,
every host write, every error and every command's effect keep, every step keeps. -/
theorem step_keeps {P : State → Prop}
    (hport : ∀ s p rest, P s → P { s with port := p, input := rest })
    (hsmp : ∀ s k v, P s → k < s.cfg.smpWords → P { s with smpMem := s.smpMem.writeElem k v })
    (hout : ∀ s k v, P s → k < outWords s.cfg → P { s with outMem := s.outMem.writeElem k v })
    (hreset : ∀ s, P s → P s.hostReset) (hraise : ∀ e s, P s → P (raised e s))
    (heffect : ∀ i s u, P s → Effect i s u → P u.complete)
    {s t : State} (hs : P s) (h : step s = .next t) : P t := by
  cases step_cases h with
  | idle _ h => exact h ▸ hs
  | latch w e rest _ _ _ h => exact h ▸ hport s _ _ hs
  | command hd d e rest i _ _ _ _ h =>
    have hc : P (s.commandState rest) := hport s _ _ hs
    obtain ⟨e, rfl⟩ | ⟨u, hu, rfl⟩ := exec_cases h
    · exact hraise e _ hc
    · exact heffect i _ u hc hu
  | illegal hd d e rest why _ _ _ _ h => exact h ▸ hraise _ _ (hport s _ _ hs)
  | writeSmp k v e rest _ _ hk h => exact h ▸ hsmp { s with input := rest } k v (hport s s.port rest hs) hk
  | writeOut k v e rest _ _ hk h => exact h ▸ hout { s with input := rest } k v (hport s s.port rest hs) hk
  | reset e rest _ _ h => exact h ▸ hreset _ (hport s s.port rest hs)

/-- The state in which a command runs, field by field. -/
theorem commandState_fields (s : State) (rest : List HostEvent) :
    (s.commandState rest).cfg = s.cfg ∧ (s.commandState rest).voices = s.voices ∧
      (s.commandState rest).status = s.status ∧ (s.commandState rest).port = .header ∧
      (s.commandState rest).input = rest := ⟨rfl, rfl, rfl, rfl, rfl⟩

end Sys2Proof.Machine
end

