-- ==== Sys2Proof/Tests/Slice0.lean ====
section
/-!
SUPPORT. The model's own tests.  Expected values are those of spec/30_encoding.md (R92) and of
spec/95_test_vectors.md, whose vector each test names, or counted by hand from the rule it names; and for each
statement of Certificates/Slice0/Obligations.lean that has hypotheses, a witness that meets them.
-/

namespace Sys2Proof.Tests

open Sys2Proof.Machine

/-! ### Helpers -/

/-- What a state shows after a command, if the command completes. -/
def shows {α : Type} (f : State → α) : Host.Outcome State Fault Refusal → Option α
  | .next t => some (f t)
  | .fault _ => none
  | .refused _ => none

/-- `STATUS` after a command. -/
def statusAfter (i : Instr) (s : State) : Option Word := shows (·.status) (exec i s)

/-- One slot of a state. -/
def slot (v : Nat) (s : State) : Voice := s.voices.getD v Voice.reset

/-- A birth field block of a generator that needs no sample. -/
def sawBirth : Birth := { Birth.reset with dspType := .saw }

/-- A sample region that ends at the last element of sample memory (V-L2-BSY-13). -/
def pcmBirth : Birth := { Birth.reset with dspType := .pcm, smpBase := 60#32, smpEnd := 4#32 }

/-- A sample region that ends past sample memory (V-L2-BSY-11). -/
def badBirth : Birth :=
  { Birth.reset with dspType := .pcm, smpBase := 62#32, smpEnd := 2#32, smpChannels := .stereo }

/-- A voice that sounds, at the last sample of a sub-frame. -/
def sounding : Voice :=
  { Voice.reset with
    state := .sus, ch := 2#4, birth := sawBirth
    rt := { Runtime.initial 0#32 with level := 200#8, subcnt := 199#16 } }

/-- A voice in INIT. -/
def fresh (b : Birth) : Voice := { Voice.reset with state := .init, birth := b }

/-- Slots in several states. -/
def band : State :=
  { State.reset with
    status := 0x100#32
    voices :=
      [sounding, { sounding with state := .dead }, Voice.reset, { Voice.reset with birth := pcmBirth },
        { Voice.reset with birth := badBirth }, { Voice.reset with birth := sawBirth }, fresh sawBirth,
        fresh pcmBirth] }

/-- Two notes on channel 0, key 60, the older one in slot 3 (V-L2-CH-1). -/
def twoNotes : State :=
  { band with
    voices := [Voice.reset, Voice.reset, Voice.reset, { fresh sawBirth with seq := 1#64 },
      { fresh sawBirth with seq := 2#64 }, Voice.reset, Voice.reset, Voice.reset] }

/-- The state in which the next step executes two words. -/
def atPort (h d : Word) (s : State) : State := { s with port := .data h, input := [.port d] }

/-! ### Static checks -/

theorem test_setv_selector : (Instr.setv 0x17#8 0#8 0#32).wellFormed = false ∧
    (Instr.setv 0x16#8 0#8 0#32).wellFormed = true := by decide

theorem test_setc_selector : (Instr.setc 0x09#8 0#4 0#32).wellFormed = false ∧
    (Instr.setc 0x08#8 0#4 0#32).wellFormed = true := by decide

theorem test_setg_selector : (Instr.setg 0x04#8 0#32).wellFormed = false ∧
    (Instr.setg 0x03#8 0#32).wellFormed = true := by decide

theorem test_rdvoice_selector : (Instr.rdvoice 0x0A#8 0#8).wellFormed = false ∧
    (Instr.rdvoice 0x09#8 0#8).wellFormed = true := by decide

/-! ### Decoding: every constructor from words written out field by field (R81, R84, R92) -/

theorem test_decode_nop :
    decode 0b00000000000000000000000000000000#32 0x00000000#32 = .ok .nop := by decide

theorem test_decode_setv :
    decode 0b00000001000011000000000000000101#32 0x463B8000#32 = .ok (.setv 0x0C#8 5#8 0x463B8000#32) := by
  decide

theorem test_decode_noteon :
    decode 0b00000010000000001001000000000101#32 0x00000011#32 = .ok (.noteon 9#4 5#8 17#32) := by decide

theorem test_decode_release :
    decode 0b00000011000000000000000000000111#32 0x00000000#32 = .ok (.release 7#8) := by decide

theorem test_decode_kill :
    decode 0b00000100000000000000000000000011#32 0x00000000#32 = .ok (.kill 3#8) := by decide

theorem test_decode_updargs :
    decode 0b00000101000000000000000000000110#32 0x00000000#32 = .ok (.updargs 6#8) := by decide

theorem test_decode_updargsCh :
    decode 0b00000101000000010100000000000000#32 0x00000000#32 = .ok (.updargsCh 4#4) := by decide

theorem test_decode_setc :
    decode 0b00000110000000010010000000000000#32 0xFFFFFFF6#32 = .ok (.setc 1#8 2#4 (BitVec.ofInt 32 (-10))) := by
  decide

theorem test_decode_setg :
    decode 0b00000111000000100000000000000000#32 0x00000001#32 = .ok (.setg 2#8 1#32) := by decide

theorem test_decode_process :
    decode 0b00001000000000000000000000000000#32 0x00000100#32 = .ok (.process 256#32) := by decide

theorem test_decode_noteoff :
    decode 0b00001001000000001111000000000000#32 0x0000003C#32 = .ok (.noteoff 15#4 60#32) := by decide

theorem test_decode_alloff :
    decode 0b00001010000000000000000000000000#32 0x00000000#32 = .ok .alloff := by decide

theorem test_decode_clrstat :
    decode 0b00001011000000000000000000000000#32 0x0000001F#32 = .ok (.clrstat 31#32) := by decide

theorem test_decode_rdvoice :
    decode 0b00001100000000010000000000000011#32 0x00000000#32 = .ok (.rdvoice 1#8 3#8) := by decide

/-- Section 2.1 of the vectors: what decoding rejects, and why. -/
theorem test_decode_rejects :
    decode 0xFF0000FF#32 0#32 = .rejected .reservedOpcode ∧
    decode 0x0D000000#32 0#32 = .rejected .reservedOpcode ∧
    decode 0x00000100#32 0#32 = .rejected .reservedField ∧
    decode 0x00000000#32 1#32 = .rejected .dataNotZero ∧
    decode 0x01001000#32 0x3C#32 = .rejected .unusedField ∧
    decode 0x011700FF#32 0#32 = .rejected .reservedSelector ∧
    decode 0x05020000#32 0#32 = .rejected .reservedSelector ∧
    decode 0x05010001#32 0#32 = .rejected .unusedField ∧
    decode 0x0C0A0000#32 0#32 = .rejected .reservedSelector ∧
    decode 0x08010000#32 1#32 = .rejected .unusedField := by decide

theorem test_encode : encode (.setc 1#8 2#4 0xFFFFFFF6#32) = (0x06012000#32, 0xFFFFFFF6#32) := by decide

theorem test_table_word : decodeTableWord 64 0x0000003C01000003 = some (.setv 0x00#8 3#8 60#32) ∧
    decodeTableWord 32 0x0000003C01000003 = some (.setv 0x00#8 3#8 0#32) := by decide

theorem test_fetch_word :
    shows (fun t => (t.port, t.input, (slot 3 t).birth.key))
      (step (State.reset.withFetchWord 64 0x0000003D01000003)) = some (.header, [], 61#7) := by decide

/-- A store reaches the element that the map places at its address, and a load reads it back (R65); the read-only
register beside it cannot be stored to. -/
theorem test_store :
    shows (fun t => (t.smpMem.readElem 63, t.hostLoad 264))
      (step { State.reset with input := [.store 264 0x3F800000#32] }) = some (0x3F800000#32, some 0x3F800000#32) ∧
    (shows (fun _ => ()) (step { State.reset with input := [.store 4 0#32] })) = none := by decide +kernel

/-! ### Assembler lines (R90, R91) -/

/-- R92, second row. -/
theorem test_assemble_setv :
    assembleText "SETV 0, MIDC_FREQ, 12000.0".toList = some [.setv 0x0C#8 0#8 0x463B8000#32] := by decide +kernel

/-- R92, fifth row. -/
theorem test_assemble_setc :
    assembleText "SETC 2, PAN, -10".toList = some [.setc 0x01#8 2#4 0xFFFFFFF6#32] := by decide

theorem test_assemble_play :
    assembleText "PLAY 3, 0, 0x3C, 100".toList =
      some [.setv 0#8 3#8 60#32, .setv 1#8 3#8 100#32, .noteon 0#4 3#8 0#32] := by decide

/-! ### One step of each command -/

/-- NOP raises nothing (R248). -/
theorem test_nop : exec .nop State.reset = .next State.reset := by rfl

/-- V-L2-OPD-1: a numeric field is clamped. -/
theorem test_setv_clamps : shows (fun t => (slot 0 t).birth.key) (exec (.setv 0#8 0#8 200#32) State.reset) =
    some 127#7 := by decide

/-- V-L2-BSY-2: the busy check comes before the data check. -/
theorem test_setv_busy_first : statusAfter (.setv 0x0A#8 0#8 7#32) band = some 0x104#32 := by decide

/-- V-L2-BSY-13: a region that ends at the last element plays; the birth number is taken. -/
theorem test_noteon_region :
    shows (fun t => ((slot 3 t).state, (slot 3 t).argp.volume, (slot 3 t).rt.delay, t.glob.seq, t.status))
      (exec (.noteon 0#4 3#8 17#32) band) = some (.init, 100#7, 17#32, 1#64, 0x100#32) := by decide

/-- V-L2-BSY-11: a region past the end of sample memory. -/
theorem test_noteon_bad_region : statusAfter (.noteon 0#4 4#8 0#32) band = some 0x102#32 := by decide

/-- R142: a voice in INIT is released and stays in INIT. -/
theorem test_release : shows (fun t => ((slot 6 t).rt.released, (slot 6 t).state)) (exec (.release 6#8) band) =
    some (true, .init) := by decide

/-- P4, command 11: RELEASE of a FREE slot. -/
theorem test_release_free : statusAfter (.release 7#8) State.reset = some 0x008#32 := by decide

/-- P4, commands 8 and 9: a killed voice is DEAD with level 0. -/
theorem test_kill : shows (fun t => ((slot 0 t).state, (slot 0 t).rt.level)) (exec (.kill 0#8) band) =
    some (.dead, 0#8) := by decide

/-- V-L2-DEC-12: UPDARGS of a FREE slot. -/
theorem test_updargs_free : statusAfter (.updargs 0#8) State.reset = some 0x008#32 := by decide

/-- R143: UPDARGS copies the arguments of the voice's own channel, channel 2 here. -/
theorem test_updargs :
    shows (fun t => ((slot 0 t).argp, (slot 0 t).arg)) (exec (.updargs 0#8) band) =
      some (Args.reset, Args.zero) := by decide

/-- R143: UPDARGS.CH leaves a DEAD slot of the channel alone. -/
theorem test_updargsCh :
    shows (fun t => ((slot 0 t).argp, (slot 1 t).argp, (slot 6 t).argp)) (exec (.updargsCh 2#4) band) =
      some (Args.reset, Args.zero, Args.zero) := by decide

/-- V-L2-OPD-24: TUNE is clamped to -32768. -/
theorem test_setc_clamps :
    shows (fun t => (t.chan 2#4).args.tune.toInt) (exec (.setc 2#8 2#4 0xFFFF0000#32) band) =
      some (-32768) := by decide

/-- V-L2-REV-4: writing the same `REVERB_TYPE` again clears the ring and the cursor. -/
theorem test_setc_reverb :
    shows (fun t => (t.chan 0#4).cur0) (exec (.setc 7#8 0#4 1#32)
      (State.reset.setChan 0#4 { Channel.reset with reverbType := .base, cur0 := 5 })) = some 0 := by decide

/-- V-L2-BSY-5: the state check comes before the range check. -/
theorem test_setg_state_first : statusAfter (.setg 2#8 0#32) band = some 0x110#32 := by decide

/-- V-L2-BSY-6: BPM may change while voices play. -/
theorem test_setg_bpm : shows (fun t => (t.glob.bpm, t.status)) (exec (.setg 3#8 0x42700000#32) band) =
    some (⟨0x404E000000000000#64⟩, 0x100#32) := by decide +kernel

/-- P1: the first output sample of a pulse voice, 0.24609375 on both sides. -/
theorem test_process_pulse :
    shows (fun t => (t.outMem.readElem 0, t.outMem.readElem 1))
      (exec (.process 1#32)
        { State.reset with
          voices := [{ fresh { Birth.reset with dspType := .pulse, midcFreq := ⟨0x40C7700000000000#64⟩ } with
            argp := { Args.reset with volume := 127#7 } }] }) =
      some (0x3E7C0000#32, 0x3E7C0000#32) := by decide +kernel

/-- V-L2-BSY-8 and V-L2-CH-6: PROCESS frees a DEAD slot. -/
theorem test_process_reclaims :
    shows (fun t => ((slot 0 t).state, t.status))
      (exec (.process 1#32) { State.reset with voices := [{ sounding with state := .dead }], status := 0x100#32 }) =
      some (.free, 0#32) := by decide +kernel

/-- V-L2-CH-1: the older of two notes is released. -/
theorem test_noteoff :
    shows (fun t => ((slot 3 t).rt.released, (slot 4 t).rt.released)) (exec (.noteoff 0#4 60#32) twoNotes) =
      some (true, false) := by decide

/-- V-L2-CH-4: no voice on the channel, no error. -/
theorem test_noteoff_other : statusAfter (.noteoff 1#4 60#32) twoNotes = some 0x100#32 := by decide

/-- V-L2-CH-5: every voice dies; `ANY_VOICE` stays until the next PROCESS. -/
theorem test_alloff :
    shows (fun t => (t.voices.map (·.state), t.status)) (exec .alloff twoNotes) =
      some ([.free, .free, .free, .dead, .dead, .free, .free, .free], 0x100#32) := by decide

/-- V-L2-CH-12. -/
theorem test_clrstat : statusAfter (.clrstat 4#32) { band with status := 0x10C#32 } = some 0x108#32 := by decide

/-- V-L2-DEC-22. -/
theorem test_clrstat_range : statusAfter (.clrstat 0x20#32) State.reset = some 0x002#32 := by decide

/-- P4, command 9: ISDEAD reads 1. -/
theorem test_rdvoice : shows (·.result) (exec (.rdvoice 1#8 1#8) band) = some 1#32 := by decide

/-- V-L2-DEC-7 for RDVOICE: a slot that does not exist; `RESULT` keeps its value. -/
theorem test_rdvoice_none :
    shows (fun t => (t.result, t.status)) (exec (.rdvoice 0#8 8#8) { band with result := 7#32 }) =
      some (7#32, 0x108#32) := by decide

/-! ### Witnesses: for each statement with hypotheses, values that meet them -/

/-- The reserved bits of a small `STATUS` are 0. -/
theorem reservedBits {st : Word} (h : st &&& 0x11F#32 = st) : ∀ k, 5 ≤ k → k ≠ 8 → st.getLsbD k = false := by
  intro k h5 h8
  rw [← h, BitVec.getLsbD_and]
  have hm : (0x11F#32).getLsbD k = false := by
    by_cases hk : k < 32
    · interval_cases k <;> first | rfl | omega
    · exact BitVec.getLsbD_of_ge _ _ (by omega)
  rw [hm, Bool.and_false]

theorem band_statusWf : band.statusWf :=
  ⟨reservedBits (by decide), by decide⟩

theorem reset_statusWf : State.reset.statusWf := ⟨reservedBits (by decide), by decide⟩

/-- Commands one after another complete. -/
theorem execAll_total (is : List Instr) (s : State) : ∃ t, execAll is s = .next t := by
  induction is generalizing s with
  | nil => exact ⟨s, rfl⟩
  | cons i is ih =>
    obtain ⟨u, hu⟩ := exec_total i s
    obtain ⟨t, ht⟩ := ih u
    exact ⟨t, by simp only [execAll, hu, ht]⟩

theorem witness_DecodeOfEncode : (Instr.setv 0x16#8 255#8 0#32).wellFormed = true ∧
    (Instr.setc 8#8 15#4 1#32).wellFormed = true ∧ (Instr.setg 3#8 1#32).wellFormed = true ∧
    (Instr.rdvoice 9#8 255#8).wellFormed = true ∧ (Instr.updargsCh 15#4).wellFormed = true := by decide

theorem witness_EncodeOfDecode : decode 0x0C09000F#32 0#32 = .ok (.rdvoice 9#8 15#8) := by decide

theorem witness_WorkedEncodingsDecode : ("NOP", Instr.nop, 0x00000000#32, 0x00000000#32) ∈
    [(("NOP" : String), Instr.nop, (0x00000000#32 : Word), (0x00000000#32 : Word))] := by simp

theorem witness_StepRunsDecodedCommand :
    (atPort 0x02009005#32 0x11#32 State.reset).port = .data 0x02009005#32 ∧
    (atPort 0x02009005#32 0x11#32 State.reset).input = .port 0x11#32 :: [] ∧
    decode 0x02009005#32 0x11#32 = .ok (.noteon 9#4 5#8 17#32) := ⟨rfl, rfl, by decide⟩

theorem witness_PortProtocol :
    (State.reset.port = .header ∧
      ({ State.reset with input := [.port 5#32] } : State).input = .port 5#32 :: []) ∧
    ((atPort 0xFF000000#32 0#32 State.reset).port = .data 0xFF000000#32 ∧
      (atPort 0xFF000000#32 0#32 State.reset).input = .port 0#32 :: []) ∧
    ({ atPort 0#32 0#32 band with input := [.reset] } : State).input = .reset :: [] :=
  ⟨⟨rfl, rfl⟩, ⟨rfl, rfl⟩, rfl⟩

/-- One pair of words for each cause of R262, at the boundary of its range. -/
theorem witness_IllegalCommandRaises :
    ∀ p ∈ [(0x0D000000#32, 0#32), (0x00000100#32, 0#32), (0x08010000#32, 1#32), (0x01001000#32, 0x3C#32),
        (0x05001000#32, 0#32), (0x09000001#32, 0x3C#32), (0x05010001#32, 0#32), (0x03000000#32, 1#32),
        (0x01170000#32, 0#32), (0x06090000#32, 0#32), (0x07040000#32, 1#32), (0x05020000#32, 0#32),
        (0x0C0A0000#32, 0#32)],
      IllegalWords p.1 p.2 ∧ (atPort p.1 p.2 band).port = .data p.1 ∧
        (atPort p.1 p.2 band).input = .port p.2 :: [] := by
  intro p hp
  refine ⟨?_, rfl, rfl⟩
  simp only [List.mem_cons, List.not_mem_nil, or_false] at hp
  simp only [IllegalWords]
  rcases hp with rfl | rfl | rfl | rfl | rfl | rfl | rfl | rfl | rfl | rfl | rfl | rfl | rfl <;> decide

theorem witness_IdleKeepsState : band.input = [] := rfl

theorem witness_HostWritesOneElement :
    band.memoryWf ∧ 63 < band.cfg.smpWords ∧ band.cfg.smpWords ≤ 64 ∧ 127 < 2 * band.cfg.blockMax ∧
      2 * band.cfg.blockMax ≤ 128 ∧
      ({ band with input := [.writeSmp 63 7#32] } : State).input = .writeSmp 63 7#32 :: [] ∧
      ({ band with input := [.writeOut 127 7#32] } : State).input = .writeOut 127 7#32 :: [] :=
  ⟨⟨rfl, rfl⟩, by decide, by decide, by decide, by decide, rfl, rfl⟩

/-- The first and last address of each resource, and the addresses beside them. -/
theorem witness_HostWritesOneElement_map :
    band.cfg.mapLegal ∧ ({ band with input := [.store 780 7#32] } : State).input = .store 780 7#32 :: [] ∧
      (∀ p ∈ [(0, Resource.port), (4, .status), (8, .result), (12, .smp 0), (264, .smp 63), (268, .out 0),
        (776, .out 127)], p ∈ band.cfg.platformMap) ∧
      ∀ r ∈ band.cfg.platformMap, r.1 ≠ 780 ∧ r.1 ≠ 2 ∧ (r.1 = 4 → r.2 = .status) ∧ (r.1 = 8 → r.2 = .result) :=
  ⟨consecutive_mapLegal rfl, rfl, by decide +kernel, by decide +kernel⟩

theorem witness_ResetEventRestores :
    ({ band with input := [.reset, .reset] } : State).input = .reset :: [.reset] := rfl

theorem witness_ErrorsArePreciseAndSticky :
    (∃ t, exec (.release 7#8) State.reset = .next t ∧ State.reset.status.getLsbD 3 = false ∧
      t.status.getLsbD 3 = true) ∧
    (∃ t, exec (.kill 0#8) { band with status := 0x11F#32 } = .next t ∧
      (0x11F#32).getLsbD 4 = true ∧ ∀ m, Instr.kill 0#8 ≠ .clrstat m) :=
  ⟨⟨_, rfl, by decide, by decide⟩, ⟨_, rfl, by decide, by simp⟩⟩

theorem witness_AnyVoiceAfterEveryCommand :
    ∃ t, (atPort 0x04000000#32 0#32 band).port = .data 0x04000000#32 ∧
      (atPort 0x04000000#32 0#32 band).input = .port 0#32 :: [] ∧
      step (atPort 0x04000000#32 0#32 band) = .next t := ⟨_, rfl, rfl, rfl⟩

theorem witness_StatusInfluencesNothing : ∃ t, exec (.kill 0#8) band = .next t := ⟨_, rfl⟩

/-- NOP meets every clause's hypothesis. -/
theorem witness_AccessMatrix :
    ∃ t, exec .nop band = .next t ∧ (∀ sel d, Instr.nop ≠ .setg sel d) ∧
      (∀ ch v off, Instr.nop ≠ .noteon ch v off) ∧ (∀ sel ch d, Instr.nop ≠ .setc sel ch d) ∧
      (∀ n, Instr.nop ≠ .process n) ∧ (∀ sel v d, Instr.nop ≠ .setv sel v d) ∧
      (∀ sel v, Instr.nop ≠ .rdvoice sel v) ∧ Instr.nop = .nop :=
  ⟨_, rfl, by simp, by simp, by simp, by simp, by simp, by simp, rfl⟩

theorem witness_NoteIsFixedWhileItSounds :
    ∃ t, exec (.kill 0#8) band = .next t ∧ band.voices[0]? = some sounding ∧ sounding.state ≠ .free :=
  ⟨_, rfl, rfl, by decide⟩

theorem witness_PortRunsAreSafe :
    ∀ e ∈ ({ band with input := [.port 1#32, .reset, .port 0xFFFFFFFF#32] } : State).input,
      e = .reset ∨ ∃ w, e = .port w := by
  simp

theorem witness_BusySlotErrors :
    band.voices[(0#8).toNat]? = some sounding ∧ sounding.state ≠ .free ∧ (0x16#8).toNat < 0x17 :=
  ⟨rfl, by decide, by decide⟩

theorem witness_NoVoiceErrors :
    (band.slotsWf ∧ band.cfg.numVoices ≤ (8#8).toNat ∧ (0x16#8).toNat < 0x17 ∧ (9#8).toNat < 0x0A) ∧
    (band.voices[(2#8).toNat]? = some Voice.reset ∧ Voice.reset.state = .free) ∧
    (band.statusWf ∧ ∀ w ∈ band.voices, w.state.live = true → w.ch = 2#4 →
      w.birth.key.toNat = min (128#32).toNat 127 → w.rt.released = true) ∧
    (∀ w ∈ band.voices, w.state.live = true → w.ch ≠ 15#4) :=
  ⟨⟨rfl, by decide⟩, ⟨rfl, rfl⟩, ⟨band_statusWf, by decide⟩, by decide⟩

/-- Data at the boundary of every cause of R263. -/
theorem witness_RangeErrors :
    (band.voices[(2#8).toNat]? = some Voice.reset ∧ Voice.reset.state = .free) ∧
    (6 < (7#32).toNat ∧ 1 < (2#32).toNat ∧ 3 < (4#32).toNat ∧ 0xFF < (0x100#32).toNat ∧
      (0#32 ≠ 1#32 ∧ 0#32 ≠ 2#32) ∧ (3#32 ≠ 1#32 ∧ 3#32 ≠ 2#32)) ∧
    (¬ f32Positive 0#32 ∧ ¬ f32Positive 0x7F800000#32 ∧ ¬ f32Finite 0x7F800000#32 ∧
      ¬ f32NonNegative 0x80000001#32) ∧
    (band.voices[(4#8).toNat]? = some { Voice.reset with birth := badBirth } ∧ badBirth.dspType = .pcm ∧
      ¬ RegionInside band.cfg badBirth) ∧
    ((0#32).toNat = 0 ∧ band.cfg.blockMax < (65#32).toNat ∧ 0x1F < (0x20#32).toNat) ∧
    ((∀ w ∈ State.reset.voices, w.state = .free) ∧ 65535 < (65536#32).toNat) := by
  refine ⟨⟨rfl, rfl⟩, by decide, ?_, ⟨rfl, rfl, ?_⟩, by decide, by decide⟩
  · simp only [f32Positive, f32Finite, f32NonNegative]
    decide
  · simp only [RegionInside]
    decide

theorem witness_StateErrors : sounding ∈ band.voices ∧ sounding.state ≠ .free := by
  refine ⟨?_, by decide⟩
  simp [band]

theorem witness_NopChangesNothing : band.statusWf ∧ headerOp 0x00000001#32 = 0x00#8 ∧ 0x00000001#32 ≠ 0#32 ∧
    1#32 ≠ 0#32 := ⟨band_statusWf, by decide, by decide, by decide⟩

theorem witness_SetvStoresNumbers :
    band.voices[(2#8).toNat]? = some Voice.reset ∧ Voice.reset.state = .free := ⟨rfl, rfl⟩

theorem witness_SetvStoresLegalValues :
    (band.voices[(2#8).toNat]? = some Voice.reset ∧ Voice.reset.state = .free) ∧ f32Positive 1#32 ∧
      f32Positive 0x7F7FFFFF#32 := by
  simp only [f32Positive]
  exact ⟨⟨rfl, rfl⟩, by decide, by decide⟩

/-- Each outcome of NOTEON, the last at the greatest birth number that still counts on. -/
theorem witness_NoteonRule :
    (band.voices[(1#8).toNat]? = some { sounding with state := .dead } ∧ VState.dead ≠ .free) ∧
    (band.voices[(2#8).toNat]? = some Voice.reset ∧ Voice.reset.birth.dspType = .none) ∧
    (band.voices[(4#8).toNat]? = some { Voice.reset with birth := badBirth } ∧ badBirth.dspType = .pcm ∧
      ¬ RegionInside band.cfg badBirth) ∧
    (band.voices[(3#8).toNat]? = some { Voice.reset with birth := pcmBirth } ∧ pcmBirth.dspType ≠ .none ∧
      (pcmBirth.dspType = .pcm ∨ pcmBirth.dspType = .pcmFixed → RegionInside band.cfg pcmBirth) ∧
      ({ band.glob with seq := 0xFFFFFFFFFFFFFFFE#64 } : Globals).seq.toNat + 1 < 2 ^ 64) := by
  simp only [RegionInside]
  exact ⟨⟨rfl, by decide⟩, ⟨rfl, rfl⟩, ⟨rfl, rfl, by decide⟩, rfl, by decide, by decide, by decide⟩

/-- A slot that is not FREE and one that is, for RELEASE, KILL, UPDARGS and RDVOICE. -/
theorem witness_ReleaseRule :
    (band.voices[(0#8).toNat]? = some sounding ∧ sounding.state ≠ .free) ∧
    (band.voices[(2#8).toNat]? = some Voice.reset ∧ Voice.reset.state = .free) :=
  ⟨⟨rfl, by decide⟩, rfl, rfl⟩

theorem witness_KillRule :
    (band.voices[(1#8).toNat]? = some { sounding with state := .dead } ∧ VState.dead ≠ .free) ∧
    (band.voices[(5#8).toNat]? = some { Voice.reset with birth := sawBirth } ∧ Voice.reset.state = .free) :=
  ⟨⟨rfl, by decide⟩, rfl, rfl⟩

theorem witness_UpdargsRule :
    (band.voices[(6#8).toNat]? = some (fresh sawBirth) ∧ (fresh sawBirth).state ≠ .free) ∧
    (band.voices[(2#8).toNat]? = some Voice.reset ∧ Voice.reset.state = .free) :=
  ⟨⟨rfl, by decide⟩, rfl, rfl⟩

theorem witness_RdvoiceRule : band.voices[(7#8).toNat]? = some (fresh pcmBirth) := rfl

theorem witness_SetcRule : 3 < (4#32).toNat := by decide

theorem witness_SetgStoresLegalValues :
    f32Finite 0xFF7FFFFF#32 ∧ f32NonNegative 0x80000000#32 ∧ f32NonNegative 0x7F7FFFFF#32 ∧
      (∀ w ∈ State.reset.voices, w.state = .free) ∧ f32Positive 1#32 ∧
      (1 ≤ (200#32).toNat ∧ (200#32).toNat ≤ 65535 ∧ State.reset.glob.spf.toNat = (200#32).toNat) ∧
      (1 ≤ (1#32).toNat ∧ (1#32).toNat ≤ 65535 ∧ State.reset.glob.spf.toNat ≠ (1#32).toNat) ∧
      (1 ≤ (65535#32).toNat ∧ (65535#32).toNat ≤ 65535 ∧
        State.reset.glob.spf.toNat ≠ (65535#32).toNat) := by
  simp only [f32Finite, f32NonNegative, f32Positive]
  decide

theorem witness_ClrstatRule : (0x1F#32).toNat ≤ 0x1F ∧ 0x1F < (0x20#32).toNat := by decide

theorem witness_NoteoffRule :
    (∀ w ∈ twoNotes.voices, ¬ (w.state.live = true ∧ w.ch = 1#4 ∧ w.birth.key.toNat = min (60#32).toNat 127 ∧
      w.rt.released = false)) ∧
    (twoNotes.voices[3]? = some { fresh sawBirth with seq := 1#64 } ∧
      (let w : Voice := { fresh sawBirth with seq := 1#64 }
       w.state.live = true ∧ w.ch = 0#4 ∧ w.birth.key.toNat = min (60#32).toNat 127 ∧ w.rt.released = false) ∧
      ∀ (k : Nat) (u : Voice), twoNotes.voices[k]? = some u →
        (u.state.live = true ∧ u.ch = 0#4 ∧ u.birth.key.toNat = min (60#32).toNat 127 ∧
          u.rt.released = false) → k ≠ 3 → (1#64).toNat < u.seq.toNat) := by
  refine ⟨by decide, rfl, by decide, fun k u hk hu hne => ?_⟩
  have hlt : k < 8 := by
    by_contra h
    rw [List.getElem?_eq_none (by simp [twoNotes]; omega)] at hk
    cases hk
  interval_cases k <;> cases hk <;> first | exact absurd rfl hne | exact absurd hu.1 (by decide) | decide

theorem witness_ProcessCompletes :
    (1 ≤ (1#32).toNat ∧ (1#32).toNat ≤ band.cfg.blockMax) ∧
    (1 ≤ (64#32).toNat ∧ (64#32).toNat ≤ band.cfg.blockMax) ∧ band.voices[2]? = some Voice.reset ∧
    (band.voices[1]? = some { sounding with state := .dead }) :=
  ⟨by decide, by decide, rfl, rfl⟩

theorem witness_SlotsRenderAlone :
    (∃ t, exec (.process 64#32) band = .next t) ∧ 1 ≤ (64#32).toNat ∧ (64#32).toNat ≤ band.cfg.blockMax ∧
      band.voices[0]? = some sounding ∧ sounding.state ≠ .free ∧
      (List.replicate 64 Stereo.zero).length = (64#32).toNat :=
  ⟨exec_total _ _, by decide, by decide, rfl, by decide, by decide⟩

/-- A dead voice, one that has started, and one whose offset reaches to the end of the block. -/
theorem witness_StartOffsetRule :
    let v : Voice := { fresh sawBirth with rt := Runtime.initial 17#32 }
    sounding.kill.state = .dead ∧ (sounding.state ≠ .dead ∧ sounding.rt.delay = 0#32) ∧
    v.state ≠ .dead ∧ (List.replicate 17 Stereo.zero).length ≤ v.rt.delay.toNat ∧
      (List.replicate 17 Stereo.zero).length = v.rt.delay.toNat := by decide

theorem witness_MixAddsToOutput :
    Memory.wf 128 [] = true ∧ 2 * (List.replicate 64 Stereo.zero).length ≤ 128 ∧
      (List.replicate 64 Stereo.zero)[63]? = some Stereo.zero ∧
      (F64.add (F64.ofF32 (Memory.readElem [] 126)) F64.zero).isNaN = false ∧
      (F64.add (F64.ofF32 (Memory.readElem [] 127)) F64.zero).isNaN = false ∧
      (F64.add (F64.ofF32 (Memory.readElem [] 0)) F64.nan).isNaN = true := by decide +kernel

/-- A sample before the last of a sub-frame, the last one, which starts no frame, the first of a frame that is not
rendered, and one that ends a stream. -/
theorem witness_RenderedSampleAdvances :
    let e := State.reset.env
    let v198 : Voice := { sounding with rt := { sounding.rt with subcnt := 198#16 } }
    let dying : Voice := { sounding with state := .die, rt := { sounding.rt with subcnt := 0#16 } }
    let ended : Voice := { sounding with birth := Birth.reset, rt := { sounding.rt with srcEnd := true } }
    (v198.rt.subcnt.toNat < e.glob.spf.toNat ∧ (frameStepIfDue e v198).state ≠ .dead ∧
      v198.rt.subcnt.toNat + 1 < e.glob.spf.toNat) ∧
    (¬ (sounding.rt.subcnt = 0#16 ∧ sounding.rt.subidx = 0#2) ∧
      sounding.rt.subcnt.toNat < e.glob.spf.toNat ∧ (frameStepIfDue e sounding).state ≠ .dead ∧
      sounding.rt.subcnt.toNat + 1 = e.glob.spf.toNat) ∧
    ((dying.rt.subcnt = 0#16 ∧ dying.rt.subidx = 0#2) ∧ dying.rt.subcnt.toNat < e.glob.spf.toNat ∧ (frameStepIfDue e dying).state = .dead) ∧
    ((frameStepIfDue e ended).state ≠ .dead ∧ (voiceSample e 0 true 0 2 ended).1.rt.subcnt = 0#16 ∧
      (voiceSample e 0 true 0 2 ended).1.rt.srcEnd = true) := by decide +kernel

theorem witness_FrameStepWeights :
    let e := State.reset.env
    ((frameStep e (fresh sawBirth)).state ≠ .dead ∧ (fresh sawBirth).state = .init) ∧
    ((frameStep e sounding).state ≠ .dead ∧ sounding.state ≠ .init) ∧
    (frameStep e { sounding with state := .die }).state = .dead := by decide +kernel

theorem witness_EnvelopeAttack :
    ((fresh sawBirth).release.state = .init ∧ (fresh sawBirth).release.rt.released = true) ∧
    ((fresh sawBirth).state = .init ∧ (fresh sawBirth).rt.released = false) ∧
    (({ sounding with state := .atk } : Voice).state = .atk ∧ sounding.rt.released = false) := by decide

/-- A voice in DEC above its sustain level, one at it, and one whose sustain level is 0, with and without an
echo. -/
theorem witness_EnvelopeDecay :
    let b (dec sus vol len : BitVec 8) : Birth :=
      { sawBirth with dec := dec, sus := sus, echoVol := vol, echoLen := len }
    let v (b : Birth) : Voice := { sounding with state := .dec, birth := b }
    (∀ x, (v x).state = .dec ∧ (v x).rt.released = false) ∧
    (b 128#8 99#8 0#8 0#8).sus.toNat < sounding.rt.level.toNat * (b 128#8 99#8 0#8 0#8).dec.toNat / 256 ∧
    (sounding.rt.level.toNat * (b 128#8 100#8 0#8 0#8).dec.toNat / 256 ≤ (b 128#8 100#8 0#8 0#8).sus.toNat ∧
      (b 128#8 100#8 0#8 0#8).sus ≠ 0#8) ∧
    (sounding.rt.level.toNat * (b 1#8 0#8 1#8 1#8).dec.toNat / 256 ≤ (b 1#8 0#8 1#8 1#8).sus.toNat ∧
      (b 1#8 0#8 1#8 1#8).echoVol ≠ 0#8 ∧ (b 1#8 0#8 1#8 1#8).echoLen ≠ 0#8) ∧
    (b 1#8 0#8 1#8 0#8).echoLen = 0#8 := by
  refine ⟨fun x => ⟨rfl, rfl⟩, ?_⟩
  decide

/-- A released voice in SUS above the echo volume, at it with an echo, and without one. -/
theorem witness_EnvelopeRelease :
    let v (rel vol len : BitVec 8) : Voice :=
      { sounding.release with birth := { sawBirth with rel := rel, echoVol := vol, echoLen := len } }
    (∀ a b c, (v a b c).rt.released = true ∧ (v a b c).state = .sus) ∧
    (v 128#8 99#8 1#8).birth.echoVol.toNat <
      (v 128#8 99#8 1#8).rt.level.toNat * (v 128#8 99#8 1#8).birth.rel.toNat / 256 ∧
    ((v 128#8 100#8 1#8).rt.level.toNat * (v 128#8 100#8 1#8).birth.rel.toNat / 256 ≤
        (v 128#8 100#8 1#8).birth.echoVol.toNat ∧ (v 128#8 100#8 1#8).birth.echoVol ≠ 0#8 ∧
      (v 128#8 100#8 1#8).birth.echoLen ≠ 0#8) ∧
    ((v 128#8 100#8 0#8).rt.level.toNat * (v 128#8 100#8 0#8).birth.rel.toNat / 256 ≤
        (v 128#8 100#8 0#8).birth.echoVol.toNat ∧ (v 128#8 100#8 0#8).birth.echoLen = 0#8) := by
  refine ⟨fun a b c => ⟨rfl, rfl⟩, ?_⟩
  decide

theorem witness_EnvelopeTail :
    let v (st : VState) (cnt : BitVec 8) : Voice :=
      { sounding with state := st, rt := { sounding.rt with echoCnt := cnt } }
    ((v .pseudoEcho 255#8).state = .pseudoEcho ∧ (v .pseudoEcho 255#8).rt.echoCnt ≠ 0#8 ∧
      254 < (v .pseudoEcho 255#8).rt.echoCnt.toNat) ∧
    (v .die 0#8).state = .die ∧ (v .dead 0#8).state = .dead ∧
    ((v .sus 0#8).state = .sus ∧ (v .sus 0#8).rt.released = false) := by decide

theorem witness_ReleasedVoiceDies : sounding.release.rt.released = true ∧ sounding.release.state ≠ .free := by
  decide

theorem witness_Exp2Properties :
    (-1000 ≤ (-1000 : Int) ∧ (1000 : Int) ≤ 1000) ∧ F64.le F64.half F64.one = true := by decide +kernel

/-- A fixed-rate sample, another generator, key 60 with a pitch that cancels out, and nothing that bends it. -/
theorem witness_PitchAtReference :
    let pitch (v : Voice) : Int :=
      v.arg.tune.toInt + v.arg.pitchWheel.toInt * v.arg.bendRange.toNat + lfoValue v * 4
    let bent : Voice :=
      { Voice.reset with arg := { Voice.reset.arg with tune := 126#16, pitchWheel := 0x41#7, bendRange := 2#7 } }
    let unbent : Voice :=
      { Voice.reset with arg := { Voice.reset.arg with pitchWheel := 63#7, bendRange := 0#7 } }
    ({ Birth.reset with dspType := .pcmFixed } : Birth).dspType = .pcmFixed ∧ sawBirth.dspType ≠ .pcmFixed ∧
    (bent.birth.midcFreq.isFinite = true ∧ bent.birth.key = 60#7 ∧ pitch bent = 0) ∧
    (unbent.arg.tune = 0#16 ∧ unbent.arg.bendRange = 0#7 ∧ unbent.arg.lfoDepth = 0#7) ∧
    (Voice.reset.arg.tune = 0#16 ∧ Voice.reset.arg.pitchWheel = 0#7 ∧ Voice.reset.arg.lfoDepth = 0#7) := by
  decide +kernel

/-- A clock below the threshold, and one that reaches it exactly (V-L2-LFO-11, the 1000th sample). -/
theorem witness_LfoRule :
    let e := State.reset.env
    let step := F64.mul e.glob.bpm (F64.ofNat e.cfg.lfoTicksPerBeat)
    let thr := F64.mul (F64.ofInt 60) e.glob.sampleRate
    let acc := F64.add (F64.ofInt 2877120) step
    F64.le thr (F64.add F64.zero step) = false ∧
      (F64.lt F64.zero thr = true ∧ F64.le thr acc = true ∧ F64.sub acc thr ≠ acc ∧
        F64.le thr (F64.sub acc thr) = false) := by decide +kernel

/-- An ascending and a descending sweep, a timer that does not move (V-L2-SW-1, 2, 4), and no sweep; a lookup at
each end of the window and inside it, and a read position that 64 bits hold. -/
theorem witness_SweepConverges :
    let up : Birth := { Birth.reset with sweep := 0x12#8 }
    let down : Birth := { Birth.reset with sweep := 0x19#8 }
    let n := F64.ofNat Params.standard.blepN
    let square : Voice :=
      { fresh { Birth.reset with dspType := .square } with rt := { Runtime.initial 0#32 with rinc := F64.one } }
    let k := F64.floor (F64.add square.rt.rphase square.rt.rinc)
    (1024 ≤ Params.standard.timerMax ∧ 3 < 2 ^ sweepShift up ∧ sweepDown up = false ∧
      2 ^ sweepShift up ≤ 1024 ∧ sweepDown down = true ∧ sweepShift Birth.reset = 0 ∧
      sounding.rt.sweepOn = false ∧ ({ sounding.rt with sweepOn := true } : Runtime).sweepOn = true) ∧
    ((-1 : Int) < 0 ∧ (0 : Int) ≤ 0 ∧ 1 ≤ Params.standard.blepN ∧ 1 ≤ Params.standard.blepRes) ∧
    F64.le (F64.neg n) (F64.neg n) = true ∧ (F64.le n (F64.neg n) = false ∧ F64.le n n = true) ∧
    (F64.le F64.zero (F64.neg n) = false ∧ F64.le n F64.zero = false) ∧
    (square.birth.dspType = .square ∧ 0 ≤ k ∧ square.rt.ridx.toNat + k < 2 ^ 64) := by decide +kernel

theorem witness_PwmThresholdRule :
    let of (t : DspType) : Birth := { Birth.reset with dspType := t }
    Birth.reset.pwmDepth = 0#9 ∧ ({ Birth.reset with stairstep := true } : Birth).stairstep = true ∧
      Birth.reset.stairstep = false ∧ ({ Runtime.initial 0#32 with subidx := 3#2 } : Runtime).subidx = 3#2 ∧
      (of .pulse).dspType = .pulse ∧ (of .saw).dspType = .saw ∧ (of .triangle).dspType = .triangle ∧
      (of .square).dspType = .square ∧ (of .pcm).dspType = .pcm ∧ (of .pcmFixed).dspType = .pcmFixed := by
  decide

/-- A region that ends at the last element: before its end, at it, and at it with a loop. -/
theorem witness_FetchRule :
    let loop : Birth := { pcmBirth with smpLoopEn := true, smpLoopPos := 3#32 }
    RegionInside State.reset.env.cfg pcmBirth ∧ RegionInside State.reset.env.cfg loop ∧
      loop.smpLoopEn = true ∧ (3#32).toNat < pcmBirth.smpEnd.toNat ∧
      pcmBirth.smpEnd.toNat ≤ (4#32).toNat ∧ pcmBirth.smpLoopEn = false := by
  simp only [RegionInside]
  decide

theorem witness_LinearUnitRate :
    f32Finite 0x7F7FFFFF#32 ∧ f32Finite 0xFF7FFFFF#32 ∧ f32Finite 0x80000000#32 ∧ f32Finite 1#32 ∧
      (∃ v : Voice, v.rt.rphase = F64.zero ∧ v.rt.rinc = F64.one ∧
        v.rt.rbuf = ⟨F64.ofF32 0x7F7FFFFF#32, F64.ofF32 0xFF7FFFFF#32⟩ ::
          ⟨F64.ofF32 0x80000000#32, F64.ofF32 1#32⟩ :: []) := by
  simp only [f32Finite]
  refine ⟨by decide, by decide, by decide, by decide, ?_⟩
  exact ⟨{ Voice.reset with
    rt := { Runtime.initial 0#32 with
      rinc := F64.one
      rbuf := [⟨F64.ofF32 0x7F7FFFFF#32, F64.ofF32 0xFF7FFFFF#32⟩,
        ⟨F64.ofF32 0x80000000#32, F64.ofF32 1#32⟩] } }, rfl, rfl, rfl⟩

theorem witness_ReverbSampleRule :
    Channel.reset.reverbType = .off ∧
    (({ Channel.reset with reverbType := .base, cur0 := 1599 } : Channel).reverbType = .base ∧
      ringWf (Globals.reset.spf.toNat * 4 * Params.standard.hwbuf) [] 1599) ∧
    ({ Channel.reset with reverbType := .variant .B } : Channel).reverbType = .variant .B := by
  simp only [ringWf]
  decide

/-- Every channel with the given reverb. -/
def reverbed (r : ReverbType) : State :=
  { State.reset with
    chans := Vector.replicate 16 (({ Channel.reset with reverbType := r } : Channel).resetReverb
      Params.standard Globals.reset) }

theorem reverbed_chan (r : ReverbType) (c : BitVec 4) :
    (reverbed r).chan c =
      ({ Channel.reset with reverbType := r } : Channel).resetReverb Params.standard Globals.reset := by
  simp [reverbed, State.chan]

theorem reverbed_wf (r : ReverbType) : (reverbed r).reverbsWf := by
  have h1 : 1 ≤ (reverbed r).glob.spf.toNat := show 1 ≤ Globals.reset.spf.toNat by decide
  have h2 : 1 ≤ (reverbed r).cfg.hwbuf := show 1 ≤ Params.standard.hwbuf by decide
  refine ⟨h1, h2, fun c => ?_⟩
  rw [reverbed_chan]
  exact ⟨resetReverb_wf h1 h2 _, rfl⟩

/-- Twenty-five blocks of 64 samples traverse the base ring of 1600 pairs once; as many blocks of one sample as
a common multiple of a variant's two lengths traverse both. -/
theorem witness_CursorsComeBack :
    ((reverbed .base).reverbsWf ∧
      (∀ n ∈ List.replicate 25 64#32, 1 ≤ n.toNat ∧ n.toNat ≤ (reverbed .base).cfg.blockMax) ∧
      (∃ t, execAll ((List.replicate 25 64#32).map .process) (reverbed .base) = .next t) ∧
      ((reverbed .base).chan 0#4).reverbType = .base ∧
      ((List.replicate 25 64#32).map BitVec.toNat).sum = 1 * (Globals.reset.spf.toNat * 4 * 2)) ∧
    ((reverbed .off).chan 0#4).reverbType = .off ∧
    ∀ x, (reverbed (.variant x)).reverbsWf ∧ ((reverbed (.variant x)).chan 0#4).reverbType = .variant x ∧
      ∃ ns : List Word, (∀ n ∈ ns, 1 ≤ n.toNat ∧ n.toNat ≤ Params.standard.blockMax) ∧
        (∃ t, execAll (ns.map .process) (reverbed (.variant x)) = .next t) ∧
        (ns.map BitVec.toNat).sum =
          1 * Nat.lcm (revLen1 x Params.standard Globals.reset) (revLen2 x Params.standard Globals.reset) := by
  refine ⟨⟨reverbed_wf _, fun n hn => by rw [List.eq_of_mem_replicate hn]; decide, execAll_total _ _,
      by rw [reverbed_chan]; rfl, by decide +kernel⟩,
    by rw [reverbed_chan]; rfl, fun x => ⟨reverbed_wf _, by rw [reverbed_chan]; rfl, ?_⟩⟩
  refine ⟨List.replicate
    (Nat.lcm (revLen1 x Params.standard Globals.reset) (revLen2 x Params.standard Globals.reset)) 1#32,
    fun n hn => ?_, execAll_total _ _, by simp⟩
  rw [List.eq_of_mem_replicate hn]
  decide

theorem witness_StepKeepsStatus :
    (atPort 0x04000000#32 0#32 band).statusWf ∧ ∃ t, step (atPort 0x04000000#32 0#32 band) = .next t :=
  ⟨band_statusWf, _, rfl⟩

theorem witness_StepKeepsMemories :
    let s : State := { band with input := [.writeSmp 63 7#32] }
    (s.memoryWf ∧ s.slotsWf) ∧ ∃ t, step s = .next t := ⟨⟨⟨rfl, rfl⟩, rfl⟩, _, rfl⟩

theorem witness_StepKeepsSlots :
    let s := atPort 0x04000000#32 0#32 band
    (s.gridWf ∧ s.regionsWf ∧ s.rangesWf) ∧ ∃ t, step s = .next t := by
  refine ⟨?_, _, rfl⟩
  simp only [State.gridWf, State.regionsWf, State.rangesWf, RegionInside]
  decide

theorem witness_StepKeepsReverbs :
    let s : State := { reverbed (.variant .A) with input := [.port 0#32] }
    s.reverbsWf ∧ ∃ t, step s = .next t :=
  ⟨reverbed_wf (.variant .A), _, rfl⟩

theorem witness_ResetHasInvariants :
    Params.standard.legal ∧ Memory.wf Params.standard.smpWords [(255, 1#8)] = true ∧
      Memory.wf (outWords Params.standard) [(511, 1#8)] = true := by
  have h : Params.standard.mapLegal := consecutive_mapLegal rfl
  simp only [Params.legal, h, and_true]
  decide +kernel

end Sys2Proof.Tests
end

section
/-!
PROOFS. `EXP2` (R16).  The key idea: the integers `EXP2` is exact at are no case of their own.  At each of them
`exp2Lo` and `exp2Hi` are both 2^k, so that the order key of `EXP2(x)` is everywhere that of the configuration
function limited to the interval from `exp2Lo` to `exp2Hi` (`exp2LimitedKey`, `exp2_order`), and both ends are monotone.
-/

namespace Sys2Proof.F64

open Sys2Proof.Machine

/-! ### Order keys and exact values -/

/-- The exact value of a binary64 magnitude, in units of 2^-1074. -/
theorem units64 (m : Nat) :
    binary64.units m =
      if m / 2 ^ 52 = 0 then m % 2 ^ 52 else (2 ^ 52 + m % 2 ^ 52) * 2 ^ (m / 2 ^ 52 - 1) := rfl

/-- The exact value grows with the magnitude: within an exponent by the fraction, and from the last fraction of
one exponent to the first of the next. -/
theorem units_strictMono : StrictMono binary64.units := by
  refine strictMono_nat_of_lt_succ fun m => ?_
  rw [units64, units64]
  by_cases hcarry : m % 2 ^ 52 + 1 = 2 ^ 52
  · rw [show (m + 1) / 2 ^ 52 = m / 2 ^ 52 + 1 by omega, show (m + 1) % 2 ^ 52 = 0 by omega]
    cases m / 2 ^ 52 with
    | zero => simp; omega
    | succ e =>
      have := Nat.two_pow_pos e
      simp only [Nat.add_one_ne_zero, if_false, Nat.add_sub_cancel, Nat.pow_succ 2 e,
        show m % 2 ^ 52 = 2 ^ 52 - 1 by omega]
      omega
  · rw [show (m + 1) / 2 ^ 52 = m / 2 ^ 52 by omega, show (m + 1) % 2 ^ 52 = m % 2 ^ 52 + 1 by omega]
    split
    · omega
    · exact Nat.mul_lt_mul_of_pos_right (by omega) (Nat.two_pow_pos _)

/-- Order keys and exact values order alike. -/
theorem units_le_units_iff (x y : F64) : x.units ≤ y.units ↔ x.key ≤ y.key := by
  have hle := units_strictMono.le_iff_le (a := x.mag) (b := y.mag)
  have hge := units_strictMono.le_iff_le (a := y.mag) (b := x.mag)
  have hx := units_eq_zero (m := x.mag)
  have hy := units_eq_zero (m := y.mag)
  unfold units key
  cases x.sign <;> cases y.sign <;> simp only [Bool.false_eq_true, if_false, if_true] <;> omega

/-- The finite values are those with keys between the infinities'. -/
theorem isFinite_iff (x : F64) :
    x.isFinite = true ↔ -(binary64.infMag : Int) < x.key ∧ x.key < (binary64.infMag : Int) := by
  simp only [isFinite, decide_eq_true_eq, infMag64]
  unfold key
  split <;> omega

/-- Order keys on the natural numbers order as the keys do: none is cut off at 0. -/
theorem natKey_le_natKey_iff (x y : F64) : x.natKey ≤ y.natKey ↔ x.key ≤ y.key := by
  have hx := x.mag_lt
  have hy := y.mag_lt
  unfold natKey key
  split <;> split <;> omega

/-- `x ≤ y` of numbers is the order of their keys. -/
theorem le_iff {x y : F64} : le x y = true ↔ x.isNaN = false ∧ y.isNaN = false ∧ x.natKey ≤ y.natKey := by
  simp [le, natKey_le_natKey_iff, and_assoc]

/-- The keys of numbers lie between those of the two infinities. -/
theorem natKey_bounds {x : F64} (hx : x.isNaN = false) :
    2 ^ 63 - binary64.infMag ≤ x.natKey ∧ x.natKey ≤ 2 ^ 63 + binary64.infMag := by
  simp only [isNaN, decide_eq_false_iff_not, infMag64] at hx
  rw [infMag64]
  unfold natKey key
  split <;> omega

/-- Between the keys of the infinities, `ofNatKey` gives the number with that key. -/
theorem natKey_ofNatKey {n : Nat} (h1 : 2 ^ 63 - binary64.infMag ≤ n) (h2 : n ≤ 2 ^ 63 + binary64.infMag) :
    (ofNatKey n).isNaN = false ∧ (ofNatKey n).natKey = n := by
  rw [infMag64] at h1 h2
  unfold ofNatKey
  split
  · have hm : 2 ^ 63 - n < 2 ^ 63 := by omega
    simp only [isNaN, natKey, key, mag_ofMag _ hm, sign_ofMag _ hm, infMag64, if_true, decide_eq_false_iff_not]
    omega
  · have hm : n - 2 ^ 63 < 2 ^ 63 := by omega
    simp only [isNaN, natKey, key, mag_ofMag _ hm, sign_ofMag _ hm, infMag64, Bool.false_eq_true, if_false,
      decide_eq_false_iff_not]
    omega

/-! ### Integers and powers of two -/

/-- An integer of at most 53 bits converts exactly (R9). -/
theorem ofInt_exact {k : Int} (hk : k.natAbs < 2 ^ 53) :
    (ofInt k).isFinite = true ∧ (ofInt k).units = k * one1074 := by
  have hpos := one1074_pos
  unfold ofInt ofUnits
  split
  · next h0 =>
    rw [h0]
    exact ⟨by decide, by decide⟩
  · next h0 =>
    obtain ⟨m, hm, hu⟩ := exists_units hk (show 1074 ≤ 2045 by omega)
    have hround : binary64.round (k * (one1074 : Int)).natAbs 1 = m := by
      rw [Int.natAbs_mul, Int.natAbs_natCast, one1074, ← hu, binary64.round_units hm]
    have hlt : m < 2 ^ 63 := by rw [infMag64] at hm; omega
    rw [hround, isFinite, units, mag_ofMag _ hlt, sign_ofMag _ hlt, hu]
    refine ⟨by simpa using hm, ?_⟩
    have hneg : k * (one1074 : Int) < 0 ↔ k < 0 := by
      simpa only [Int.zero_mul] using mul_lt_mul_iff_left₀ (b := k) (c := 0) (show (0 : Int) < one1074 by omega)
    rw [show (2 : Nat) ^ 1074 = one1074 from rfl, Nat.cast_mul]
    simp only [hneg, decide_eq_true_eq]
    split
    · rw [← Int.neg_mul]; congr 1; omega
    · congr 1; omega

section Pow2

variable {k : Int} (h1 : -1000 ≤ k) (h2 : k ≤ 1000)
include h1 h2

/-- The parts of a power of two. -/
theorem pow2_parts : (pow2 k).sign = false ∧ (pow2 k).mag = (1023 + k).toNat * 2 ^ 52 := by
  have hm : (1023 + k).toNat * 2 ^ 52 < 2 ^ 63 := by omega
  exact ⟨sign_ofMag _ hm, mag_ofMag _ hm⟩

/-- A power of two is finite. -/
theorem isFinite_pow2 : (pow2 k).isFinite = true := by
  simp only [isFinite, (pow2_parts h1 h2).2, infMag64, decide_eq_true_eq]
  omega

/-- The exact value of a power of two. -/
theorem units_pow2 : (pow2 k).units = 2 ^ (1074 + k).toNat := by
  obtain ⟨hs, hm⟩ := pow2_parts h1 h2
  have hexp : (1074 + k).toNat = 52 + ((1023 + k).toNat - 1) := by omega
  have he : (1023 + k).toNat ≠ 0 := by omega
  rw [units, hs, hm, hexp, pow_add]
  simp [FloatFormat.units, binary64, he]

/-- The order key of a power of two is linear in the exponent. -/
theorem natKey_pow2 : (pow2 k).natKey = 2 ^ 63 + (1023 + k).toNat * 2 ^ 52 := by
  obtain ⟨hs, hm⟩ := pow2_parts h1 h2
  simp only [natKey, key, hs, hm, Bool.false_eq_true, if_false]
  omega

end Pow2

/-- Powers of two are ordered by their exponents. -/
theorem natKey_pow2_mono {k l : Int} (hk : -1000 ≤ k) (hkl : k ≤ l) (hl : l ≤ 1000) :
    (pow2 k).natKey ≤ (pow2 l).natKey := by
  rw [natKey_pow2 hk (by omega), natKey_pow2 (by omega) hl]
  omega

/-! ### The interval exactness leaves -/

/-- `-1000 ≤ x ≤ 1000`, on the exact value. -/
def InExp2Range (x : F64) : Prop := -1000 * (one1074 : Int) ≤ x.units ∧ x.units ≤ 1000 * (one1074 : Int)

/-- `toF64(k) < x` compares exact values, for an integer of at most 53 bits. -/
theorem ofInt_lt_iff {x : F64} (hx : x.isNaN = false) {k : Int} (hk : k.natAbs < 2 ^ 53) :
    lt (ofInt k) x = true ↔ k * one1074 < x.units := by
  obtain ⟨hf, hu⟩ := ofInt_exact hk
  simp only [lt, hx, not_isNaN_of_isFinite hf, Bool.not_false, Bool.true_and, decide_eq_true_eq]
  rw [← hu, ← not_le, ← not_le, units_le_units_iff]

/-- `x < toF64(k)` compares exact values, for an integer of at most 53 bits. -/
theorem lt_ofInt_iff {x : F64} (hx : x.isNaN = false) {k : Int} (hk : k.natAbs < 2 ^ 53) :
    lt x (ofInt k) = true ↔ x.units < k * one1074 := by
  obtain ⟨hf, hu⟩ := ofInt_exact hk
  simp only [lt, hx, not_isNaN_of_isFinite hf, Bool.not_false, Bool.true_and, decide_eq_true_eq]
  rw [← hu, ← not_le, ← not_le, units_le_units_iff]

/-- A choice by where x lies: below the range, in it, or above it. -/
def byExp2Range (below inside above x : F64) : F64 :=
  if 1000 * (one1074 : Int) < x.units then above
  else if x.units < -1000 * (one1074 : Int) then below else inside

/-- Both ends of the interval are chosen by where x lies. -/
theorem exp2Lo_exp2Hi_eq {x : F64} (hx : x.isNaN = false) :
    exp2Lo x = byExp2Range (inf true) (pow2 x.floor) (pow2 1000) x ∧
      exp2Hi x = byExp2Range (pow2 (-1000)) (pow2 x.ceil) (inf false) x := by
  simp only [exp2Lo, exp2Hi, byExp2Range, ofInt_lt_iff hx (k := 1000) (by decide),
    lt_ofInt_iff hx (k := -1000) (by decide), and_self]

/-- What holds of all three values holds of the choice. -/
theorem byExp2Range_ind {P : F64 → Prop} {below inside above x : F64} (hb : P below)
    (hi : InExp2Range x → P inside) (ha : P above) : P (byExp2Range below inside above x) := by
  unfold byExp2Range
  split
  · exact ha
  · split
    · exact hb
    · exact hi ⟨by omega, by omega⟩

/-- Such a choice is monotone where the values inside are, between those of the two sides. -/
theorem byExp2Range_mono {x y below above i j : F64} (hxy : x.units ≤ y.units)
    (hside : below.natKey ≤ above.natKey)
    (hx : InExp2Range x → i.natKey ≤ above.natKey) (hy : InExp2Range y → below.natKey ≤ j.natKey)
    (hmono : InExp2Range x → InExp2Range y → i.natKey ≤ j.natKey) :
    (byExp2Range below i above x).natKey ≤ (byExp2Range below j above y).natKey := by
  unfold byExp2Range
  by_cases hax : 1000 * (one1074 : Int) < x.units
  · rw [if_pos hax, if_pos (by omega)]
  · by_cases hbx : x.units < -1000 * (one1074 : Int)
    · rw [if_neg hax, if_pos hbx]
      exact byExp2Range_ind (P := fun z => below.natKey ≤ z.natKey) le_rfl hy hside
    · have hxr : InExp2Range x := ⟨by omega, by omega⟩
      rw [if_neg hax, if_neg hbx, if_neg (c := y.units < _) (by omega)]
      split
      · exact hx hxr
      · exact hmono hxr ⟨by omega, by omega⟩

namespace InExp2Range

variable {x y : F64}

/-- No infinity is in the range. -/
theorem isFinite (h : InExp2Range x) : x.isFinite = true := by
  obtain ⟨hf, hu⟩ := ofInt_exact (k := 1000) (by decide)
  obtain ⟨hf', hu'⟩ := ofInt_exact (k := -1000) (by decide)
  have hlo : (ofInt (-1000)).key ≤ x.key := by rw [← units_le_units_iff, hu']; exact h.1
  have hhi : x.key ≤ (ofInt 1000).key := by rw [← units_le_units_iff, hu]; exact h.2
  rw [isFinite_iff] at hf hf' ⊢
  omega

/-- The neighbouring integers are in the range too. -/
theorem floor_ceil_mem (h : InExp2Range x) :
    (-1000 ≤ x.floor ∧ x.floor ≤ 1000) ∧ -1000 ≤ x.ceil ∧ x.ceil ≤ 1000 := by
  have hpos : (0 : Int) < one1074 := by exact_mod_cast one1074_pos
  obtain ⟨hlo, hhi⟩ := h
  simp only [floor, ceil, isFinite ⟨hlo, hhi⟩, if_true]
  have hdown := Int.le_ediv_of_mul_le hpos hlo
  have hup := Int.ediv_le_ediv hpos hhi
  have hdown' := Int.le_ediv_of_mul_le hpos (a := -1000) (b := -x.units) (by omega)
  have hup' := Int.ediv_le_ediv hpos (a := -x.units) (b := 1000 * one1074) (by omega)
  rw [Int.mul_ediv_cancel _ hpos.ne'] at hup hup'
  omega

/-- `floor` and `ceil` are monotone. -/
theorem floor_ceil_mono (hx : InExp2Range x) (hy : InExp2Range y) (h : x.units ≤ y.units) :
    x.floor ≤ y.floor ∧ x.ceil ≤ y.ceil := by
  have hpos : (0 : Int) < one1074 := by exact_mod_cast one1074_pos
  simp only [floor, ceil, hx.isFinite, hy.isFinite, if_true]
  have hdown := Int.ediv_le_ediv hpos h
  have hup := Int.ediv_le_ediv hpos (Int.neg_le_neg h)
  omega

end InExp2Range

/-- Every number lies between the infinities. -/
theorem natKey_between_inf {x : F64} (hx : x.isNaN = false) :
    (inf true).natKey ≤ x.natKey ∧ x.natKey ≤ (inf false).natKey := by
  have hbot : (inf true).natKey = 2 ^ 63 - binary64.infMag := by decide
  have htop : (inf false).natKey = 2 ^ 63 + binary64.infMag := by decide
  rw [hbot, htop]
  exact natKey_bounds hx

/-- Neither end of the interval is NaN. -/
theorem exp2Lo_exp2Hi_number {x : F64} (hx : x.isNaN = false) :
    (exp2Lo x).isNaN = false ∧ (exp2Hi x).isNaN = false := by
  rw [(exp2Lo_exp2Hi_eq hx).1, (exp2Lo_exp2Hi_eq hx).2]
  constructor
  · refine byExp2Range_ind (P := fun z => z.isNaN = false) (by decide) (fun h => ?_) (by decide)
    obtain ⟨⟨hlo, hhi⟩, -⟩ := h.floor_ceil_mem
    exact not_isNaN_of_isFinite (isFinite_pow2 hlo hhi)
  · refine byExp2Range_ind (P := fun z => z.isNaN = false) (by decide) (fun h => ?_) (by decide)
    obtain ⟨-, hlo, hhi⟩ := h.floor_ceil_mem
    exact not_isNaN_of_isFinite (isFinite_pow2 hlo hhi)

/-- The low end of the interval is monotone, as `floor` is. -/
theorem exp2Lo_mono {x y : F64} (hx : x.isNaN = false) (hy : y.isNaN = false) (h : x.units ≤ y.units) :
    (exp2Lo x).natKey ≤ (exp2Lo y).natKey := by
  rw [(exp2Lo_exp2Hi_eq hx).1, (exp2Lo_exp2Hi_eq hy).1]
  refine byExp2Range_mono h (by decide) (fun hxr => ?_) (fun hyr => ?_) (fun hxr hyr => ?_)
  · exact natKey_pow2_mono hxr.floor_ceil_mem.1.1 hxr.floor_ceil_mem.1.2 le_rfl
  · obtain ⟨⟨hlo, hhi⟩, -⟩ := hyr.floor_ceil_mem
    exact (natKey_between_inf (not_isNaN_of_isFinite (isFinite_pow2 hlo hhi))).1
  · exact natKey_pow2_mono hxr.floor_ceil_mem.1.1 (hxr.floor_ceil_mono hyr h).1 hyr.floor_ceil_mem.1.2

/-- The high end of the interval is monotone, as `ceil` is. -/
theorem exp2Hi_mono {x y : F64} (hx : x.isNaN = false) (hy : y.isNaN = false) (h : x.units ≤ y.units) :
    (exp2Hi x).natKey ≤ (exp2Hi y).natKey := by
  rw [(exp2Lo_exp2Hi_eq hx).2, (exp2Lo_exp2Hi_eq hy).2]
  refine byExp2Range_mono h (by decide) (fun hxr => ?_) (fun hyr => ?_) (fun hxr hyr => ?_)
  · obtain ⟨-, hlo, hhi⟩ := hxr.floor_ceil_mem
    exact (natKey_between_inf (not_isNaN_of_isFinite (isFinite_pow2 hlo hhi))).2
  · exact natKey_pow2_mono le_rfl hyr.floor_ceil_mem.2.1 hyr.floor_ceil_mem.2.2
  · exact natKey_pow2_mono hxr.floor_ceil_mem.2.1 (hxr.floor_ceil_mono hyr h).2 hyr.floor_ceil_mem.2.2

/-! ### `EXP2` -/

/-- What `smallInteger` finds is in the range, and its own floor and ceiling. -/
theorem smallInteger_some {x : F64} {k : Int} (h : smallInteger x = some k) :
    InExp2Range x ∧ x.floor = k ∧ x.ceil = k := by
  have hpos : (0 : Int) < one1074 := by exact_mod_cast one1074_pos
  unfold smallInteger at h
  split at h
  · next hc =>
    simp only [Bool.and_eq_true, beq_iff_eq, decide_eq_true_eq] at hc
    obtain ⟨⟨hf, hmod⟩, hk⟩ := hc
    have hfloor : x.floor = k := Option.some.inj h
    obtain ⟨q, hq⟩ := Int.dvd_of_emod_eq_zero hmod
    have hqk : q = k := by
      rw [← hfloor, floor, if_pos hf, hq, Int.mul_ediv_cancel_left _ hpos.ne']
    rw [hfloor] at hk
    rw [hqk] at hq
    refine ⟨⟨?_, ?_⟩, hfloor, ?_⟩
    · rw [hq, Int.mul_comm]
      exact Int.mul_le_mul_of_nonneg_left (by omega) hpos.le
    · rw [hq, Int.mul_comm]
      exact Int.mul_le_mul_of_nonneg_right (by omega) hpos.le
    · rw [ceil, if_pos hf, hq, ← Int.mul_neg, Int.mul_ediv_cancel_left _ hpos.ne', Int.neg_neg]
  · cases h

/-- `smallInteger` finds every integer of the range. -/
theorem smallInteger_ofInt {k : Int} (h1 : -1000 ≤ k) (h2 : k ≤ 1000) : smallInteger (ofInt k) = some k := by
  have hpos : (0 : Int) < one1074 := by exact_mod_cast one1074_pos
  obtain ⟨hf, hu⟩ := ofInt_exact (k := k) (by omega)
  have hfloor : (ofInt k).floor = k := by rw [floor, if_pos hf, hu, Int.mul_ediv_cancel _ hpos.ne']
  have hk : k.natAbs ≤ 1000 := by omega
  simp only [smallInteger, hf, hu, hfloor, Int.mul_emod_left, hk, beq_self_eq_true, decide_true, Bool.and_self,
    if_true]

/-- `EXP2` is exact at the integers. -/
theorem exp2_ofInt {k : Int} (h1 : -1000 ≤ k) (h2 : k ≤ 1000) : exp2 (ofInt k) = pow2 k := by
  have hn := not_isNaN_of_isFinite (ofInt_exact (k := k) (by omega)).1
  simp only [exp2, hn, Bool.false_eq_true, if_false, smallInteger_ofInt h1 h2]

/-- The order key of the configuration function, limited to the interval from `exp2Lo` to `exp2Hi`. -/
def exp2LimitedKey (x : F64) : Nat :=
  Nat.min (Nat.max (Config.exp2Key x.natKey) (exp2Lo x).natKey) (exp2Hi x).natKey

/-- The limited key is that of a number. -/
theorem exp2LimitedKey_bounds {x : F64} (hx : x.isNaN = false) :
    2 ^ 63 - binary64.infMag ≤ exp2LimitedKey x ∧ exp2LimitedKey x ≤ 2 ^ 63 + binary64.infMag := by
  obtain ⟨hlo, hhi⟩ := exp2Lo_exp2Hi_number hx
  obtain ⟨hhi1, hhi2⟩ := natKey_bounds hhi
  exact ⟨le_min (le_max_of_le_right (natKey_bounds hlo).1) hhi1, min_le_of_right_le hhi2⟩

/-- The limited key is monotone: the configuration function and both ends of the interval are. -/
theorem exp2LimitedKey_mono {x y : F64} (hx : x.isNaN = false) (hy : y.isNaN = false)
    (hxy : x.natKey ≤ y.natKey) : exp2LimitedKey x ≤ exp2LimitedKey y := by
  have hunits : x.units ≤ y.units := by rwa [units_le_units_iff, ← natKey_le_natKey_iff]
  exact min_le_min (max_le_max (Config.exp2Key.monotone hxy) (exp2Lo_mono hx hy hunits))
    (exp2Hi_mono hx hy hunits)

/-- At an integer the interval is one point, 2^k. -/
theorem exp2LimitedKey_of_smallInteger {x : F64} {k : Int} (h : smallInteger x = some k) (hx : x.isNaN = false) :
    exp2LimitedKey x = (pow2 k).natKey := by
  obtain ⟨⟨hle, hge⟩, hfloor, hceil⟩ := smallInteger_some h
  have hlo : exp2Lo x = pow2 k := by
    simp only [(exp2Lo_exp2Hi_eq hx).1, hfloor, byExp2Range, not_lt.mpr hle, not_lt.mpr hge, if_false]
  have hhi : exp2Hi x = pow2 k := by
    simp only [(exp2Lo_exp2Hi_eq hx).2, hceil, byExp2Range, not_lt.mpr hle, not_lt.mpr hge, if_false]
  rw [exp2LimitedKey, hlo, hhi]
  exact min_eq_right (le_max_right _ _)

/-- `EXP2` of a number is a number whose order key is the limited key, at the integers too. -/
theorem exp2_order {x : F64} (hx : x.isNaN = false) :
    (exp2 x).isNaN = false ∧ (exp2 x).natKey = exp2LimitedKey x := by
  simp only [exp2, hx, Bool.false_eq_true, if_false]
  split
  · next k hk =>
    obtain ⟨hr, hfloor, -⟩ := smallInteger_some hk
    obtain ⟨⟨hlo, hhi⟩, -⟩ := hr.floor_ceil_mem
    rw [hfloor] at hlo hhi
    exact ⟨not_isNaN_of_isFinite (isFinite_pow2 hlo hhi), (exp2LimitedKey_of_smallInteger hk hx).symm⟩
  · obtain ⟨hlo, hhi⟩ := exp2LimitedKey_bounds hx
    obtain ⟨hnum, hkey⟩ := natKey_ofNatKey hlo hhi
    obtain ⟨hzkey, hznum⟩ := key_withZeroSign (Config.exp2ZeroSign x) (ofNatKey (exp2LimitedKey x))
    exact ⟨hznum.trans hnum, (congrArg (fun z => (z + 2 ^ 63).toNat) hzkey).trans hkey⟩

/-- `EXP2` is monotone (R16). -/
theorem exp2_mono {x y : F64} (h : le x y = true) : le (exp2 x) (exp2 y) = true := by
  obtain ⟨hx, hy, hxy⟩ := le_iff.mp h
  obtain ⟨hnx, hkx⟩ := exp2_order hx
  obtain ⟨hny, hky⟩ := exp2_order hy
  refine le_iff.mpr ⟨hnx, hny, ?_⟩
  rw [hkx, hky]
  exact exp2LimitedKey_mono hx hy hxy

/-- `EXP2` is 1 at 0 (R16). -/
theorem exp2_zero : exp2 zero = one := by
  have hzero : zero = ofInt 0 := by rw [ofInt, Int.zero_mul]; decide
  have hone : pow2 0 = one := by decide
  rw [hzero, exp2_ofInt (by omega) (by omega), hone]

/-- Settles O45: it holds.  Exact at the integers by `exp2_ofInt`, monotone by `exp2_order`. -/
theorem exp2Properties : Obligations.Exp2Properties := by
  unfold Obligations.Exp2Properties
  refine ⟨exp2_zero, fun k h1 h2 => ?_, fun x y => exp2_mono⟩
  rw [exp2_ofInt h1 h2]
  exact ⟨isFinite_pow2 h1 h2, units_pow2 h1 h2⟩

end Sys2Proof.F64
end

section
/-!
PROOFS. The access matrix (R45): what the effect of a command may write, said once (`effect_written`), and what
each part of the state is therefore left as.
-/

namespace Sys2Proof.Machine

/-! ### Lists of slots, seen through one of their parts -/

/-- Replacing an entry by one that looks the same leaves a list looking the same. -/
theorem map_set_of_eq {α β : Type} {f : α → β} {l : List α} {v : Nat} {w w' : α} (hw : l[v]? = some w)
    (h : f w' = f w) : (l.set v w').map f = l.map f := by
  obtain ⟨hv, rfl⟩ := List.getElem?_eq_some_iff.mp hw
  rw [List.map_set, h, ← List.getElem_map f (h := by simpa using hv), List.set_getElem_self]

/-- Two lists that look the same do so at every place. -/
theorem getElem?_map_of_map_eq {α β : Type} {f : α → β} {l l' : List α} (h : l.map f = l'.map f) (j : Nat) :
    l[j]?.map f = l'[j]?.map f := by
  rw [← List.getElem?_map, h, List.getElem?_map]

/-- NOTEOFF's release leaves all birth fields (R240). -/
theorem releaseOldest_birth (ch : BitVec 4) (key seq : Nat) (vs : List Voice) :
    (releaseOldest ch key seq vs).map Voice.birth = vs.map Voice.birth := by
  induction vs with
  | nil => rfl
  | cons w ws ih =>
    simp only [releaseOldest]
    split
    · rfl
    · rw [List.map_cons, List.map_cons, ih]

/-- A function of slots that leaves the birth fields leaves those of a list. -/
theorem map_birth_of_forall {f : Voice → Voice} (h : ∀ w, (f w).birth = w.birth) (vs : List Voice) :
    (vs.map f).map Voice.birth = vs.map Voice.birth := by
  rw [List.map_map]
  exact List.map_congr_left fun w _ => h w

/-- All of a slot but its birth fields (R45). -/
def Voice.soundPart (w : Voice) : VState × BitVec 4 × BitVec 64 × Args × Args × Runtime :=
  (w.state, w.ch, w.seq, w.argp, w.arg, w.rt)

/-! ### Writes of registers -/

/-- A register write touches neither the rings nor the cursors nor the buffer of a channel, and its type only as
`REVERB_TYPE` (R244). -/
theorem Channel.write_keeps {r : ChanReg} {d : Word} {c c' : Channel} (h : c.write r d = some c') :
    c' = { c with args := c'.args, reverbType := c'.reverbType, reverbIntensity := c'.reverbIntensity } ∧
      (r ≠ .reverbType → c'.reverbType = c.reverbType) := by
  cases r with
  | reverbType =>
    obtain ⟨x, _, rfl⟩ := Option.map_eq_some_iff.mp h
    exact ⟨rfl, fun hne => absurd rfl hne⟩
  | _ => cases h; exact ⟨rfl, fun _ => rfl⟩

/-- `G.SEQ` is no register that SETG writes, and `SPF` is never written 0 (R22, R23, R245). -/
theorem Globals.write_keeps {r : GlobReg} {d : Word} {g g' : Globals} (h : g.write r d = some g') :
    g'.seq = g.seq ∧ (r ≠ .spf → g'.spf = g.spf) ∧ (1 ≤ g.spf.toNat → 1 ≤ g'.spf.toNat) := by
  cases r with
  | spf =>
    simp only [Globals.write] at h
    split at h
    · cases h
    · next hd =>
      cases h
      refine ⟨rfl, fun hne => absurd rfl hne, fun _ => ?_⟩
      simp only [BitVec.toNat_ofNat]
      omega
  | outputGain | sampleRate | bpm =>
    obtain ⟨x, _, rfl⟩ := Option.map_eq_some_iff.mp h
    exact ⟨rfl, fun _ => rfl, id⟩

/-! ### What a command writes -/

/-- The commands that R45 lets write the fields of a slot other than its birth fields. -/
def actsOnSlots : Instr → Bool
  | .noteon .. | .release _ | .kill _ | .updargs _ | .updargsCh _ | .process _ | .noteoff .. | .alloff => true
  | .nop | .setv .. | .setc .. | .setg .. | .clrstat _ | .rdvoice .. => false

/-- What command i may write before `ANY_VOICE` is recomputed (R45).  Every command may write error bits. -/
inductive Written (i : Instr) (s u : State) : Prop where
  | errorBits (st : Word) (hst : ∀ k, 5 ≤ k → k < 32 → st.getLsbD k = s.status.getLsbD k)
      (h : u = { s with status := st })
  | result (sel v : BitVec 8) (hi : i = .rdvoice sel v) (x : Word) (h : u = { s with result := x })
  | births (sel v : BitVec 8) (d : Word) (hi : i = .setv sel v d) (vs : List Voice)
      (hvs : vs.map Voice.soundPart = s.voices.map Voice.soundPart) (h : u = { s with voices := vs })
  | slots (hi : actsOnSlots i = true) (vs : List Voice) (hvs : vs.map Voice.birth = s.voices.map Voice.birth)
      (q : BitVec 64) (hq : (∀ ch v off, i ≠ .noteon ch v off) → q = s.glob.seq)
      (h : u = { s with voices := vs, glob := { s.glob with seq := q } })
  | channel (sel : BitVec 8) (ch : BitVec 4) (d : Word) (hi : i = .setc sel ch d) (r : ChanReg) (c : Channel)
      (hc : (s.chan ch).write r d = some c)
      (h : u = s.setChan ch (if r = .reverbType then c.resetReverb s.cfg s.glob else c))
  | globals (sel : BitVec 8) (d : Word) (hi : i = .setg sel d) (r : GlobReg) (g : Globals)
      (hg : s.glob.write r d = some g)
      (h : u = { s with
        glob := g
        chans := if r = .spf ∧ g.spf ≠ s.glob.spf then resetAllReverbs s.cfg g s.chans else s.chans })
  | block (n : Word) (hi : i = .process n) (hn : n.toNat ≤ s.cfg.blockMax) (h : u = processBlock n.toNat s)

/-- A command that leaves all registers as they were. -/
theorem Written.unchanged (i : Instr) (s : State) : Written i s s := .errorBits s.status (fun _ _ _ => rfl) rfl

/-- A command on slots that replaces one by a slot with the same birth fields. -/
theorem Written.slot {i : Instr} {s : State} {v : Nat} {w w' : Voice} (hi : actsOnSlots i = true)
    (hw : s.voices[v]? = some w) (h : w'.birth = w.birth) : Written i s (s.setVoice v w') :=
  .slots hi _ (map_set_of_eq hw h) s.glob.seq (fun _ => rfl) rfl

/-- The effect of every command is one of these writes. -/
theorem effect_written {i : Instr} {s u : State} (h : Effect i s u) : Written i s u := by
  cases i with
  | nop => cases h; exact .unchanged _ _
  | setv sel v d =>
    obtain ⟨r, w, b, _, hw, _, _, rfl⟩ := h
    refine .births sel v d rfl _ ?_ rfl
    exact map_set_of_eq hw rfl
  | noteon ch v off =>
    obtain ⟨w, hw, _, ⟨_, rfl⟩ | ⟨_, _, rfl⟩⟩ := h
    · exact .unchanged _ _
    · refine .slots rfl _ ?_ _ (fun hne => absurd rfl (hne ch v off)) rfl
      exact map_set_of_eq hw rfl
  | release => obtain ⟨w, hw, _, rfl⟩ := h; exact .slot rfl hw rfl
  | kill => obtain ⟨w, hw, _, rfl⟩ := h; exact .slot rfl hw rfl
  | updargs => obtain ⟨w, hw, _, rfl⟩ := h; exact .slot rfl hw rfl
  | updargsCh ch =>
    cases h
    have hslot : ∀ w, (updargsSlot ch (s.chan ch).args w).birth = w.birth := fun w => by
      unfold updargsSlot; split <;> rfl
    exact .slots rfl _ (map_birth_of_forall hslot _) s.glob.seq (fun _ => rfl) rfl
  | setc sel ch d => obtain ⟨r, c, _, hc, rfl⟩ := h; exact .channel sel ch d rfl r c hc rfl
  | setg sel d => obtain ⟨r, g, _, _, hg, rfl⟩ := h; exact .globals sel d rfl r g hg rfl
  | process n => obtain ⟨_, hn, rfl⟩ := h; exact .block n rfl hn rfl
  | noteoff ch key =>
    obtain ⟨_, rfl⟩ | ⟨q, _, rfl⟩ := h
    · exact .unchanged _ _
    · exact .slots rfl _ (releaseOldest_birth _ _ _ _) s.glob.seq (fun _ => rfl) rfl
  | alloff =>
    cases h
    have hslot : ∀ w, (alloffSlot w).birth = w.birth := fun w => by unfold alloffSlot; split <;> rfl
    exact .slots rfl _ (map_birth_of_forall hslot _) s.glob.seq (fun _ => rfl) rfl
  | clrstat m =>
    obtain ⟨_, rfl⟩ := h
    refine .errorBits _ (fun k h5 h32 => ?_) rfl
    rw [statusCleared_bit _ _ h32]
    simp only [show ¬ k < 5 by omega, decide_false, Bool.and_false, Bool.not_false, Bool.and_true]
  | rdvoice sel v => obtain ⟨it, w, _, _, rfl⟩ := h; exact .result sel v rfl _ rfl

/-- An error writes its bit. -/
theorem error_written (i : Instr) (e : Err) (s : State) :
    Written i s { s with status := statusWithError s.status e } := by
  refine .errorBits _ (fun k h5 h32 => ?_) rfl
  have := e.bit_lt
  rw [statusWithError_bit _ _ h32]
  simp only [show k ≠ e.bit by omega, decide_false, Bool.or_false]

/-- Every command makes one of these writes and recomputes `ANY_VOICE`. -/
theorem exec_written {i : Instr} {s t : State} (h : exec i s = .next t) : ∃ u, Written i s u ∧ t = u.complete := by
  obtain ⟨e, rfl⟩ | ⟨u, hu, rfl⟩ := exec_cases h
  · exact ⟨_, error_written i e s, rfl⟩
  · exact ⟨u, effect_written hu, rfl⟩

/-- A slot rendered and reclaimed is the same note (R102, R238). -/
theorem processedSlot_sameNote (e : Env) (n j : Nat) (w : Voice) :
    SameNote w (reclaimSlot (renderedSlot e n j w)) :=
  (renderedSlot_sameNote e n j w).trans (reclaimSlot_fields _).1.1

/-! ### What a command leaves -/

namespace Written

variable {i : Instr} {s u : State}

/-- The configuration, the port, the host's queue, sample memory and the number of slots are no command's to
change. -/
theorem fixed (hw : Written i s u) :
    u.cfg = s.cfg ∧ u.port = s.port ∧ u.input = s.input ∧ u.smpMem = s.smpMem ∧
      u.voices.length = s.voices.length := by
  cases hw with
  | errorBits st _ h => subst h; exact ⟨rfl, rfl, rfl, rfl, rfl⟩
  | result _ _ _ x h => subst h; exact ⟨rfl, rfl, rfl, rfl, rfl⟩
  | births _ _ _ _ vs hvs h =>
    subst h
    exact ⟨rfl, rfl, rfl, rfl, by simpa using congrArg List.length hvs⟩
  | slots _ vs hvs q _ h =>
    subst h
    exact ⟨rfl, rfl, rfl, rfl, by simpa using congrArg List.length hvs⟩
  | channel _ _ _ _ r c _ h => subst h; exact ⟨rfl, rfl, rfl, rfl, rfl⟩
  | globals _ _ _ r g _ h => subst h; exact ⟨rfl, rfl, rfl, rfl, rfl⟩
  | block n _ _ h =>
    subst h
    obtain ⟨hcfg, -, -, -, hport, hsmp, hinput, -, hlen⟩ := processBlock_frame n.toNat s
    exact ⟨hcfg, hport, hinput, hsmp, hlen⟩

/-- Bits 5 and up of `STATUS` are no command's to change before `ANY_VOICE` is recomputed. -/
theorem status_bit (hw : Written i s u) {k : Nat} (h5 : 5 ≤ k) (h32 : k < 32) :
    u.status.getLsbD k = s.status.getLsbD k := by
  cases hw with
  | errorBits st hst h => subst h; exact hst k h5 h32
  | result _ _ _ x h => subst h; rfl
  | births _ _ _ _ vs _ h => subst h; rfl
  | slots _ vs _ q _ h => subst h; rfl
  | channel _ _ _ _ r c _ h => subst h; rfl
  | globals _ _ _ r g _ h => subst h; rfl
  | block n _ _ h =>
    subst h
    obtain ⟨-, -, hstatus, -⟩ := processBlock_frame n.toNat s
    rw [hstatus]

/-- The global registers but `G.SEQ` are changed by SETG only, and `G.SEQ` by NOTEON only. -/
theorem glob (hw : Written i s u) :
    ((∀ sel d, i ≠ .setg sel d) → u.glob = { s.glob with seq := u.glob.seq }) ∧
      ((∀ ch v off, i ≠ .noteon ch v off) → u.glob.seq = s.glob.seq) := by
  cases hw with
  | errorBits st _ h => subst h; exact ⟨fun _ => rfl, fun _ => rfl⟩
  | result _ _ _ x h => subst h; exact ⟨fun _ => rfl, fun _ => rfl⟩
  | births _ _ _ _ vs _ h => subst h; exact ⟨fun _ => rfl, fun _ => rfl⟩
  | slots _ vs _ q hq h => subst h; exact ⟨fun _ => rfl, hq⟩
  | channel _ _ _ _ r c _ h => subst h; exact ⟨fun _ => rfl, fun _ => rfl⟩
  | globals sel d hi r g hg h =>
    subst h
    exact ⟨fun hne => absurd hi (hne sel d), fun _ => (Globals.write_keeps hg).1⟩
  | block n _ _ h =>
    subst h
    obtain ⟨-, hglob, -⟩ := processBlock_frame n.toNat s
    rw [hglob]
    exact ⟨fun _ => rfl, fun _ => rfl⟩

/-- The channels are changed by SETC, SETG and PROCESS only. -/
theorem chans (hw : Written i s u) (hc : ∀ sel ch d, i ≠ .setc sel ch d) (hg : ∀ sel d, i ≠ .setg sel d)
    (hp : ∀ n, i ≠ .process n) : u.chans = s.chans := by
  cases hw with
  | errorBits st _ h => subst h; rfl
  | result _ _ _ x h => subst h; rfl
  | births _ _ _ _ vs _ h => subst h; rfl
  | slots _ vs _ q _ h => subst h; rfl
  | channel sel ch d hi => exact absurd hi (hc sel ch d)
  | globals sel d hi => exact absurd hi (hg sel d)
  | block n hi => exact absurd hi (hp n)

/-- The channel registers are changed by SETC only: SETG initialises reverb states, PROCESS runs them. -/
theorem chanRegisters (hw : Written i s u) (hc : ∀ sel ch d, i ≠ .setc sel ch d) (c : BitVec 4) :
    (u.chan c).args = (s.chan c).args ∧ (u.chan c).reverbType = (s.chan c).reverbType ∧
      (u.chan c).reverbIntensity = (s.chan c).reverbIntensity := by
  cases hw with
  | errorBits st _ h => subst h; exact ⟨rfl, rfl, rfl⟩
  | result _ _ _ x h => subst h; exact ⟨rfl, rfl, rfl⟩
  | births _ _ _ _ vs _ h => subst h; exact ⟨rfl, rfl, rfl⟩
  | slots _ vs _ q _ h => subst h; exact ⟨rfl, rfl, rfl⟩
  | channel sel ch d hi => exact absurd hi (hc sel ch d)
  | globals _ _ _ r g _ h =>
    subst h
    simp only [State.chan]
    split
    · rw [chan_resetAllReverbs]
      exact ⟨rfl, rfl, rfl⟩
    · exact ⟨rfl, rfl, rfl⟩
  | block n _ _ h =>
    subst h
    rw [processBlock_chan]
    obtain ⟨hargs, htype, hint, -⟩ := reverbBlock_registers s.cfg s.glob (s.chan c) (dryBlock s n.toNat c)
    exact ⟨hargs, htype, hint⟩

/-- The birth fields are changed by SETV only. -/
theorem birth (hw : Written i s u) (hv : ∀ sel v d, i ≠ .setv sel v d) (j : Nat) :
    u.voices[j]?.map Voice.birth = s.voices[j]?.map Voice.birth := by
  cases hw with
  | errorBits st _ h => subst h; rfl
  | result _ _ _ x h => subst h; rfl
  | births sel v d hi => exact absurd hi (hv sel v d)
  | slots _ vs hvs q _ h => subst h; exact getElem?_map_of_map_eq hvs j
  | channel _ _ _ _ r c _ h => subst h; rfl
  | globals _ _ _ r g _ h => subst h; rfl
  | block n _ _ h =>
    subst h
    rw [processBlock_slot, Option.map_map]
    congr 1
    funext w
    exact (processedSlot_sameNote s.env n.toNat j w).1

/-- The other fields of a slot are left by a command that does not act on slots. -/
theorem soundPart (hw : Written i s u) (ha : actsOnSlots i = false) (j : Nat) :
    u.voices[j]?.map Voice.soundPart = s.voices[j]?.map Voice.soundPart := by
  cases hw with
  | errorBits st _ h => subst h; rfl
  | result _ _ _ x h => subst h; rfl
  | births _ _ _ _ vs hvs h => subst h; exact getElem?_map_of_map_eq hvs j
  | slots hi => rw [hi] at ha; cases ha
  | channel _ _ _ _ r c _ h => subst h; rfl
  | globals _ _ _ r g _ h => subst h; rfl
  | block n hi => subst hi; cases ha

/-- `RESULT` is changed by RDVOICE only. -/
theorem result_eq (hw : Written i s u) (hr : ∀ sel v, i ≠ .rdvoice sel v) : u.result = s.result := by
  cases hw with
  | errorBits st _ h => subst h; rfl
  | result sel v hi => exact absurd hi (hr sel v)
  | births _ _ _ _ vs _ h => subst h; rfl
  | slots _ vs _ q _ h => subst h; rfl
  | channel _ _ _ _ r c _ h => subst h; rfl
  | globals _ _ _ r g _ h => subst h; rfl
  | block n _ _ h =>
    subst h
    obtain ⟨-, -, -, hresult, -⟩ := processBlock_frame n.toNat s
    exact hresult

/-- Output memory is changed by PROCESS only. -/
theorem outMem (hw : Written i s u) :
    u.outMem = s.outMem ∨
      ∃ n, i = .process n ∧ n.toNat ≤ s.cfg.blockMax ∧ u.outMem = (processBlock n.toNat s).outMem := by
  cases hw with
  | errorBits st _ h => subst h; exact .inl rfl
  | result _ _ _ x h => subst h; exact .inl rfl
  | births _ _ _ _ vs _ h => subst h; exact .inl rfl
  | slots _ vs _ q _ h => subst h; exact .inl rfl
  | channel _ _ _ _ r c _ h => subst h; exact .inl rfl
  | globals _ _ _ r g _ h => subst h; exact .inl rfl
  | block n hi hn h => subst h; exact .inr ⟨n, hi, hn, rfl⟩

end Written

/-- Settles O14: it holds, part by part of the state from what a command may write. -/
theorem accessMatrix : Obligations.AccessMatrix := by
  unfold Obligations.AccessMatrix
  intro i s t h
  obtain ⟨u, hw, rfl⟩ := exec_written h
  refine ⟨hw.fixed, fun hg => ?_, hw.glob.2, hw.chanRegisters, hw.chans, hw.birth, fun hi => ?_, hw.result_eq,
    fun hp a => ?_⟩
  · rw [State.complete_glob, hw.glob.1 hg]
    exact ⟨rfl, rfl, rfl, rfl⟩
  · have hacts : actsOnSlots i = false := by
      obtain rfl | ⟨_, _, _, rfl⟩ | ⟨_, _, _, rfl⟩ | ⟨_, _, rfl⟩ | ⟨_, rfl⟩ | ⟨_, _, rfl⟩ := hi <;> rfl
    exact hw.soundPart hacts
  · obtain hout | ⟨n, hi, -⟩ := hw.outMem
    · rw [State.complete_outMem, hout]
    · exact absurd hi (hp n)

/-! ### A sounding note -/

/-- Whatever changes a slot that is not FREE leaves its birth fields, its channel and its birth number: only SETV
and NOTEON would not, and they change FREE slots (R32, R140, R141). -/
theorem SlotChange.note_fixed {s : State} {j : Nat} {w w' : Voice} (h : SlotChange s j w w')
    (hw : w.state ≠ .free) : w'.birth = w.birth ∧ w'.ch = w.ch ∧ w'.seq = w.seq := by
  cases h with
  | same h => subst h; exact ⟨rfl, rfl, rfl⟩
  | birth hf => exact absurd hf hw
  | created hf => exact absurd hf hw
  | released _ h => subst h; exact ⟨rfl, rfl, rfl⟩
  | killed _ h => subst h; exact ⟨rfl, rfl, rfl⟩
  | args _ h => subst h; exact ⟨rfl, rfl, rfl⟩
  | rendered n h =>
    subst h
    obtain ⟨hbirth, hch, hseq, -⟩ := processedSlot_sameNote s.env n j w
    exact ⟨hbirth, hch, hseq⟩

/-- Settles O15: it holds.  The slot is still there, and what changed it is one of the changes of `SlotChange`. -/
theorem noteIsFixedWhileItSounds : Obligations.NoteIsFixedWhileItSounds := by
  unfold Obligations.NoteIsFixedWhileItSounds
  intro i s t j w h hw hf
  obtain ⟨e, rfl⟩ | ⟨u, hu, rfl⟩ := exec_cases h
  · exact ⟨w, hw, rfl, rfl, rfl⟩
  · obtain ⟨-, -, -, -, hlen⟩ := (effect_written hu).fixed
    obtain ⟨hj, -⟩ := List.getElem?_eq_some_iff.mp hw
    have hw' : u.voices[j]? = some u.voices[j] := List.getElem?_eq_getElem (by omega)
    obtain ⟨w0, hw0, hchange⟩ := effect_slot hu hw'
    obtain rfl : w = w0 := Option.some.inj (hw.symm.trans hw0)
    exact ⟨_, hw', hchange.note_fixed hf⟩

end Sys2Proof.Machine
end

section
/-!
PROOFS. The state after reset (R48, R280): its register values and that it has every invariant.
-/

namespace Sys2Proof.Machine

section Reset

variable (cfg : Params) (smp out : Memory)

/-- Every channel after reset. -/
@[simp] theorem State.resetOf_chan (c : BitVec 4) : (State.resetOf cfg smp out).chan c = Channel.reset := by
  simp [State.chan, State.resetOf]

/-- Every slot after reset. -/
theorem eq_reset_of_mem_resetOf {w : Voice} (h : w ∈ (State.resetOf cfg smp out).voices) : w = Voice.reset :=
  List.eq_of_mem_replicate h

/-- Every register holds the value of R48. -/
theorem resetOf_atReset : (State.resetOf cfg smp out).atReset := by
  refine ⟨⟨rfl, rfl, rfl, rfl, rfl⟩, fun c => ?_, List.length_replicate, fun w hw => ?_, rfl, rfl, rfl⟩
  · rw [State.resetOf_chan]
    exact ⟨rfl, rfl, rfl, rfl, rfl, rfl, rfl, rfl, rfl, fun i => ⟨rfl, rfl, rfl, rfl⟩, rfl, rfl, rfl⟩
  · rw [eq_reset_of_mem_resetOf cfg smp out hw]
    exact ⟨rfl, rfl, rfl⟩

/-- No bit of `STATUS` is set, and every slot is FREE. -/
theorem resetOf_statusWf : (State.resetOf cfg smp out).statusWf := by
  refine ⟨fun k _ _ => BitVec.getLsbD_zero, ?_⟩
  simp [State.resetOf, Voice.reset]

/-- The slots are `NUM_VOICES` many. -/
theorem resetOf_slotsWf : (State.resetOf cfg smp out).slotsWf := List.length_replicate

/-- Every slot is FREE. -/
theorem resetOf_gridWf : (State.resetOf cfg smp out).gridWf :=
  ⟨show 1 ≤ Globals.reset.spf.toNat by decide, fun w hw hf =>
    absurd (by rw [eq_reset_of_mem_resetOf cfg smp out hw]; rfl) hf⟩

/-- Every slot is FREE. -/
theorem resetOf_regionsWf : (State.resetOf cfg smp out).regionsWf := fun w hw hf =>
  absurd (by rw [eq_reset_of_mem_resetOf cfg smp out hw]; rfl) hf

/-- Timer, weights and modulation depth are 0. -/
theorem resetOf_rangesWf : (State.resetOf cfg smp out).rangesWf := fun w hw => by
  rw [eq_reset_of_mem_resetOf cfg smp out hw]
  exact ⟨Nat.zero_le _, Nat.zero_le _, Nat.zero_le _, Nat.zero_le _, Nat.zero_le _, Nat.zero_le _⟩

/-- No channel has a reverb, and every buffer is empty. -/
theorem resetOf_reverbsWf (h : 1 ≤ cfg.hwbuf) : (State.resetOf cfg smp out).reverbsWf := by
  refine ⟨show 1 ≤ Globals.reset.spf.toNat by decide, h, fun c => ?_⟩
  rw [State.resetOf_chan]
  exact ⟨⟨ringUnused_nil, ringUnused_nil, ringUnused_nil⟩, rfl⟩

end Reset

/-- The configuration chosen is one R6 and R65 allow. -/
theorem standard_legal : Params.standard.legal := by
  have hmap : Params.standard.mapLegal := consecutive_mapLegal rfl
  refine ⟨by decide, by decide, by decide, by decide, by decide, by decide, ?_, ?_, hmap⟩ <;> decide +kernel

/-- Settles O60: it holds. -/
theorem resetHasInvariants : Obligations.ResetHasInvariants := by
  unfold Obligations.ResetHasInvariants
  refine ⟨fun cfg smp out hlegal hsmp hout => ?_, standard_legal, rfl⟩
  obtain ⟨-, -, -, hhwbuf, -⟩ := hlegal
  exact ⟨resetOf_atReset cfg smp out, resetOf_statusWf cfg smp out, ⟨hsmp, hout⟩, resetOf_slotsWf cfg smp out,
    resetOf_gridWf cfg smp out, resetOf_regionsWf cfg smp out, resetOf_rangesWf cfg smp out,
    resetOf_reverbsWf cfg smp out (by omega)⟩

/-- Settles O10: it holds.  The reset event leaves the registers of `State.resetOf`. -/
theorem resetEventRestores : Obligations.ResetEventRestores := by
  unfold Obligations.ResetEventRestores
  intro s rest h
  have hstep : step s = .next ({ s with input := rest } : State).hostReset := by
    rw [step, h]
    rfl
  exact ⟨_, hstep, resetOf_atReset s.cfg s.smpMem s.outMem, rfl, rfl, rfl, rfl⟩

end Sys2Proof.Machine
end

section
/-!
PROOFS. What every step keeps.  Each invariant goes through `step_keeps`; a command keeps it by what it may write
(`effect_written`) or, for the slots, by how it may change one (`effect_slot`).
-/

namespace Sys2Proof.Machine

/-! ### `STATUS` -/

/-- Recomputing `ANY_VOICE` makes `STATUS` well-formed where the reserved bits are 0 (R27, R239). -/
theorem State.complete_statusWf {s : State} (h : ∀ k, 5 ≤ k → k < 32 → k ≠ 8 → s.status.getLsbD k = false) :
    s.complete.statusWf := by
  refine ⟨fun k h5 h8 => ?_, ?_⟩
  · by_cases h32 : k < 32
    · rw [s.complete_bit h32 h8, h k h5 h32 h8]
    · exact BitVec.getLsbD_of_ge _ _ (by omega)
  · rw [s.complete_anyVoice]
    exact anyVoice_iff s.voices

/-- Every command leaves `STATUS` well-formed. -/
theorem Written.complete_statusWf {i : Instr} {s u : State} (hw : Written i s u) (hs : s.statusWf) :
    u.complete.statusWf :=
  State.complete_statusWf fun k h5 h32 h8 => (hw.status_bit h5 h32).trans (hs.1 k h5 h8)

/-- Settles O56: it holds. -/
theorem stepKeepsStatus : Obligations.StepKeepsStatus := by
  unfold Obligations.StepKeepsStatus
  intro s t
  exact step_keeps (P := State.statusWf)
    (hport := fun _ _ _ h => h)
    (hsmp := fun _ _ _ h _ => h)
    (hout := fun _ _ _ h _ => h)
    (hreset := fun s _ => resetOf_statusWf s.cfg s.smpMem s.outMem)
    (hraise := fun e s h => (error_written .nop e s).complete_statusWf h)
    (heffect := fun _ _ _ h he => (effect_written he).complete_statusWf h)

/-! ### Memories -/

/-- Every command leaves both memories in their bounds and the slots `NUM_VOICES` many. -/
theorem Written.memoryWf {i : Instr} {s u : State} (hw : Written i s u) (h : s.memoryWf ∧ s.slotsWf) :
    u.memoryWf ∧ u.slotsWf := by
  obtain ⟨⟨hsmp, hout⟩, hlen⟩ := h
  obtain ⟨hcfg, -, -, hsmp', hlen'⟩ := hw.fixed
  refine ⟨⟨?_, ?_⟩, ?_⟩
  · rw [hcfg, hsmp']
    exact hsmp
  · rw [hcfg]
    obtain hout' | ⟨n, -, hn, hout'⟩ := hw.outMem <;> rw [hout']
    · exact hout
    · exact processBlock_outMem_wf hn hout
  · rw [State.slotsWf, hlen', hcfg]
    exact hlen

/-- Settles O57: it holds.  A host write to an element that exists and a PROCESS keep the canonical form. -/
theorem stepKeepsMemories : Obligations.StepKeepsMemories := by
  unfold Obligations.StepKeepsMemories
  intro s t
  exact step_keeps (P := fun s => s.memoryWf ∧ s.slotsWf)
    (hport := fun _ _ _ h => h)
    (hsmp := fun s k v ⟨⟨hsmp, hout⟩, hlen⟩ hk => ⟨⟨Memory.wf_writeElem hsmp hk v, hout⟩, hlen⟩)
    (hout := fun s k v ⟨⟨hsmp, hout⟩, hlen⟩ hk => ⟨⟨hsmp, Memory.wf_writeElem hout hk v⟩, hlen⟩)
    (hreset := fun s ⟨hmem, _⟩ => ⟨hmem, resetOf_slotsWf s.cfg s.smpMem s.outMem⟩)
    (hraise := fun _ _ h => h)
    (heffect := fun _ _ _ h he => (effect_written he).memoryWf h)

/-! ### Slots -/

/-- One slot stands inside its sub-frame and has a generator and a region where it is not FREE, and is in its
ranges (R33, R36, R37, R39, R62). -/
structure SlotWf (cfg : Params) (spf : Nat) (w : Voice) : Prop where
  grid : w.state ≠ .free → w.rt.subcnt.toNat < spf
  generator : w.state ≠ .free → w.birth.dspType ≠ .none ∧
    (w.birth.dspType = .pcm ∨ w.birth.dspType = .pcmFixed → RegionInside cfg w.birth)
  depth : w.birth.pwmDepth.toNat ≤ 256
  range : InRange cfg w

/-- The invariants of the slots, slot by slot. -/
theorem slots_wf_iff (s : State) : s.gridWf ∧ s.regionsWf ∧ s.rangesWf ↔
    1 ≤ s.glob.spf.toNat ∧ ∀ w ∈ s.voices, SlotWf s.cfg s.glob.spf.toNat w := by
  constructor
  · rintro ⟨⟨hspf, hgrid⟩, hregions, hranges⟩
    refine ⟨hspf, fun w hw => ?_⟩
    obtain ⟨htimer, hdepth, hweights⟩ := hranges w hw
    exact ⟨hgrid w hw, hregions w hw, hdepth, htimer, hweights⟩
  · rintro ⟨hspf, h⟩
    refine ⟨⟨hspf, fun w hw => (h w hw).grid⟩, fun w hw => (h w hw).generator, fun w hw => ?_⟩
    obtain ⟨htimer, hweights⟩ := (h w hw).range
    exact ⟨htimer, (h w hw).depth, hweights⟩

/-- A FREE slot stands on no frame grid. -/
theorem SlotWf.of_free {cfg : Params} {spf spf' : Nat} {w : Voice} (h : SlotWf cfg spf w) (hf : w.state = .free) :
    SlotWf cfg spf' w :=
  ⟨fun hne => absurd hf hne, h.generator, h.depth, h.range⟩

/-- A slot of the same note in its ranges, not FREE only where it was not and then inside its sub-frame. -/
theorem SlotWf.of_sameBirth {cfg : Params} {spf : Nat} {w w' : Voice} (h : SlotWf cfg spf w)
    (hbirth : w'.birth = w.birth) (hgrid : w'.state ≠ .free → w.state ≠ .free ∧ w'.rt.subcnt.toNat < spf)
    (hrange : InRange cfg w') : SlotWf cfg spf w' := by
  refine ⟨fun hf => (hgrid hf).2, fun hf => ?_, ?_, hrange⟩ <;> rw [hbirth]
  · exact h.generator (hgrid hf).1
  · exact h.depth

/-- SETV clamps `PWM_DEPTH` to 256 (R33, R82). -/
theorem Birth.write_pwmDepth {r : VoiceReg} {d : Word} {b b' : Birth} (h : b.write r d = some b')
    (hb : b.pwmDepth.toNat ≤ 256) : b'.pwmDepth.toNat ≤ 256 := by
  cases r with
  | pwmDepth =>
    cases h
    simp only [assembleU, BitVec.toNat_ofNat]
    omega
  | dspType | stairstep | midcFreq | duty | sweep | smpLoopEn | smpChannels =>
    obtain ⟨x, _, rfl⟩ := Option.map_eq_some_iff.mp h
    exact hb
  | _ => cases h; exact hb

/-- A created voice is at the start of its grid, all its counters 0 (R35-R39, R141). -/
theorem newVoice_slotWf {cfg : Params} {spf : Nat} {w : Voice} (h : SlotWf cfg spf w) (hspf : 1 ≤ spf)
    (hd : w.birth.dspType ≠ .none) (hr : w.birth.dspType.isPcm = true → regionOk cfg w.birth = true)
    (ch : BitVec 4) (args : Args) (seq : BitVec 64) (off : Word) : SlotWf cfg spf (newVoice ch args seq off w) :=
  ⟨fun _ => hspf, fun _ => ⟨hd, fun hpcm => regionOk_iff.mp (hr (isPcm_iff.mpr hpcm))⟩, h.depth,
    Nat.zero_le _, Nat.zero_le _, Nat.zero_le _, Nat.zero_le _, Nat.zero_le _⟩

/-- A rendered voice stays inside its sub-frame (R36, R101). -/
theorem renderVoice_subcnt (e : Env) (slot n : Nat) {v : Voice} (h : v.rt.subcnt.toNat < e.glob.spf.toNat)
    (acc : List Stereo) : (renderVoice e slot n v acc).1.rt.subcnt.toNat < e.glob.spf.toNat :=
  renderVoice_keeps e slot n (fun w => w.rt.subcnt.toNat < e.glob.spf.toNat) (fun _ h => h)
    (fun fresh j _ h _ => voiceSample_subcnt e slot fresh j n h) h acc

/-- Rendering keeps a slot well-formed. -/
theorem renderedSlot_slotWf {e : Env} (n j : Nat) {w : Voice} (h : SlotWf e.cfg e.glob.spf.toNat w) :
    SlotWf e.cfg e.glob.spf.toNat (renderedSlot e n j w) := by
  refine h.of_sameBirth (renderedSlot_sameNote e n j w).1 (fun hne => ?_) (renderedSlot_inRange e n j h.range)
  by_cases hf : w.state = .free
  · rw [renderedSlot, if_pos hf] at hne
    exact absurd hf hne
  · rw [renderedSlot, if_neg hf]
    exact ⟨hf, renderVoice_subcnt e j n (h.grid hf) _⟩

/-- Reclaim keeps a slot well-formed (R238). -/
theorem reclaimSlot_slotWf {cfg : Params} {spf : Nat} {w : Voice} (h : SlotWf cfg spf w) :
    SlotWf cfg spf (reclaimSlot w) := by
  unfold reclaimSlot
  split
  · exact h.of_sameBirth rfl (fun hne => absurd rfl hne) h.range
  · exact h

/-- Whatever changes a slot keeps it well-formed. -/
theorem SlotChange.slotWf {s : State} {j : Nat} {w w' : Voice} (h : SlotChange s j w w')
    (hspf : 1 ≤ s.glob.spf.toNat) (hw : SlotWf s.cfg s.glob.spf.toNat w) :
    SlotWf s.cfg s.glob.spf.toNat w' := by
  cases h with
  | same h => exact h ▸ hw
  | birth hf r d b hb h =>
    subst h
    exact ⟨fun hne => absurd hf hne, fun hne => absurd hf hne, Birth.write_pwmDepth hb hw.depth, hw.range⟩
  | created _ hd hr ch off h => subst h; exact newVoice_slotWf hw hspf hd hr _ _ _ _
  | released hf h => subst h; exact hw.of_sameBirth rfl (fun _ => ⟨hf, hw.grid hf⟩) hw.range
  | killed hf h => subst h; exact hw.of_sameBirth rfl (fun _ => ⟨hf, hw.grid hf⟩) hw.range
  | args hf h => subst h; exact hw.of_sameBirth rfl (fun _ => ⟨hf, hw.grid hf⟩) hw.range
  | rendered n h => subst h; exact reclaimSlot_slotWf (renderedSlot_slotWf (e := s.env) n j hw)

/-- Every command leaves the slots well-formed: each slot as it changes it, and a new `SPF` while every slot is
FREE. -/
theorem effect_slots_wf {i : Instr} {s u : State} (he : Effect i s u)
    (h : s.gridWf ∧ s.regionsWf ∧ s.rangesWf) : u.gridWf ∧ u.regionsWf ∧ u.rangesWf := by
  obtain ⟨hspf, hslots⟩ := (slots_wf_iff s).mp h
  obtain ⟨hcfg, hglob⟩ := effect_glob he
  rw [slots_wf_iff, hcfg]
  obtain hsame | ⟨hspf', hsilent, hvoices⟩ := hglob
  · rw [hsame]
    refine ⟨hspf, fun w' hw' => ?_⟩
    obtain ⟨j, hj⟩ := List.mem_iff_getElem?.mp hw'
    obtain ⟨w, hw, hchange⟩ := effect_slot he hj
    exact hchange.slotWf hspf (hslots w (List.mem_of_getElem? hw))
  · refine ⟨hspf', fun w hw => ?_⟩
    rw [hvoices] at hw
    exact (hslots w hw).of_free ((anyVoice_false_iff _).mp hsilent w hw)

/-- Settles O58: it holds, by the changes a command may make to one slot. -/
theorem stepKeepsSlots : Obligations.StepKeepsSlots := by
  unfold Obligations.StepKeepsSlots
  intro s t
  exact step_keeps (P := fun s => s.gridWf ∧ s.regionsWf ∧ s.rangesWf)
    (hport := fun _ _ _ h => h)
    (hsmp := fun _ _ _ h _ => h)
    (hout := fun _ _ _ h _ => h)
    (hreset := fun s _ => ⟨resetOf_gridWf s.cfg s.smpMem s.outMem, resetOf_regionsWf s.cfg s.smpMem s.outMem,
      resetOf_rangesWf s.cfg s.smpMem s.outMem⟩)
    (hraise := fun _ _ h => h)
    (heffect := fun _ _ u h he => effect_slots_wf (u := u) he h)

/-! ### Reverbs -/

/-- One channel's reverb state fits, and its buffer is in its bounds (R25, R26). -/
def ChannelWf (cfg : Params) (g : Globals) (c : Channel) : Prop :=
  c.reverbWf cfg g ∧ storeWf Stereo.zero cfg.blockMax 0 c.acc = true

/-- An initialised reverb state fits (R219). -/
theorem ChannelWf.resetReverb {cfg : Params} {g g' : Globals} {c : Channel} (h : ChannelWf cfg g c)
    (hspf : 1 ≤ g'.spf.toNat) (hhw : 1 ≤ cfg.hwbuf) : ChannelWf cfg g' (c.resetReverb cfg g') :=
  ⟨resetReverb_wf hspf hhw c, h.2⟩

/-- SETC leaves its channel well-formed: a new type comes with an initialised reverb state (R244). -/
theorem ChannelWf.write {cfg : Params} {g : Globals} {r : ChanReg} {d : Word} {c c' : Channel}
    (h : ChannelWf cfg g c) (hspf : 1 ≤ g.spf.toNat) (hhw : 1 ≤ cfg.hwbuf) (hc : c.write r d = some c') :
    ChannelWf cfg g (if r = .reverbType then c'.resetReverb cfg g else c') := by
  obtain ⟨hkeeps, htype⟩ := Channel.write_keeps hc
  have hacc : storeWf Stereo.zero cfg.blockMax 0 c'.acc = true := by rw [hkeeps]; exact h.2
  split
  · exact ⟨resetReverb_wf hspf hhw c', hacc⟩
  · next hr =>
    refine ⟨?_, hacc⟩
    rw [hkeeps, htype hr]
    exact h.1

/-- PROCESS leaves a channel well-formed: its reverb runs sample by sample, and the block fits the buffer. -/
theorem ChannelWf.process {s : State} {n : Nat} {c : BitVec 4} (h : ChannelWf s.cfg s.glob (s.chan c))
    (hn : n ≤ s.cfg.blockMax) : ChannelWf s.cfg s.glob ((processBlock n s).chan c) := by
  have hkeeps : ChannelWf s.cfg s.glob (wetBlock s n c).1 :=
    reverbBlock_keeps s.cfg s.glob (ChannelWf s.cfg s.glob)
      (fun c x ⟨hwf, hacc⟩ => by
        obtain ⟨-, -, -, hsame⟩ := reverbSample_registers s.cfg s.glob c x
        exact ⟨reverbSample_wf hwf x, by rw [hsame]; exact hacc⟩) h _
  rw [processBlock_chan]
  exact ⟨hkeeps.1, Ring.wf_putFrom hkeeps.2 (by rw [wetBlock_length]; omega)⟩

/-- A channel stays well-formed where `SPF` stays (R210, R216). -/
theorem ChannelWf.of_spf {cfg : Params} {g g' : Globals} {c : Channel} (h : ChannelWf cfg g c)
    (e : g'.spf = g.spf) : ChannelWf cfg g' c := ⟨reverbWf_spf h.1 e, h.2⟩

/-- Every command leaves the reverbs well-formed. -/
theorem Written.reverbsWf {i : Instr} {s u : State} (hw : Written i s u) (hs : s.reverbsWf) : u.reverbsWf := by
  obtain ⟨hspf, hhw, hchan⟩ := hs
  replace hchan : ∀ c, ChannelWf s.cfg s.glob (s.chan c) := hchan
  cases hw with
  | errorBits st _ h => subst h; exact ⟨hspf, hhw, hchan⟩
  | result _ _ _ x h => subst h; exact ⟨hspf, hhw, hchan⟩
  | births _ _ _ _ vs _ h => subst h; exact ⟨hspf, hhw, hchan⟩
  | slots _ vs _ q _ h => subst h; exact ⟨hspf, hhw, fun c => (hchan c).of_spf rfl⟩
  | channel _ ch _ _ r x hx h =>
    subst h
    refine ⟨hspf, hhw, fun c => ?_⟩
    by_cases hc : c = ch
    · rw [hc, State.chan_setChan_same]
      exact (hchan ch).write hspf hhw hx
    · rw [State.chan_setChan_other _ _ _ hc]
      exact hchan c
  | globals _ _ _ r g hg h =>
    subst h
    obtain ⟨-, hsame, hpos⟩ := Globals.write_keeps hg
    refine ⟨hpos hspf, hhw, fun c => ?_⟩
    simp only [State.chan]
    split
    · rw [chan_resetAllReverbs]
      exact (hchan c).resetReverb (hpos hspf) hhw
    · next hne =>
      refine (hchan c).of_spf ?_
      by_cases hr : r = .spf
      · exact not_not.mp fun h => hne ⟨hr, h⟩
      · exact hsame hr
  | block n _ hn h =>
    subst h
    obtain ⟨hcfg, hglob, -⟩ := processBlock_frame n.toNat s
    unfold State.reverbsWf
    rw [hcfg, hglob]
    exact ⟨hspf, hhw, fun c => (hchan c).process hn⟩

/-- Settles O59: it holds, channel by channel. -/
theorem stepKeepsReverbs : Obligations.StepKeepsReverbs := by
  unfold Obligations.StepKeepsReverbs
  intro s t
  exact step_keeps (P := State.reverbsWf)
    (hport := fun _ _ _ h => h)
    (hsmp := fun _ _ _ h _ => h)
    (hout := fun _ _ _ h _ => h)
    (hreset := fun s ⟨_, hhw, _⟩ => resetOf_reverbsWf s.cfg s.smpMem s.outMem hhw)
    (hraise := fun _ _ h => h)
    (heffect := fun _ _ _ h he => (effect_written he).reverbsWf h)

end Sys2Proof.Machine
end

section
/-!
PROOFS. The host's own accesses (R61-R63, R65): a write changes one element and nothing else of its memory, and an
access by address is the access of the resource that `PLATFORM_MAP` places there.
-/

namespace Sys2Proof.Machine

/-! ### Writes of one element -/

/-- m' holds v as its element i, byte k in bits 8k+7..8k, and every byte outside that element as m does (R61). -/
def ElemWritten (i : Nat) (v : F32) (m m' : Memory) : Prop :=
  m'.readElem i = v ∧ (∀ k, k < 4 → m'.readByte (4 * i + k) = v.extractLsb' (8 * k) 8) ∧
    ∀ a, a < 4 * i ∨ 4 * i + 4 ≤ a → m'.readByte a = m.readByte a

/-- A write of an element that exists writes that element and no other byte. -/
theorem Memory.elemWritten_writeElem {words : Nat} {m : Memory} (h : m.wf words = true) {i : Nat} (hi : i < words)
    (v : F32) : ElemWritten i v m (m.writeElem i v) :=
  ⟨Memory.readElem_writeElem_same h hi v, fun _ hk => Memory.readByte_writeElem_same h hi v hk,
    fun _ ha => Memory.readByte_writeElem_other m v ha⟩

section Accesses

variable {s : State} {rest : List HostEvent}

/-- With an access to come, a step is that access. -/
theorem step_cons {e : HostEvent} (hin : s.input = e :: rest) : step s = hostStep e { s with input := rest } := by
  rw [step, hin]

/-- A host write of an element of sample memory that exists writes it (R62). -/
theorem step_writeSmp {i : Nat} {v : F32} (hin : s.input = .writeSmp i v :: rest) (hi : i < s.cfg.smpWords) :
    step s = .next { s with input := rest, smpMem := s.smpMem.writeElem i v } :=
  (step_cons hin).trans (if_pos hi)

/-- A host write of an element that sample memory does not have faults (log entry 14). -/
theorem step_writeSmp_missing {i : Nat} {v : F32} (hin : s.input = .writeSmp i v :: rest)
    (hi : s.cfg.smpWords ≤ i) : step s = .fault .noSampleElement :=
  (step_cons hin).trans (if_neg (not_lt.mpr hi))

/-- A host write of an element of output memory that exists writes it (R63). -/
theorem step_writeOut {i : Nat} {v : F32} (hin : s.input = .writeOut i v :: rest) (hi : i < outWords s.cfg) :
    step s = .next { s with input := rest, outMem := s.outMem.writeElem i v } :=
  (step_cons hin).trans (if_pos hi)

/-- A host write of an element that output memory does not have faults (log entry 14). -/
theorem step_writeOut_missing {i : Nat} {v : F32} (hin : s.input = .writeOut i v :: rest)
    (hi : outWords s.cfg ≤ i) : step s = .fault .noOutputElement :=
  (step_cons hin).trans (if_neg (not_lt.mpr hi))

/-! ### Stores by address -/

/-- The access that writes a word to a resource; the registers are read-only (R65). -/
def writeAccess (w : Word) : Resource → Option HostEvent
  | .port => some (.port w)
  | .smp i => some (.writeSmp i w)
  | .out i => some (.writeOut i w)
  | .status | .result => none

/-- Under a legal map a store amounts to the write of the writable resource placed at its address (R65). -/
theorem resolved_store {cfg : Params} (hmap : cfg.mapLegal) {a : Nat} {w : Word} {r : Resource}
    (hr : (a, r) ∈ cfg.platformMap) (hwrite : hostWrites r = true) :
    (HostEvent.store a w).resolved cfg.platformMap = writeAccess w r := by
  rw [HostEvent.resolved, placedAt_writes hmap hr hwrite]
  cases r <;> rfl

/-- A step that takes an access is the step that takes the access of the resource it amounts to. -/
theorem step_resolved {e e' : HostEvent} (hin : s.input = e :: rest)
    (h : e.resolved s.cfg.platformMap = some e') : step s = step { s with input := e' :: rest } := by
  rw [step_cons hin, step_cons (s := { s with input := e' :: rest }) rfl]
  exact hostStep_resolved h

/-- A store where the map places nothing that can be written faults (log entry 14). -/
theorem step_store_notWritable {a : Nat} {w : Word} (hin : s.input = .store a w :: rest)
    (h : ∀ r, (a, r) ∈ s.cfg.platformMap → hostWrites r = false) : step s = .fault .notWritable := by
  rw [step_cons hin]
  refine hostStep_unresolved ?_
  simp only [HostEvent.resolved, placedAt_none h]

end Accesses

/-! ### Loads by address -/

/-- What the host reads of a resource (R27, R28, R62, R63); the command port is not read (R65). -/
def State.readResource (s : State) : Resource → Option Word
  | .port => none
  | .status => some s.status
  | .result => some s.result
  | .smp i => s.readSmp i
  | .out i => s.readOut i

/-- Under a legal map a load reads the readable resource placed at its address (R65). -/
theorem State.hostLoad_eq_readResource {s : State} (hmap : s.cfg.mapLegal) {a : Nat} {r : Resource}
    (hr : (a, r) ∈ s.cfg.platformMap) (hread : hostReads r = true) : s.hostLoad a = s.readResource r := by
  rw [State.hostLoad, placedAt_reads hmap hr hread]
  cases r <;> rfl

/-- A legal map places only resources that exist (R65). -/
theorem hasResource_of_mem {cfg : Params} (hmap : cfg.mapLegal) {a : Nat} {r : Resource}
    (hr : (a, r) ∈ cfg.platformMap) : cfg.hasResource r :=
  (hmap.1 r).mpr ⟨a, hr⟩

/-- Settles O9: it holds.  A write by index goes through `Memory.elemWritten_writeElem`, a store through the access
it amounts to (`step_resolved`), a load through the resource placed there (`State.hostLoad_eq_readResource`). -/
theorem hostWritesOneElement : Obligations.HostWritesOneElement := by
  unfold Obligations.HostWritesOneElement
  refine ⟨fun s i v rest ⟨hsmp, hout⟩ => ⟨fun hin => ⟨fun hi => ?_, step_writeSmp_missing hin⟩,
      fun hin => ⟨fun hi => ?_, step_writeOut_missing hin⟩⟩,
    fun s a w rest hmap hin => ⟨fun hr => ?_, fun i hr => ?_, fun i hr => ?_, fun hro => ?_⟩,
    fun s a hmap => ⟨fun hr => ?_, fun hr => ?_, fun i hr => ?_, fun i hr => ?_⟩⟩
  · exact ⟨_, step_writeSmp hin hi, Memory.elemWritten_writeElem hsmp hi v⟩
  · exact ⟨_, step_writeOut hin hi, Memory.elemWritten_writeElem hout hi v⟩
  · exact step_resolved hin (resolved_store hmap hr rfl)
  · exact step_resolved hin (resolved_store hmap hr rfl)
  · exact step_resolved hin (resolved_store hmap hr rfl)
  · refine step_store_notWritable hin fun r hr => ?_
    obtain rfl | rfl := hro r hr <;> rfl
  · exact State.hostLoad_eq_readResource hmap hr rfl
  · exact State.hostLoad_eq_readResource hmap hr rfl
  · exact (State.hostLoad_eq_readResource hmap hr rfl).trans (if_pos (hasResource_of_mem hmap hr))
  · exact (State.hostLoad_eq_readResource hmap hr rfl).trans (if_pos (hasResource_of_mem hmap hr))

end Sys2Proof.Machine
end

section
/-!
PROOFS. The encoding (R80, R81, R84-R92): decoding and encoding are inverse to each other on the well-formed
commands, what decoding rejects is what R262 lists, and a step runs what its two words decode to.
-/

namespace Sys2Proof

/-! ### The rows of UPDARGS (R87) -/

section Updargs

variable {sel : BitVec 8} {ch : BitVec 4} {voice : BitVec 8} {d : Word}

/-- With `SEL` 0 the row is that of UPDARGS, which uses `VOICE`. -/
theorem decodeFields_updargs :
    decodeFields 0x05#8 0#8 ch voice d = decodeChecked (ch != 0#4) true none 0#8 d (.updargs voice) := rfl

/-- With `SEL` 1 the row is that of UPDARGS.CH, which uses `CH`. -/
theorem decodeFields_updargsCh :
    decodeFields 0x05#8 1#8 ch voice d = decodeChecked (voice != 0#8) true none 1#8 d (.updargsCh ch) := rfl

/-- Every other `SEL` is reserved. -/
theorem decodeFields_updargs_reserved (h0 : sel ≠ 0#8) (h1 : sel ≠ 1#8) :
    decodeFields 0x05#8 sel ch voice d = .rejected .reservedSelector :=
  (if_neg h0).trans (if_neg h1)

end Updargs

/-! ### Encode, then decode -/

/-- The decoder reads a header put together from a defined opcode by that opcode's row (R84). -/
theorem decode_header {op : BitVec 8} (hop : op.toNat < 0x0D) (sel : BitVec 8) (ch : BitVec 4)
    (voice : BitVec 8) (d : Word) :
    decode (header op sel ch voice) d = decodeFields op sel ch voice d := by
  simp [decode, Nat.not_le.mpr hop]

/-- Decoding the encoding of a well-formed command gives the command: in every row the fields the encoder fills
in are the ones the decoder reads, and those it leaves zero are the ones the decoder checks. -/
theorem decode_encode {i : Instr} (hw : i.wellFormed = true) : decode (encode i).1 (encode i).2 = .ok i := by
  cases i with
  | setv | setc | setg =>
    exact (decode_header (by decide) ..).trans
      (decodeChecked_ok_iff.mpr ⟨rfl, nofun, by simpa [Instr.wellFormed] using hw, rfl⟩)
  | rdvoice =>
    exact (decode_header (by decide) ..).trans
      (decodeChecked_ok_iff.mpr ⟨rfl, fun _ => rfl, by simpa [Instr.wellFormed] using hw, rfl⟩)
  | updargs =>
    exact (decode_header (by decide) ..).trans
      (decodeFields_updargs.trans (decodeChecked_ok_iff.mpr ⟨rfl, fun _ => rfl, nofun, rfl⟩))
  | updargsCh =>
    exact (decode_header (by decide) ..).trans
      (decodeFields_updargsCh.trans (decodeChecked_ok_iff.mpr ⟨rfl, fun _ => rfl, nofun, rfl⟩))
  | nop | release | kill | alloff =>
    exact (decode_header (by decide) ..).trans (decodeChecked_ok_iff.mpr ⟨rfl, fun _ => rfl, nofun, rfl⟩)
  | noteon | process | noteoff | clrstat =>
    exact (decode_header (by decide) ..).trans (decodeChecked_ok_iff.mpr ⟨rfl, nofun, nofun, rfl⟩)

/-- Settles O1: it holds, row by row of R84. -/
theorem decodeOfEncode : Obligations.DecodeOfEncode := by
  unfold Obligations.DecodeOfEncode
  exact fun _ => decode_encode

/-! ### Decode, then encode -/

section Fields

variable {op sel : BitVec 8} {ch : BitVec 4} {voice : BitVec 8} {d : Word} {i : Instr}

/-- What either form of UPDARGS decodes to is encoded with the same fields (R87). -/
theorem encode_of_decodeFields_updargs (h : decodeFields 0x05#8 sel ch voice d = .ok i) :
    i.wellFormed = true ∧ encode i = (header 0x05#8 sel ch voice, d) := by
  by_cases h0 : sel = 0#8
  · subst h0
    rw [decodeFields_updargs] at h
    obtain ⟨hch, hd, -, rfl⟩ := decodeChecked_ok_iff.mp h
    simp_all [encode, Instr.wellFormed]
  by_cases h1 : sel = 1#8
  · subst h1
    rw [decodeFields_updargsCh] at h
    obtain ⟨hvoice, hd, -, rfl⟩ := decodeChecked_ok_iff.mp h
    simp_all [encode, Instr.wellFormed]
  · rw [decodeFields_updargs_reserved h0 h1] at h
    cases h

/-- What the row of an opcode decodes to is encoded with the same fields, and its selector is not a reserved one:
the row's checks found zero what the encoder leaves zero. -/
theorem encode_of_decodeFields (h : decodeFields op sel ch voice d = .ok i) :
    i.wellFormed = true ∧ encode i = (header op sel ch voice, d) := by
  by_cases hup : op = 0x05#8
  · subst hup
    exact encode_of_decodeFields_updargs h
  unfold decodeFields at h
  split at h
  case h_6 hop => exact absurd (BitVec.eq_of_toNat_eq hop) hup
  case h_14 => cases h
  all_goals
    next hop =>
      obtain ⟨-, rfl⟩ := BitVec.toNat_eq_nat.mp hop
      obtain ⟨hunused, hd, hsel, rfl⟩ := decodeChecked_ok_iff.mp h
      simp_all [encode, Instr.wellFormed]

end Fields

/-- Words that decode are the encoding of a well-formed command. -/
theorem encode_of_decode {h d : Word} {i : Instr} (hd : decode h d = .ok i) :
    i.wellFormed = true ∧ encode i = (h, d) := by
  obtain ⟨-, hrsv, hfields⟩ := decode_ok_iff.mp hd
  simpa only [header_of_fields hrsv] using encode_of_decodeFields hfields

/-- Settles O2: it holds, the row of the header's opcode by the row (`encode_of_decodeFields`). -/
theorem encodeOfDecode : Obligations.EncodeOfDecode := by
  unfold Obligations.EncodeOfDecode
  exact fun _ _ _ => encode_of_decode

/-! ### What decoding rejects -/

/-- The checks of one opcode reject exactly when one of them fails. -/
theorem decodeChecked_rejected_iff {unused z : Bool} {sels : Option Nat} {sel : BitVec 8} {d : Word} {i : Instr} :
    (∃ why, decodeChecked unused z sels sel d i = .rejected why) ↔
      unused = true ∨ (z = true ∧ d ≠ 0#32) ∨ ∃ n ∈ sels, n ≤ sel.toNat := by
  have hdata : (z && d != 0#32) = true ↔ z = true ∧ d ≠ 0#32 := by simp
  have hsel : sels.any (· ≤ sel.toNat) = true ↔ ∃ n ∈ sels, n ≤ sel.toNat := by cases sels <;> simp
  rw [← hdata, ← hsel, decodeChecked]
  split
  · simp [*]
  split
  · simp [*]
  split <;> simp [*]

/-- Decoding rejects an undefined opcode, a nonzero `RSV`, and what the opcode's row rejects. -/
theorem decode_rejected_iff {h d : Word} :
    (∃ why, decode h d = .rejected why) ↔
      0x0D ≤ (headerOp h).toNat ∨ headerRsv h ≠ 0#4 ∨
        ∃ why, decodeFields (headerOp h) (headerSel h) (headerCh h) (headerVoice h) d = .rejected why := by
  unfold decode
  by_cases hop : 0x0D ≤ (headerOp h).toNat
  · simp [hop]
  · by_cases hrsv : headerRsv h = 0#4 <;> simp [hop, hrsv]

end Sys2Proof

namespace Sys2Proof.Machine

section Rejected

variable {h d : Word}

/-- Either form of UPDARGS rejects what R262 lists for it (R87). -/
theorem decodeFields_updargs_rejected_iff (hop : headerOp h = 0x05#8) (hrsv : headerRsv h = 0#4) :
    (∃ why, decodeFields 0x05#8 (headerSel h) (headerCh h) (headerVoice h) d = .rejected why) ↔
      IllegalWords h d := by
  by_cases h0 : headerSel h = 0#8
  · rw [h0, decodeFields_updargs, decodeChecked_rejected_iff]
    simp [IllegalWords, hop, hrsv, h0]
  by_cases h1 : headerSel h = 1#8
  · rw [h1, decodeFields_updargsCh, decodeChecked_rejected_iff]
    simp [IllegalWords, hop, hrsv, h1]
  · have hreserved : 2 ≤ (headerSel h).toNat := by bv_omega
    simp [decodeFields_updargs_reserved h0 h1, IllegalWords, hop, hreserved]

/-- With `RSV` zero the row of a defined opcode rejects what R262 lists for that opcode. -/
theorem decodeFields_rejected_iff (hop : (headerOp h).toNat < 0x0D) (hrsv : headerRsv h = 0#4) :
    (∃ why, decodeFields (headerOp h) (headerSel h) (headerCh h) (headerVoice h) d = .rejected why) ↔
      IllegalWords h d := by
  by_cases hup : headerOp h = 0x05#8
  · rw [hup]
    exact decodeFields_updargs_rejected_iff hup hrsv
  have hne : (headerOp h).toNat ≠ 5 := fun hk => hup (BitVec.eq_of_toNat_eq hk)
  obtain hbelow | habove := lt_or_gt_of_ne hne
  all_goals
    interval_cases hk : (headerOp h).toNat <;>
      simp [decodeFields, decodeChecked_rejected_iff, IllegalWords, hk, hrsv, or_assoc, setvSelectors, setcSelectors,
        setgSelectors, rdvoiceSelectors]

/-- Settles O3: it holds.  An undefined opcode and a nonzero `RSV` are causes on both sides; the rest is the
opcode's row (`decodeFields_rejected_iff`). -/
theorem rejectedExactlyWhenIllegal : Obligations.RejectedExactlyWhenIllegal := by
  unfold Obligations.RejectedExactlyWhenIllegal
  intro h d
  rw [decode_rejected_iff]
  by_cases hop : 0x0D ≤ (headerOp h).toNat
  · exact iff_of_true (.inl hop) (.inl hop)
  by_cases hrsv : headerRsv h = 0#4
  · simp only [hop, hrsv, decodeFields_rejected_iff (not_le.mp hop) hrsv, ne_eq, not_true_eq_false, false_or]
  · exact iff_of_true (.inr (.inl hrsv)) (.inr (.inl hrsv))

end Rejected

/-! ### The worked encodings (R92) -/

/-- A line that stands for a well-formed command is a worked encoding with the command's words: they decode back. -/
theorem worked_encoding {text : List Char} {i : Instr} {h d : Word} (htext : assembleText text = some [i])
    (hw : i.wellFormed = true) (he : encode i = (h, d)) :
    assembleText text = some [i] ∧ encode i = (h, d) ∧ decode h d = .ok i := by
  have hdecode := decode_encode hw
  rw [he] at hdecode
  exact ⟨htext, he, hdecode⟩

/-- The decimal literal of the second row: 12000.0 in binary32. -/
theorem f32OfDecimal_12000 : f32OfDecimal false 120000 1 = 0x463B8000#32 := by decide

/-- A SETV line is assembled operand by operand. -/
theorem assemble_setv (v : Int) (name : String) (value : Operand) :
    assemble ⟨"SETV", [.int v, .name name, value]⟩ = (assembleSetv v name value).map fun i => [i] := rfl

/-- The second row's line, its literal rounded by `f32OfDecimal_12000`. -/
theorem assembleText_setv_midcFreq :
    assembleText "SETV 0, MIDC_FREQ, 12000.0".toList = some [.setv 0x0C#8 0#8 0x463B8000#32] := by
  have hline : lineOf "SETV 0, MIDC_FREQ, 12000.0".toList =
      some ⟨"SETV", [.int 0, .name "MIDC_FREQ", .dec false 120000 1]⟩ := by decide
  have hvoice : voiceOperand 0 = some 0#8 := by decide
  have hreg : registerNamed setvSelectors voiceRegOf VoiceReg.name "MIDC_FREQ" = some .midcFreq := by decide
  have hword : dataWord VoiceReg.midcFreq.isFloat (.dec false 120000 1) = some 0x463B8000#32 :=
    congrArg some f32OfDecimal_12000
  rw [assembleText, hline, Option.bind_some, assemble_setv, assembleSetv, hvoice, Option.bind_eq_bind,
    Option.bind_some, hreg, Option.bind_eq_bind, Option.bind_some, hword]
  rfl

/-- Settles O4: it holds.  Each row's line is assembled by computation; that its words decode is `decode_encode`. -/
theorem workedEncodingsDecode : Obligations.WorkedEncodingsDecode := by
  unfold Obligations.WorkedEncodingsDecode
  intro t i h d hrow
  simp only [List.mem_cons, List.not_mem_nil, or_false, Prod.mk.injEq] at hrow
  rcases hrow with ⟨rfl, rfl, rfl, rfl⟩ | ⟨rfl, rfl, rfl, rfl⟩ | hrow
  · exact worked_encoding (by decide) (by decide) (by decide)
  · exact worked_encoding assembleText_setv_midcFreq (by decide) (by decide)
  · rcases hrow with hr | hr | hr | hr | hr | hr | hr | hr <;> obtain ⟨rfl, rfl, rfl, rfl⟩ := hr <;>
      exact worked_encoding (by decide) (by decide) (by decide)

/-! ### The step that takes a data word (R281) -/

/-- With a header latched, the write of a data word runs the two words, the port expecting a header again. -/
theorem step_dataWord {s : State} {h d : Word} {rest : List HostEvent} (hport : s.port = .data h)
    (hin : s.input = .port d :: rest) : step s = runWords h d { s with port := .header, input := rest } := by
  rw [step_cons hin, hostStep, portWrite]
  simp only [hport]

/-- Words that decode to a command run it. -/
theorem runWords_ok {h d : Word} {i : Instr} (hd : decode h d = .ok i) (s : State) : runWords h d s = exec i s := by
  rw [runWords, hd]

/-- Settles O5: it holds. -/
theorem stepRunsDecodedCommand : Obligations.StepRunsDecodedCommand := by
  unfold Obligations.StepRunsDecodedCommand
  intro s h d rest i hport hin hd
  rw [step_dataWord hport hin, runWords_ok hd]

end Sys2Proof.Machine
end

section
/-!
PROOFS. The voice commands (R140-R145).  Each form is run once, on a slot that meets its conditions (`exec_setv`,
`exec_noteon_created`, `exec_rdvoice`); the statements are these runs at their selectors and states.
-/

namespace Sys2Proof.Machine

/-! ### How a command on a slot ends -/

section Slot

variable {s : State} {v : BitVec 8} {w : Voice} (hw : s.voices[v.toNat]? = some w)
include hw

/-- A command that completes with its slot replaced answers that slot. -/
theorem withSlot_done {k : Voice → Host.Outcome State Fault Refusal} {w' : Voice}
    (hk : k w = State.done (s.setVoice v.toNat w')) : State.withSlot v s k = slotAnswer s v w' := by
  rw [State.withSlot_some hw, hk, State.done_def]
  rfl

/-- A command that abandons its slot answers the error. -/
theorem withSlot_raise {k : Voice → Host.Outcome State Fault Refusal} {e : Err} (hk : k w = State.raise e s) :
    State.withSlot v s k = .next (errorState e.bit s) := by
  rw [State.withSlot_some hw, hk, State.raise_errorState]

end Slot

/-! ### SETV (R140) -/

/-- SETV of data that the field accepts, on a FREE slot. -/
theorem exec_setv {s : State} {v : BitVec 8} {w : Voice} {r : VoiceReg} {d : Word} {b : Birth}
    (hw : s.voices[v.toNat]? = some w) (hf : w.state = .free) (hb : w.birth.write r d = some b) :
    exec (.setv r.sel v d) s = birthAnswer s v w b := by
  simp only [exec, execSetv, voiceRegOf_sel]
  exact withSlot_done hw (by simp only [hf, ne_eq, not_true_eq_false, if_false, hb])

/-- Settles O22: it holds, field by field from `exec_setv`. -/
theorem setvStoresNumbers : Obligations.SetvStoresNumbers := by
  unfold Obligations.SetvStoresNumbers
  intro s v w d hw hf
  exact ⟨exec_setv (r := .key) hw hf rfl, exec_setv (r := .velocity) hw hf rfl,
    exec_setv (r := .panOffset) hw hf rfl, exec_setv (r := .echoVol) hw hf rfl, exec_setv (r := .echoLen) hw hf rfl,
    exec_setv (r := .track) hw hf rfl, exec_setv (r := .att) hw hf rfl, exec_setv (r := .dec) hw hf rfl,
    exec_setv (r := .sus) hw hf rfl, exec_setv (r := .rel) hw hf rfl, exec_setv (r := .pwmBase) hw hf rfl,
    exec_setv (r := .pwmStep) hw hf rfl, exec_setv (r := .pwmDepth) hw hf rfl, exec_setv (r := .smpBase) hw hf rfl,
    exec_setv (r := .smpEnd) hw hf rfl, exec_setv (r := .smpLoopPos) hw hf rfl⟩

/-- `DUTY` accepts the numbers of two bits (R33). -/
theorem assembleE_dutyOf (x : BitVec 2) : assembleE dutyOf (x.setWidth 32) = some x := by
  have hx := x.isLt
  have hn : (x.setWidth 32).toNat = x.toNat := BitVec.toNat_setWidth_of_le (by decide)
  rw [assembleE, hn, dutyOf, if_pos (by omega), BitVec.ofNat_toNat, BitVec.setWidth_eq]

/-- `SWEEP` accepts the patterns of eight bits (R33). -/
theorem assembleB_setWidth (x : BitVec 8) : assembleB 0xFF (x.setWidth 32) = some x.toNat := by
  have hx := x.isLt
  have hn : (x.setWidth 32).toNat = x.toNat := BitVec.toNat_setWidth_of_le (by decide)
  rw [assembleB, hn, if_pos (by omega)]

/-- `STAIRSTEP` and `SMP_LOOP_EN` accept the numbers of their two values (R33). -/
theorem assembleE_flagOf (x : Bool) : assembleE flagOf (if x then 1#32 else 0#32) = some x := by
  cases x <;> rfl

/-- Settles O23: it holds, since each field's kind accepts its legal data. -/
theorem setvStoresLegalValues : Obligations.SetvStoresLegalValues := by
  unfold Obligations.SetvStoresLegalValues
  intro s v w hw hf
  refine ⟨fun n x hx => ?_, fun x => ?_, fun d hd => ?_, fun x => ?_, fun x => ?_, fun x => ?_,
    exec_setv (r := .smpChannels) hw hf rfl, exec_setv (r := .smpChannels) hw hf rfl⟩
  · have htype : assembleE dspTypeOf n = some x := by
      simp only [List.mem_cons, List.not_mem_nil, or_false, Prod.mk.injEq] at hx
      rcases hx with h | h | h | h | h | h | h <;> obtain ⟨rfl, rfl⟩ := h <;> rfl
    exact exec_setv (r := .dspType) hw hf (by rw [Birth.write, htype, Option.map_some])
  · exact exec_setv (r := .stairstep) hw hf (by rw [Birth.write, assembleE_flagOf, Option.map_some])
  · obtain ⟨hfin, hpos⟩ := positive_iff.mpr hd
    exact exec_setv (r := .midcFreq) hw hf (by rw [Birth.write, assembleF_some hfin hpos, Option.map_some])
  · exact exec_setv (r := .duty) hw hf (by rw [Birth.write, assembleE_dutyOf, Option.map_some])
  · exact exec_setv (r := .sweep) hw hf (by
      rw [Birth.write, assembleB_setWidth, Option.map_some, BitVec.ofNat_toNat, BitVec.setWidth_eq])
  · exact exec_setv (r := .smpLoopEn) hw hf (by rw [Birth.write, assembleE_flagOf, Option.map_some])

/-! ### NOTEON (R141) -/

/-- With a slot that is not FREE, `ANY_VOICE` is set. -/
theorem statusFor_set_not_free {s : State} {v : Nat} {w w' : Voice} (hw : s.voices[v]? = some w)
    (h : w'.state ≠ .free) (st : Word) : statusFor st (s.voices.set v w') = st ||| 0x00000100#32 := by
  obtain ⟨hv, -⟩ := List.getElem?_eq_some_iff.mp hw
  exact if_pos ⟨w', List.mem_set hv w', h⟩

section Noteon

variable {s : State} {v : BitVec 8} {w : Voice} (hw : s.voices[v.toNat]? = some w) (ch : BitVec 4) (off : Word)
include hw

/-- NOTEON of a slot that is not FREE. -/
theorem exec_noteon_busy (hf : w.state ≠ .free) : exec (.noteon ch v off) s = .next (errorState 2 s) :=
  withSlot_raise (e := .busy) hw (if_pos hf)

/-- NOTEON of a FREE slot without a generator completes and does nothing. -/
theorem exec_noteon_none (hf : w.state = .free) (hd : w.birth.dspType = .none) :
    exec (.noteon ch v off) s = .next { s with status := statusFor s.status s.voices } := by
  rw [exec, execNoteon, State.withSlot_some hw, if_neg (not_not_intro hf), if_pos hd, State.done_def]

/-- NOTEON of a FREE slot whose region does not lie in sample memory. -/
theorem exec_noteon_region (hf : w.state = .free) (hp : w.birth.dspType = .pcm ∨ w.birth.dspType = .pcmFixed)
    (hr : ¬ RegionInside s.cfg w.birth) : exec (.noteon ch v off) s = .next (errorState 1 s) := by
  have hd : w.birth.dspType ≠ .none := by rcases hp with h | h <;> rw [h] <;> decide
  have hbad : (w.birth.dspType.isPcm && !regionOk s.cfg w.birth) = true := by
    rw [isPcm_iff.mpr hp, Bool.eq_false_iff.mpr fun h => hr (regionOk_iff.mp h)]
    rfl
  exact withSlot_raise (e := .range) hw (by rw [if_neg (not_not_intro hf), if_neg hd, if_pos hbad])

/-- NOTEON of a FREE slot with a generator, and its region where it needs one, creates the voice; the birth
number, while it fits, is counted on. -/
theorem exec_noteon_created (hf : w.state = .free) (hd : w.birth.dspType ≠ .none)
    (hr : w.birth.dspType = .pcm ∨ w.birth.dspType = .pcmFixed → RegionInside s.cfg w.birth)
    (hseq : s.glob.seq.toNat + 1 < 2 ^ 64) :
    exec (.noteon ch v off) s =
      .next { s with
        glob := { s.glob with seq := s.glob.seq + 1#64 }
        status := s.status ||| 0x00000100#32
        voices := s.voices.set v.toNat (newVoice ch (s.chan ch).args s.glob.seq off w) } := by
  have hgood : ¬ (w.birth.dspType.isPcm && !regionOk s.cfg w.birth) = true := by
    rw [Bool.and_eq_true, isPcm_iff]
    rintro ⟨hp, hno⟩
    rw [regionOk_iff.mpr (hr hp)] at hno
    cases hno
  have hnext : narrowU64 (s.glob.seq.toNat + 1) = s.glob.seq + 1#64 := by
    rw [narrowU64_of_lt hseq, BitVec.ofNat_add, BitVec.ofNat_toNat, BitVec.setWidth_eq]
  have hstatus := statusFor_set_not_free (w' := newVoice ch (s.chan ch).args s.glob.seq off w) hw
    (by simp [newVoice]) s.status
  rw [exec, execNoteon, State.withSlot_some hw, if_neg (not_not_intro hf), if_neg hd, if_neg hgood, hnext,
    State.done_def, ← hstatus]
  rfl

end Noteon

/-- Settles O24: it holds, outcome by outcome. -/
theorem noteonRule : Obligations.NoteonRule := by
  unfold Obligations.NoteonRule
  intro s ch v off w hw
  exact ⟨exec_noteon_busy hw ch off, exec_noteon_none hw ch off, exec_noteon_region hw ch off,
    exec_noteon_created hw ch off⟩

/-! ### RELEASE, KILL and UPDARGS (R142-R144) -/

/-- Settles O25: it holds, of a voice in DIE or DEAD too (log entry 31). -/
theorem releaseRule : Obligations.ReleaseRule := by
  unfold Obligations.ReleaseRule
  intro s v w hw
  exact ⟨fun hf => withSlot_done hw (if_neg hf), fun hf => withSlot_raise (e := .noVoice) hw (if_pos hf)⟩

/-- Settles O26: it holds. -/
theorem killRule : Obligations.KillRule := by
  unfold Obligations.KillRule
  intro s v w hw
  exact ⟨fun hf => withSlot_done hw (if_neg hf), fun hf => withSlot_raise (e := .noVoice) hw (if_pos hf)⟩

/-- `ANY_VOICE` depends on the states of the slots only. -/
theorem statusFor_map {f : Voice → Voice} (h : ∀ w, (f w).state = w.state) (st : Word) (vs : List Voice) :
    statusFor st (vs.map f) = statusFor st vs := by
  simp only [statusFor_eq, anyVoice, List.any_map, Function.comp_def, h]

/-- UPDARGS.CH leaves the state of every slot. -/
theorem updargsSlot_state (ch : BitVec 4) (args : Args) (w : Voice) : (updargsSlot ch args w).state = w.state := by
  unfold updargsSlot
  split <;> rfl

/-- Settles O27: it holds.  The channel form leaves every state, so that `ANY_VOICE` is that of the slots before. -/
theorem updargsRule : Obligations.UpdargsRule := by
  unfold Obligations.UpdargsRule
  refine ⟨fun s v w hw => ⟨fun hf => withSlot_done hw (if_neg hf),
    fun hf => withSlot_raise (e := .noVoice) hw (if_pos hf)⟩, fun s c => ?_⟩
  refine ⟨s.voices.map (updargsSlot c (s.chan c).args), ?_, fun j => List.getElem?_map ..⟩
  rw [exec, execUpdargsCh, State.done_def, statusFor_map (updargsSlot_state c (s.chan c).args)]

/-! ### RDVOICE (R145) -/

/-- RDVOICE of an item, FREE slot or not. -/
theorem exec_rdvoice {s : State} {v : BitVec 8} {w : Voice} (hw : s.voices[v.toNat]? = some w) (it : ReadItem) :
    exec (.rdvoice it.sel v) s =
      .next { s with result := narrowResult (w.item it), status := statusFor s.status s.voices } := by
  simp only [exec, execRdvoice, readItemOf_sel, State.withSlot_some hw, State.done_def]

/-- Settles O28: it holds, since each selector and value of the list are those of an item. -/
theorem rdvoiceRule : Obligations.RdvoiceRule := by
  unfold Obligations.RdvoiceRule
  intro s v w hw sel x hx
  have hitem : ∃ it : ReadItem, sel = it.sel ∧ x = w.item it := by
    have hcode : w.item .state = w.state.code := rfl
    simp only [List.mem_cons, List.not_mem_nil, or_false, Prod.mk.injEq] at hx
    rcases hx with h | h | h | h | h | h | h | h | h | h <;> obtain ⟨rfl, rfl⟩ := h
    · exact ⟨.state, rfl, by rw [hcode]; cases w.state <;> rfl⟩
    · exact ⟨.isdead, rfl, rfl⟩
    · exact ⟨.level, rfl, rfl⟩
    · exact ⟨.timer, rfl, rfl⟩
    · exact ⟨.sweepOn, rfl, rfl⟩
    · exact ⟨.released, rfl, rfl⟩
    · exact ⟨.ch, rfl, rfl⟩
    · exact ⟨.key, rfl, rfl⟩
    · exact ⟨.echoCnt, rfl, rfl⟩
    · exact ⟨.lfoPhase, rfl, rfl⟩
  obtain ⟨it, rfl, rfl⟩ := hitem
  refine ⟨_, exec_rdvoice hw it, fun hlt => ?_⟩
  rw [narrowResult_of_lt hlt, BitVec.toNat_ofNat, Nat.mod_eq_of_lt hlt]

end Sys2Proof.Machine
end

section
/-!
PROOFS. The envelope (R110-R119).  Each case of `envStep` is written out from its step function; a released voice
ends because every step lowers `stepsToDead`.
-/

namespace Sys2Proof.Machine

variable {v : Voice}

/-! ### The release threshold (R116) -/

/-- The release threshold at a level above the echo volume changes nothing. -/
theorem releaseThreshold_above (h : v.birth.echoVol.toNat < v.rt.level.toNat) : releaseThreshold v = v := by
  rw [releaseThreshold_def, if_neg (by omega)]

/-- The release threshold met, with an echo. -/
theorem releaseThreshold_echo (h : v.rt.level.toNat ≤ v.birth.echoVol.toNat)
    (he : v.birth.echoVol ≠ 0#8 ∧ v.birth.echoLen ≠ 0#8) :
    releaseThreshold v =
      { v with state := .pseudoEcho, rt := { v.rt with level := v.birth.echoVol, echoCnt := v.birth.echoLen } } := by
  rw [releaseThreshold_def, if_pos h, if_pos he]

/-- The release threshold met, without an echo. -/
theorem releaseThreshold_die (h : v.rt.level.toNat ≤ v.birth.echoVol.toNat)
    (he : v.birth.echoVol = 0#8 ∨ v.birth.echoLen = 0#8) :
    releaseThreshold v = { v with state := .die, rt := { v.rt with level := 0#8 } } := by
  rw [releaseThreshold_def, if_pos h, if_neg (by tauto)]

/-! ### Attack and decay (R111, R113, R114) -/

/-- Settles O40: it holds.  INIT runs the attack of ATK from level 0, where the sum is the attack rate itself. -/
theorem envelopeAttack : Obligations.EnvelopeAttack := by
  unfold Obligations.EnvelopeAttack
  refine fun v => ⟨fun hs hr => ?_, fun hs hr => ?_, fun hs hr => ?_⟩
  · rw [envStep_init hs, initStep, if_pos hr]
    rfl
  · have hatt : BitVec.ofNat 8 (min ((0#8).toNat + v.birth.att.toNat) 255) = v.birth.att := by
      apply BitVec.eq_of_toNat_eq
      simp only [BitVec.toNat_ofNat]
      omega
    rw [envStep_init hs, initStep, if_neg (by simp [hr])]
    simp only [atkStep, Voice.setEnv_level, Voice.setEnv_birth, hatt]
    rfl
  · rw [envStep_atk hs hr]
    simp only [atkStep, atkLevel_eq_iff]
    rfl

/-- Settles O41: it holds.  Where the sustain level is 0, level 0 meets every release threshold. -/
theorem envelopeDecay : Obligations.EnvelopeDecay := by
  unfold Obligations.EnvelopeDecay
  intro v hs hr
  rw [envStep_dec hs hr]
  simp only [decStep, scaleLevel_toNat]
  refine ⟨fun h => ?_, fun h h0 => ?_, fun h h0 => ?_⟩
  · rw [if_neg (by omega), Voice.setEnv, scaleLevel, ← hs]
  · rw [if_pos h, if_neg h0]
    rfl
  · rw [if_pos h, if_pos h0]
    have hmet : (v.setEnv .rel 0#8).rt.level.toNat ≤ (v.setEnv .rel 0#8).birth.echoVol.toNat := Nat.zero_le _
    exact ⟨releaseThreshold_echo hmet, releaseThreshold_die hmet⟩

/-! ### Release and tail (R112, R115-R119) -/

/-- Settles O42: it holds.  Every such voice makes the step of REL, and the scaled level meets the threshold or
not. -/
theorem envelopeRelease : Obligations.EnvelopeRelease := by
  unfold Obligations.EnvelopeRelease
  intro v h
  have hlevel : (v.setEnv .rel (scaleLevel v.rt.level v.birth.rel)).rt.level.toNat =
      v.rt.level.toNat * v.birth.rel.toNat / 256 := scaleLevel_toNat _ _
  rw [envStep_rel h, relStep, ← hlevel]
  refine ⟨fun h => ?_, fun h hvol hlen => releaseThreshold_echo h ⟨hvol, hlen⟩, releaseThreshold_die⟩
  rw [releaseThreshold_above h, BitVec.ofNat_toNat, BitVec.setWidth_eq]
  rfl

/-- The echo counts down to a counter that is not 0 (R117). -/
theorem envStep_echo_of_ne (hs : v.state = .pseudoEcho) (h : v.rt.echoCnt - 1#8 ≠ 0#8) :
    envStep v = { v with rt := { v.rt with echoCnt := v.rt.echoCnt - 1#8 } } :=
  (envStep_echo hs).trans (if_neg h)

/-- The echo counts down to 0 (R117). -/
theorem envStep_echo_of_eq (hs : v.state = .pseudoEcho) (h : v.rt.echoCnt - 1#8 = 0#8) :
    envStep v = { v with state := .die, rt := { v.rt with echoCnt := 0#8, level := 0#8 } } := by
  rw [envStep_echo hs, echoStep, if_pos h, h]
  rfl

/-- Before its last step the echo has counted down by one a step (R117). -/
theorem iterate_envStep_echo (hs : v.state = .pseudoEcho) {k : Nat} (hk : k < v.rt.echoCnt.toNat) :
    envStep^[k] v = { v with rt := { v.rt with echoCnt := v.rt.echoCnt - BitVec.ofNat 8 k } } := by
  induction k with
  | zero => simp only [Function.iterate_zero_apply, BitVec.sub_zero]
  | succ k ih =>
    have hcnt : v.rt.echoCnt - BitVec.ofNat 8 k - 1#8 = v.rt.echoCnt - BitVec.ofNat 8 (k + 1) := by bv_omega
    have hne : v.rt.echoCnt - BitVec.ofNat 8 k - 1#8 ≠ 0#8 := by bv_omega
    rw [Function.iterate_succ_apply', ih (by omega), ← hcnt]
    exact envStep_echo_of_ne hs hne

/-- Settles O43: it holds.  The step after `iterate_envStep_echo` has counted to 1 is the echo's last. -/
theorem envelopeTail : Obligations.EnvelopeTail := by
  unfold Obligations.EnvelopeTail
  refine fun v => ⟨fun hs h0 => ⟨fun k => iterate_envStep_echo hs, ?_⟩, envStep_die, envStep_dead, envStep_sus⟩
  obtain ⟨k, hk⟩ : ∃ k, v.rt.echoCnt.toNat = k + 1 := Nat.exists_eq_succ_of_ne_zero fun h =>
    h0 (BitVec.eq_of_toNat_eq h)
  have hlast : v.rt.echoCnt - BitVec.ofNat 8 k - 1#8 = 0#8 := by bv_omega
  rw [hk, Function.iterate_succ_apply', iterate_envStep_echo hs (by omega)]
  exact envStep_echo_of_eq hs hlast

/-! ### The end of a released voice (R274) -/

/-- How many frame steps at the most a released voice is from DEAD.  An echo takes one step for each count, and from
a counter of 0, the model's choice, 256 (log entry 18); in the longest way there, REL loses one level a step and
enters the longest echo. -/
def stepsToDead (v : Voice) : Nat :=
  match v.state with
  | .free | .dead => 0
  | .init | .die => 1
  | .pseudoEcho => 2 + (v.rt.echoCnt - 1#8).toNat
  | .atk | .dec | .sus | .rel => 258 + v.rt.level.toNat

/-- No released voice is further from DEAD than one of full level in REL. -/
theorem stepsToDead_le (v : Voice) : stepsToDead v ≤ 513 := by
  have hlevel := v.rt.level.isLt
  have hcnt := (v.rt.echoCnt - 1#8).isLt
  unfold stepsToDead
  split <;> omega

/-- A rate of at most 255 / 256 lowers every level but 0. -/
theorem scaled_lt {level : Nat} (hl : level ≠ 0) (rate : BitVec 8) : level * rate.toNat / 256 < level := by
  have hrate := rate.isLt
  exact Nat.div_lt_of_lt_mul (by nlinarith [Nat.pos_of_ne_zero hl])

/-- The release threshold: the level stays, or the voice dies or enters an echo of at most 256 steps. -/
theorem stepsToDead_releaseThreshold (hs : v.state = .rel) :
    stepsToDead (releaseThreshold v) ≤
      if v.birth.echoVol.toNat < v.rt.level.toNat then 258 + v.rt.level.toNat else 257 := by
  have hcnt := (v.birth.echoLen - 1#8).isLt
  by_cases habove : v.birth.echoVol.toNat < v.rt.level.toNat
  · rw [if_pos habove, releaseThreshold_above habove, stepsToDead, hs]
  · rw [if_neg habove]
    by_cases he : v.birth.echoVol ≠ 0#8 ∧ v.birth.echoLen ≠ 0#8
    · rw [releaseThreshold_echo (not_lt.mp habove) he]
      simp only [stepsToDead]
      omega
    · rw [releaseThreshold_die (not_lt.mp habove) (by tauto)]
      simp only [stepsToDead]
      omega

/-- The step of REL: the level is lower, or it meets the threshold, which 0 always does. -/
theorem stepsToDead_relStep (v : Voice) : stepsToDead (relStep v) < 258 + v.rt.level.toNat := by
  have hlevel := scaleLevel_toNat v.rt.level v.birth.rel
  have hbound := stepsToDead_releaseThreshold (v.setEnv_state .rel (scaleLevel v.rt.level v.birth.rel))
  rw [relStep]
  refine lt_of_le_of_lt hbound ?_
  simp only [Voice.setEnv_level, Voice.setEnv_birth, hlevel]
  split
  · next habove =>
    have hlower := scaled_lt (level := v.rt.level.toNat) (by rintro h; simp [h] at habove) v.birth.rel
    omega
  · omega

/-- A step brings a released voice nearer to DEAD. -/
theorem stepsToDead_envStep (hr : v.rt.released = true) (hf : v.state ≠ .free) (hd : v.state ≠ .dead) :
    stepsToDead (envStep v) < stepsToDead v := by
  cases hs : v.state with
  | free => exact absurd hs hf
  | dead => exact absurd hs hd
  | init =>
    rw [envStep_init hs, initStep, if_pos hr]
    simp only [stepsToDead, hs, Voice.setEnv_state]
    omega
  | die =>
    rw [envStep_die hs]
    simp only [stepsToDead, hs, Voice.setEnv_state]
    omega
  | pseudoEcho =>
    by_cases h : v.rt.echoCnt - 1#8 = 0#8
    · rw [envStep_echo_of_eq hs h]
      simp only [stepsToDead, hs]
      omega
    · rw [envStep_echo_of_ne hs h]
      simp only [stepsToDead, hs]
      bv_omega
  | atk | dec | sus | rel =>
    rw [envStep_rel (by simp [hs, hr])]
    simpa only [stepsToDead, hs] using stepsToDead_relStep v

/-- A released voice is DEAD after as many steps as `stepsToDead` allows it. -/
theorem iterate_envStep_dead {n : Nat} (hr : v.rt.released = true) (hf : v.state ≠ .free) (hn : stepsToDead v ≤ n) :
    (envStep^[n] v).state = .dead := by
  induction n generalizing v with
  | zero =>
    by_contra hd
    have := stepsToDead_envStep hr hf hd
    omega
  | succ n ih =>
    obtain ⟨-, -, -, -, hreleased⟩ := envStep_sameGrid v
    rw [Function.iterate_succ_apply]
    refine ih (hreleased.trans hr) (envStep_not_free hf) ?_
    by_cases hd : v.state = .dead
    · simp only [envStep_dead hd, stepsToDead, hd, Nat.zero_le]
    · have := stepsToDead_envStep hr hf hd
      omega

/-- Settles O44: it holds, since `stepsToDead` is at most 513 and every step lowers it. -/
theorem releasedVoiceDies : Obligations.ReleasedVoiceDies := by
  unfold Obligations.ReleasedVoiceDies
  exact fun v hr hf => iterate_envStep_dead hr hf (stepsToDead_le v)

end Sys2Proof.Machine
end

section
/-!
PROOFS. The frequency of a voice and its LFO (R120-R123).
-/

namespace Sys2Proof.Machine

/-! ### The LFO (R122, R123) -/

/-- The triangle of a phase, 64 high (R122). -/
def lfoTriangle (p : Int) : Int := if p < 64 then p else if p < 192 then 128 - p else p - 256

/-- The value is the triangle of the phase, scaled by the depth and rounded down (R122). -/
theorem lfoValue_eq (v : Voice) : lfoValue v = lfoTriangle v.rt.lfoPhase.toNat * v.arg.lfoDepth.toNat / 64 := rfl

/-- The triangle of an 8-bit phase is at most 64 high on either side. -/
theorem lfoTriangle_mem {p : Int} (h0 : 0 ≤ p) (h : p < 256) : -64 ≤ lfoTriangle p ∧ lfoTriangle p ≤ 64 := by
  unfold lfoTriangle
  split_ifs <;> omega

/-- The value is in -127..127 (R122). -/
theorem lfoValue_mem (v : Voice) : -127 ≤ lfoValue v ∧ lfoValue v ≤ 127 := by
  have hphase := v.rt.lfoPhase.isLt
  have hdepth : (v.arg.lfoDepth.toNat : Int) ≤ 127 := by have := v.arg.lfoDepth.isLt; omega
  obtain ⟨hlo, hhi⟩ := lfoTriangle_mem (p := v.rt.lfoPhase.toNat) (by omega) (by omega)
  rw [lfoValue_eq]
  generalize lfoTriangle v.rt.lfoPhase.toNat = t at hlo hhi
  have hmin : -64 * 127 ≤ t * v.arg.lfoDepth.toNat := by nlinarith
  have hmax : t * v.arg.lfoDepth.toNat ≤ 64 * 127 := by nlinarith
  omega

/-- A depth of 0 leaves no LFO (R122). -/
theorem lfoValue_of_depth_zero {v : Voice} (h : v.arg.lfoDepth = 0#7) : lfoValue v = 0 := by
  rw [lfoValue_eq, h]
  exact (congrArg (· / 64) (Int.mul_zero _)).trans (Int.zero_ediv 64)

/-- Below the threshold the loop ends at once. -/
theorem lfoLoop_below {thr acc : F64} (h : F64.le thr acc = false) (speed phase : BitVec 8) (fuel : Nat) :
    lfoLoop thr speed (fuel + 1) acc phase = some (acc, phase) := by
  rw [lfoLoop, h]
  rfl

/-- At the threshold the loop makes one turn and goes on, if the subtraction changes the accumulator. -/
theorem lfoLoop_turn {thr acc : F64} (h : F64.le thr acc = true) (hsub : F64.sub acc thr ≠ acc)
    (speed phase : BitVec 8) (fuel : Nat) :
    lfoLoop thr speed (fuel + 1) acc phase = lfoLoop thr speed fuel (F64.sub acc thr) (phase + speed) := by
  simp only [lfoLoop, h, if_true, hsub, if_false]

/-- A clock whose loop ends leaves what the loop leaves. -/
theorem lfoClock_of_loop {e : Env} {slot j : Nat} {v : Voice} {thr acc acc' : F64} {phase' : BitVec 8}
    (hthr : F64.mul (F64.ofInt 60) e.glob.sampleRate = thr)
    (hacc : F64.add v.rt.bpmAcc (F64.mul e.glob.bpm (F64.ofNat e.cfg.lfoTicksPerBeat)) = acc)
    (h : lfoLoop thr v.arg.lfoSpeed (acc.mag + 1) acc v.rt.lfoPhase = some (acc', phase')) :
    lfoClock e slot j v = { v with rt := { v.rt with bpmAcc := acc', lfoPhase := phase' } } := by
  unfold lfoClock
  rw [hthr, hacc]
  simp only [h]

/-- A value not below a positive one has a magnitude, so that the clock's fuel allows a second turn. -/
theorem mag_pos_of_le {thr acc : F64} (hpos : F64.lt F64.zero thr = true) (hle : F64.le thr acc = true) :
    0 < acc.mag := by
  have hzero : F64.zero.key = 0 := by decide
  simp only [F64.lt, F64.le, Bool.and_eq_true, decide_eq_true_eq, hzero] at hpos hle
  obtain ⟨-, hthr⟩ := hpos
  obtain ⟨-, hacc⟩ := hle
  have hkey : 0 < acc.key := lt_of_lt_of_le hthr hacc
  unfold F64.key at hkey
  split at hkey <;> omega

/-- Settles O47: it holds.  The loop makes no turn or one, and the fuel is enough for either. -/
theorem lfoRule : Obligations.LfoRule := by
  unfold Obligations.LfoRule
  refine ⟨fun v => ⟨lfoValue_eq v, lfoValue_mem v⟩, fun e slot j v => ⟨fun hbelow => ?_, ?_⟩⟩
  · exact lfoClock_of_loop rfl rfl (lfoLoop_below hbelow _ _ _)
  · intro hpos hcross hsub hbelow
    obtain ⟨fuel, hfuel⟩ := Nat.exists_eq_add_one_of_ne_zero (mag_pos_of_le hpos hcross).ne'
    refine lfoClock_of_loop rfl rfl ?_
    rw [lfoLoop_turn hcross hsub, hfuel, lfoLoop_below hbelow]

/-! ### The frequency (R120, R121) -/

/-- A voice that is no fixed-rate sample follows key and pitch (R120). -/
theorem pitchFreq_of_ne {v : Voice} (h : v.birth.dspType ≠ .pcmFixed) :
    pitchFreq v = F64.mul v.birth.midcFreq (F64.exp2 (F64.add
      (F64.div (F64.ofInt ((v.birth.key.toNat : Int) - 60)) (F64.ofInt 12))
      (F64.div (F64.ofInt (pitchUnits v)) (F64.ofInt 768)))) := if_neg h

/-- No octaves from the key and none from the pitch make no octaves. -/
theorem octaves_zero :
    F64.add (F64.div (F64.ofInt 0) (F64.ofInt 12)) (F64.div (F64.ofInt 0) (F64.ofInt 768)) = F64.zero := by
  decide +kernel

/-- At key 60 with pitch 0 every voice has `MIDC_FREQ`: `EXP2` is 1 at 0 (R16). -/
theorem pitchFreq_reference {v : Voice} (hf : v.birth.midcFreq.isFinite = true) (hkey : v.birth.key = 60#7)
    (hpitch : pitchUnits v = 0) : pitchFreq v = v.birth.midcFreq := by
  by_cases h : v.birth.dspType = .pcmFixed
  · exact if_pos h
  · have hk : ((v.birth.key.toNat : Int) - 60) = 0 := by rw [hkey]; rfl
    rw [pitchFreq_of_ne h, hk, hpitch, octaves_zero, F64.exp2_zero, F64.mul_one_right hf]

/-- The pitch is 0 without tune, bend and LFO depth (R121). -/
theorem pitchUnits_zero {v : Voice} (htune : v.arg.tune = 0#16)
    (hbend : v.arg.pitchWheel = 0#7 ∨ v.arg.bendRange = 0#7) (hdepth : v.arg.lfoDepth = 0#7) : pitchUnits v = 0 := by
  have hwheel : v.arg.pitchWheel.toInt * v.arg.bendRange.toNat = 0 := by
    rcases hbend with h | h <;> simp [h]
  rw [pitchUnits, htune, hwheel, lfoValue_of_depth_zero hdepth]
  rfl

/-- Settles O46: it holds, with `EXP2` exact at 0 for the reference pitch. -/
theorem pitchAtReference : Obligations.PitchAtReference := by
  unfold Obligations.PitchAtReference
  exact fun v => ⟨fun h => if_pos h, pitchFreq_of_ne, pitchFreq_reference, pitchUnits_zero⟩

end Sys2Proof.Machine
end

section
/-!
PROOFS. The frame step (R103, R130) and the rendered sample (R101, R102, R131, R132).  A frame step is written out
once for a voice that the envelope kills and once for any other (`frameStep_dead`, `frameStep_alive`); a sample, once
for a voice that is rendered (`voiceSample_alive`).
-/

namespace Sys2Proof.Machine

/-! ### The frame step -/

section FrameStep

variable {e : Env} {v : Voice}

/-- The voice whose frequency a frame step computes: v with its pending arguments active (R104). -/
def withPendingArgs (v : Voice) : Voice := { v with arg := v.argp }

/-- The frequency and the generator's update of a frame step that does not kill the voice (R103). -/
def frequencyAndGenerator (e : Env) (v : Voice) : Voice :=
  genFrame e (v.state == .init)
    { withPendingArgs v with rt := { v.rt with freq := pitchFreq (withPendingArgs v) } }

/-- A frame step in which the envelope kills the voice. -/
theorem frameStep_dead (h : (envStep v).state = .dead) :
    frameStep e v =
      { envStep v with
        arg := v.argp
        rt := { (envStep v).rt with
          wprevL := v.rt.wcurL, wprevR := v.rt.wcurR, wcurL := 0, wcurR := 0 } } := by
  obtain ⟨⟨-, -, -, hL, hR⟩, -⟩ := envStep_sameControls v
  simp only [frameStep, envStep_withArg, h, if_true, hL, hR]

/-- A frame step in which it does not: frequency and generator read neither state, level nor echo counter, so
they are as without the envelope; the weights come last. -/
theorem frameStep_alive (h : (envStep v).state ≠ .dead) :
    frameStep e v =
      weightsStep (v.state == .init) (envSeed v.birth)
        { frequencyAndGenerator e v with
          state := (envStep v).state
          rt := { (frequencyAndGenerator e v).rt with
            level := (envStep v).rt.level, echoCnt := (envStep v).rt.echoCnt } } := by
  simp only [frameStep, envStep_withArg, h, if_false, frequencyAndGenerator]
  rw [← genFrame_setEnv, envStep_frame v]
  rfl

/-- A generator's update leaves the frequency. -/
theorem genFrame_freq (e : Env) (first : Bool) (v : Voice) : (genFrame e first v).rt.freq = v.rt.freq := by
  have hsweep : (sweepFrame e.cfg first v).rt.freq = v.rt.freq := by
    simp only [sweepFrame]
    split
    · rfl
    · split <;> rfl
  have hpwm : (pwmFrame first v).rt.freq = v.rt.freq := by
    simp only [pwmFrame]
    split <;> rfl
  have hrinc : ∀ w x, (setRinc e.cfg w x).rt.freq = w.rt.freq := fun w x => by simp only [setRinc]
  have hinc : ∀ w, (phaseIncStep e.glob w).rt.freq = w.rt.freq := fun w => by simp only [phaseIncStep]
  simp only [genFrame]
  cases v.birth.dspType with
  | none => rfl
  | pcm | pcmFixed => exact hrinc v _
  | square => exact (hrinc _ _).trans hsweep
  | pulse => exact (hinc _).trans hpwm
  | saw | triangle => exact hinc v

/-- Frequency and generator leave the note, the new arguments and the weights of the step before; the frequency is
that of the new arguments. -/
theorem frequencyAndGenerator_keeps (e : Env) (v : Voice) :
    (frequencyAndGenerator e v).birth = v.birth ∧ (frequencyAndGenerator e v).arg = v.argp ∧
      (frequencyAndGenerator e v).rt.wcurL = v.rt.wcurL ∧ (frequencyAndGenerator e v).rt.wcurR = v.rt.wcurR ∧
      (frequencyAndGenerator e v).rt.freq = pitchFreq (withPendingArgs v) := by
  obtain ⟨harg, -, -, hL, hR⟩ := genFrame_sameGains e (v.state == .init)
    { withPendingArgs v with rt := { v.rt with freq := pitchFreq (withPendingArgs v) } }
  obtain ⟨⟨⟨hbirth, -⟩, -⟩, -⟩ := genFrame_sameState e (v.state == .init)
    { withPendingArgs v with rt := { v.rt with freq := pitchFreq (withPendingArgs v) } }
  exact ⟨hbirth, harg, hL, hR, genFrame_freq ..⟩

/-- The volume weights read the birth fields and the active arguments only (R130). -/
theorem volL_volR_congr {v w : Voice} (hb : w.birth = v.birth) (ha : w.arg = v.arg) :
    volL w = volL v ∧ volR w = volR v := by
  simp only [volL, volR, volumeWeight, panPosition, hb, ha, and_self]

/-- Every frame step makes the arguments active and one step of the envelope (R103, R104). -/
theorem frameStep_envelope (e : Env) (v : Voice) :
    (frameStep e v).arg = v.argp ∧ (frameStep e v).state = (envStep v).state ∧
      (frameStep e v).rt.level = (envStep v).rt.level ∧ (frameStep e v).rt.echoCnt = (envStep v).rt.echoCnt := by
  by_cases h : (envStep v).state = .dead
  · rw [frameStep_dead h]
    exact ⟨rfl, rfl, rfl, rfl⟩
  · rw [frameStep_alive h]
    obtain ⟨-, harg, -⟩ := frequencyAndGenerator_keeps e v
    exact ⟨harg, rfl, rfl, rfl⟩

/-- The current weights of a frame step that does not kill the voice (R130). -/
theorem frameStep_wcur (h : (envStep v).state ≠ .dead) :
    (frameStep e v).rt.wcurL = (envStep v).rt.level.toNat * volL (withPendingArgs v) ∧
      (frameStep e v).rt.wcurR = (envStep v).rt.level.toNat * volR (withPendingArgs v) := by
  obtain ⟨hbirth, harg, -⟩ := frequencyAndGenerator_keeps e v
  obtain ⟨hL, hR⟩ := volL_volR_congr (v := withPendingArgs v) hbirth harg
  rw [frameStep_alive h, ← hL, ← hR]
  exact ⟨rfl, rfl⟩

/-- The previous weights at the first frame step: those of the attack's seed (R111, R130). -/
theorem frameStep_wprev_first (h : (envStep v).state ≠ .dead) (hs : v.state = .init) :
    (frameStep e v).rt.wprevL = envSeed v.birth * volL (withPendingArgs v) ∧
      (frameStep e v).rt.wprevR = envSeed v.birth * volR (withPendingArgs v) := by
  obtain ⟨hbirth, harg, -⟩ := frequencyAndGenerator_keeps e v
  obtain ⟨hL, hR⟩ := volL_volR_congr (v := withPendingArgs v) hbirth harg
  rw [frameStep_alive h, ← hL, ← hR, hs]
  exact ⟨rfl, rfl⟩

/-- The previous weights at a later frame step: the current ones of the step before (R130). -/
theorem frameStep_wprev_later (h : (envStep v).state ≠ .dead) (hs : v.state ≠ .init) :
    (frameStep e v).rt.wprevL = v.rt.wcurL ∧ (frameStep e v).rt.wprevR = v.rt.wcurR := by
  obtain ⟨-, -, hL, hR, -⟩ := frequencyAndGenerator_keeps e v
  rw [frameStep_alive h, beq_false_of_ne hs]
  exact ⟨hL, hR⟩

end FrameStep

/-- Settles O39: it holds, from `frameStep_alive` and `frameStep_dead` by the state the envelope leaves. -/
theorem frameStepWeights : Obligations.FrameStepWeights := by
  unfold Obligations.FrameStepWeights
  intro e v w p gain wL wR seed a g
  obtain ⟨harg, hstate, hlevel, hecho⟩ := frameStep_envelope e v
  refine ⟨harg, volL_le a, volR_le a, hstate, hlevel, hecho, fun hd => ?_, fun hd => ?_, fun hd => ?_⟩
  · rw [hstate] at hd
    obtain ⟨-, -, -, -, hfreq⟩ := frequencyAndGenerator_keeps e v
    simp only [w, frameStep_alive hd]
    exact ⟨hfreq, rfl, rfl, rfl, rfl, rfl, rfl, rfl⟩
  · rw [hstate] at hd
    obtain ⟨hL, hR⟩ := frameStep_wcur (e := e) hd
    rw [← hlevel] at hL hR
    exact ⟨hL, hR, frameStep_wprev_first hd, frameStep_wprev_later hd⟩
  · rw [hstate] at hd
    simp only [w, frameStep_dead hd, and_self]

/-! ### The rendered sample -/

section Sample

variable {e : Env} {slot j n : Nat} {fresh : Bool} {v : Voice}

/-- The voice after the generator and the LFO clock of a sample (R102). -/
def generated (e : Env) (slot : Nat) (fresh : Bool) (j n : Nat) (v : Voice) : Voice :=
  lfoClock e slot j (genSample e (chunkAt e.glob fresh j n v) v).1

/-- A sample whose frame step killed the voice is silent (R102). -/
theorem voiceSample_dead (h : (frameStepIfDue e v).state = .dead) :
    voiceSample e slot fresh j n v = (frameStepIfDue e v, Stereo.zero) := if_pos h

/-- The gains read the birth fields, the place in the frame and the weights only (R131, R132). -/
theorem gains_congr (e : Env) {v w : Voice} (hgrid : SameGrid v w) (hgains : SameGains v w) :
    gains e w = gains e v := by
  obtain ⟨⟨hbirth, -⟩, hsubcnt, hsubidx, -⟩ := hgrid
  obtain ⟨-, hpL, hpR, hcL, hcR⟩ := hgains
  simp only [gains, gainOf, rampWeight, hbirth, hsubcnt, hsubidx, hpL, hpR, hcL, hcR]

/-- A sample that is rendered: generator, gains, LFO clock, counters and the end of the stream (R102). -/
theorem voiceSample_alive {u : Voice} (hu : frameStepIfDue e v = u) (h : u.state ≠ .dead) :
    voiceSample e slot fresh j n v =
      (endOfStream j n (advanceCounters e.glob (generated e slot fresh j n u)),
        ⟨F64.mul (genSample e (chunkAt e.glob fresh j n u) u).2.l (gains e u).l,
          F64.mul (genSample e (chunkAt e.glob fresh j n u) u).2.r (gains e u).r⟩) := by
  have hgains := gains_congr e (genSample_sameState e (chunkAt e.glob fresh j n u) u).1
    (genSample_sameControls e (chunkAt e.glob fresh j n u) u).1
  simp only [voiceSample, hu, h, if_false, hgains, generated]

/-- Generator and LFO clock leave state and place in the frame. -/
theorem generated_sameState (e : Env) (slot : Nat) (fresh : Bool) (j n : Nat) (v : Voice) :
    SameState v (generated e slot fresh j n v) :=
  (genSample_sameState ..).trans (lfoClock_sameState ..)

/-- Within a sub-frame the counter of samples advances (R101). -/
theorem advanceCounters_within {g : Globals} (h : v.rt.subcnt.toNat + 1 < g.spf.toNat) :
    (advanceCounters g v).rt.subcnt.toNat = v.rt.subcnt.toNat + 1 ∧
      (advanceCounters g v).rt.subidx = v.rt.subidx := by
  have hne : v.rt.subcnt + 1#16 ≠ g.spf := by bv_omega
  have hnext : (v.rt.subcnt + 1#16).toNat = v.rt.subcnt.toNat + 1 := by bv_omega
  simp only [advanceCounters, hne, if_false, hnext, and_self]

/-- The last sample of a sub-frame goes to the next sub-frame (R101). -/
theorem advanceCounters_last {g : Globals} (h : v.rt.subcnt.toNat + 1 = g.spf.toNat) :
    (advanceCounters g v).rt.subcnt = 0#16 ∧ (advanceCounters g v).rt.subidx = v.rt.subidx + 1#2 := by
  have heq : v.rt.subcnt + 1#16 = g.spf := by bv_omega
  simp only [advanceCounters, heq, if_true, and_self]

/-- The end of a stream, by what the voice is after it: the counters and `SRC_END` are as before (R102, R200). -/
theorem endOfStream_state (j n : Nat) (v : Voice) {w : Voice} (hw : endOfStream j n v = w) :
    let ends := (w.rt.subcnt = 0#16 ∨ j + 1 = n) ∧ w.rt.srcEnd = true
    (ends → w.state = .dead ∧ w.rt.level = 0#8) ∧ (¬ ends → w.state = v.state) := by
  subst hw
  unfold endOfStream
  split
  · next h => exact ⟨fun _ => ⟨rfl, rfl⟩, fun hn => absurd h hn⟩
  · next h => exact ⟨fun hy => absurd hy h, fun _ => rfl⟩

end Sample

/-- Settles O38: it holds.  The sample is that of `voiceSample_dead` or `voiceSample_alive`; generator and LFO clock
leave state and counters, and the end of the stream leaves the counters. -/
theorem renderedSampleAdvances : Obligations.RenderedSampleAdvances := by
  unfold Obligations.RenderedSampleAdvances
  intro e slot j n fresh v w chunkEnds u ramp gain chunk x
  refine ⟨fun hdue => if_pos hdue, fun hdue => if_neg hdue, fun hd => ?_, fun hd => ?_, fun hspf => ⟨fun hd => ?_,
    fun hd => ?_⟩⟩
  · rw [voiceSample_dead hd]
    rfl
  · rw [voiceSample_alive rfl hd]
    rfl
  · obtain ⟨-, hsubcnt, hsubidx, -⟩ := frameStepIfDue_sameGrid e v
    have hw : w = frameStepIfDue e v := congrArg Prod.fst (voiceSample_dead hd)
    rw [hw]
    exact ⟨hd, hsubcnt, hsubidx⟩
  · have hw : endOfStream j n (advanceCounters e.glob (generated e slot fresh j n u)) = w := by
      simp only [w, voiceSample_alive (u := u) rfl hd]
    obtain ⟨hgrid, hstate⟩ := generated_sameState e slot fresh j n u
    obtain ⟨-, hsubcnt, hsubidx, -⟩ := (frameStepIfDue_sameGrid e v).trans hgrid
    obtain ⟨-, hwcnt, hwidx, -⟩ := endOfStream_sameGrid j n (advanceCounters e.glob (generated e slot fresh j n u))
    obtain ⟨hends, hgoes⟩ := endOfStream_state j n _ hw
    rw [hw] at hwcnt hwidx
    refine ⟨fun hlt => ?_, fun heq => ?_, hends, fun hn => ?_⟩
    · rw [hwcnt, hwidx, ← hsubcnt, ← hsubidx]
      exact advanceCounters_within (by rw [hsubcnt]; exact hlt)
    · rw [hwcnt, hwidx, ← hsubidx]
      exact advanceCounters_last (by rw [hsubcnt]; exact heq)
    · rw [hgoes hn, advanceCounters_state, hstate]

end Sys2Proof.Machine
end

section
/-!
PROOFS. The sample fetch (R180, R181): the frames of a region inside sample memory, and where the callback reads.
-/

namespace Sys2Proof.Machine

/-- The frames of a region inside sample memory are elements of it (R62, R180): no read goes past its end. -/
theorem sampleFrame_of_inside {e : Env} {b : Birth} (h : RegionInside e.cfg b) {f : Nat} (hf : f < b.smpEnd.toNat) :
    sampleFrame e b f =
      match b.smpChannels with
      | .mono => ⟨F64.ofF32 (e.smp.readElem (b.smpBase.toNat + f)),
          F64.ofF32 (e.smp.readElem (b.smpBase.toNat + f))⟩
      | .stereo => ⟨F64.ofF32 (e.smp.readElem (b.smpBase.toNat + 2 * f)),
          F64.ofF32 (e.smp.readElem (b.smpBase.toNat + 2 * f + 1))⟩ := by
  have hread : ∀ i, i < e.cfg.smpWords → smpRead e.cfg e.smp i = e.smp.readElem i := fun i hi => if_pos hi
  obtain ⟨-, hfits, -⟩ := h
  unfold sampleFrame
  cases hc : b.smpChannels with
  | mono =>
    rw [hc, show SmpChannels.count .mono = 1 from rfl] at hfits
    simp only [hread (b.smpBase.toNat + f) (by omega)]
  | stereo =>
    rw [hc, show SmpChannels.count .stereo = 2 from rfl] at hfits
    simp only [hread (b.smpBase.toNat + 2 * f) (by omega), hread (b.smpBase.toNat + 2 * f + 1) (by omega)]

section Fetch

variable {v : Voice}

/-- A looping region is read before its end: the loop point lies there (R181). -/
theorem fetchPos_lt_of_loop {cfg : Params} (h : RegionInside cfg v.birth) (hloop : v.birth.smpLoopEn = true) :
    (fetchPos v).toNat < v.birth.smpEnd.toNat := by
  obtain ⟨-, -, hpoint⟩ := h
  unfold fetchPos
  split
  · exact hpoint hloop
  · next hno => exact Nat.lt_of_not_le fun hend => hno ⟨hend, hloop⟩

/-- Where no loop takes it back, the callback reads at the read position (R181). -/
theorem fetchPos_of_end {cfg : Params} (h : RegionInside cfg v.birth)
    (hend : v.birth.smpEnd.toNat ≤ (fetchPos v).toNat) : fetchPos v = v.rt.rdpos :=
  if_neg fun hloop => absurd (fetchPos_lt_of_loop h hloop.2) (Nat.not_lt.mpr hend)

/-- A fetch before the end appends the frame there and moves on (R181, R192). -/
theorem fetchAppend_of_lt {e : Env} (h : (fetchPos v).toNat < v.birth.smpEnd.toNat) :
    fetchAppend e v =
      { v with
        rt := { v.rt with
          rdpos := fetchPos v + 1#32
          rbuf := v.rt.rbuf ++ [sampleFrame e v.birth (fetchPos v).toNat] } } := if_pos h

/-- A fetch at the end appends (0.0, 0.0) and ends the stream (R181). -/
theorem fetchAppend_of_end {e : Env} (h : v.birth.smpEnd.toNat ≤ (fetchPos v).toNat) :
    fetchAppend e v =
      { v with
        rt := { v.rt with rdpos := fetchPos v, srcEnd := true, rbuf := v.rt.rbuf ++ [Stereo.zero] } } :=
  if_neg (Nat.not_lt.mpr h)

end Fetch

/-- Settles O50: it holds, by the position the callback reads at. -/
theorem fetchRule : Obligations.FetchRule := by
  unfold Obligations.FetchRule
  intro e v hin pos base
  refine ⟨fetchPos_lt_of_loop hin, fun (hlt : (fetchPos v).toNat < _) => ?_, fun hend => ?_⟩
  · rw [fetchAppend_of_lt hlt, sampleFrame_of_inside hin hlt]
    rfl
  · rw [fetchAppend_of_end hend, fetchPos_of_end hin hend]
    rfl

end Sys2Proof.Machine
end

section
/-!
PROOFS. The phase generators (R168-R175) and the frame update of every generator (R151).  The modulated threshold and
the level of a sub-frame are first brought to integer arithmetic (`pwmThreshold_toNat`, `pwmLevel_of_ramp`).
-/

namespace Sys2Proof.Machine

/-! ### The modulated threshold (R169, R170) -/

/-- What is saturated to a u32 is the value of its register. -/
theorem ofNat_clamp_toNat (q : Int) :
    ((BitVec.ofNat 32 (clamp q 0 (2 ^ 32 - 1)).toNat).toNat : Int) = min (max q 0) (2 ^ 32 - 1) := by
  obtain ⟨hlo, hhi⟩ := clamp_mem (v := q) (lo := 0) (hi := 2 ^ 32 - 1) (by decide)
  rw [BitVec.toNat_ofNat, Nat.mod_eq_of_lt (by omega), Int.toNat_of_nonneg hlo]
  rfl

/-- The threshold is base plus the scaled accumulator, saturated (R169). -/
theorem pwmThreshold_toNat (b : Birth) (acc : Word) :
    ((pwmThreshold b acc).toNat : Int) =
      min (max (b.pwmBase.toNat + acc.toInt * b.pwmDepth.toNat / 256) 0) (2 ^ 32 - 1) :=
  ofNat_clamp_toNat _

/-- With depth 0 the threshold is the base (R169). -/
theorem pwmThreshold_of_depth_zero {b : Birth} (h : b.pwmDepth = 0#9) (acc : Word) :
    pwmThreshold b acc = b.pwmBase := by
  have hthr := pwmThreshold_toNat b acc
  have hbase := b.pwmBase.isLt
  rw [h, BitVec.toNat_ofNat, Nat.zero_mod, Nat.cast_zero, Int.mul_zero, Int.zero_ediv] at hthr
  exact BitVec.eq_of_toNat_eq (by omega)

/-- The level on the way from threshold a to threshold b, at sub-frame k (R170). -/
def ramp (a b : Int) (k : Nat) : Int := a + (b - a) * (k + 1) / 4

/-- The level is the exact one rounded down. -/
theorem ramp_eq_floor (a b : Int) (k : Nat) :
    ramp a b k = a + Int.floor (((b : ℚ) - a) * ((k : ℚ) + 1) / 4) := by
  have h := Rat.floor_intCast_div_natCast ((b - a) * (k + 1)) 4
  push_cast at h
  rw [h, ramp]

/-- In each of the four sub-frames the level is between the two thresholds. -/
theorem ramp_mem (a b : Int) {k : Nat} (hk : k < 4) : min a b ≤ ramp a b k ∧ ramp a b k ≤ max a b := by
  unfold ramp
  obtain rfl | rfl | rfl | rfl : k = 0 ∨ k = 1 ∨ k = 2 ∨ k = 3 := by omega
  all_goals omega

/-- In the last sub-frame the new threshold is reached. -/
theorem ramp_last (a b : Int) : ramp a b 3 = b := by
  unfold ramp
  omega

section Level

variable {v : Voice}

/-- In stairstep mode the level is the new threshold at once (R170). -/
theorem pwmLevel_of_stairstep (h : v.birth.stairstep = true) : pwmLevel v = v.rt.thrCur.toNat := if_pos h

/-- Without it the level is on the way from the old threshold to the new one (R170); it is never cut off at 0, for it
lies between the two. -/
theorem pwmLevel_of_ramp (h : v.birth.stairstep = false) :
    (pwmLevel v : Int) = ramp v.rt.thrPrev.toNat v.rt.thrCur.toNat v.rt.subidx.toNat := by
  have hlevel : pwmLevel v = (ramp v.rt.thrPrev.toNat v.rt.thrCur.toNat v.rt.subidx.toNat).toNat := by
    simp only [pwmLevel, h, Bool.false_eq_true, if_false, ramp]
  have hmem := ramp_mem v.rt.thrPrev.toNat v.rt.thrCur.toNat v.rt.subidx.isLt
  omega

end Level

/-! ### The sample (R170, R172-R175) -/

/-- The constant of the default triangle is the quotient R174 writes. -/
theorem f64_63_5_eq : f64_63_5 = F64.div (F64.ofInt 127) (F64.ofInt 2) := by decide +kernel

section Sample

variable {e : Env} {chunk : Option Nat} {v : Voice}

theorem genSample_pulse (h : v.birth.dspType = .pulse) : genSample e chunk v = phaseSample v (pwmOutput v) := by
  simp only [genSample, h]

theorem genSample_saw (h : v.birth.dspType = .saw) : genSample e chunk v = phaseSample v (sawFn e.cfg v.rt.phase) := by
  simp only [genSample, h]

theorem genSample_triangle (h : v.birth.dspType = .triangle) :
    genSample e chunk v = phaseSample v (triFn e.cfg v.rt.phase) := by
  simp only [genSample, h]

end Sample

/-! ### The frame update (R151) -/

section Frame

variable {e : Env} {first : Bool} {v : Voice}

theorem genFrame_pcm (h : v.birth.dspType = .pcm ∨ v.birth.dspType = .pcmFixed) :
    genFrame e first v = setRinc e.cfg v (F64.div v.rt.freq e.glob.sampleRate) := by
  obtain h | h := h <;> simp only [genFrame, h]

theorem genFrame_square (h : v.birth.dspType = .square) :
    genFrame e first v =
      setRinc e.cfg (sweepFrame e.cfg first v)
        (F64.div (F64.mul (F64.ofInt 8) (toneFreq e.cfg (sweepFrame e.cfg first v))) e.glob.sampleRate) := by
  simp only [genFrame, h]

theorem genFrame_pulse (h : v.birth.dspType = .pulse) :
    genFrame e first v = phaseIncStep e.glob (pwmFrame first v) := by
  simp only [genFrame, h]

theorem genFrame_shape (h : v.birth.dspType = .saw ∨ v.birth.dspType = .triangle) :
    genFrame e first v = phaseIncStep e.glob v := by
  obtain h | h := h <;> simp only [genFrame, h]

end Frame

/-- Settles O49: it holds.  Thresholds and levels are integer arithmetic; samples and frames are the branch of the
voice's generator. -/
theorem pwmThresholdRule : Obligations.PwmThresholdRule := by
  unfold Obligations.PwmThresholdRule
  refine ⟨fun b acc => ⟨pwmThreshold_toNat b acc, fun h => pwmThreshold_of_depth_zero h acc⟩,
    fun v => ⟨rfl, rfl⟩, fun v => ⟨pwmLevel_of_stairstep, fun h => ?_⟩, fun e chunk v => genSample_pulse, ?_,
    fun g v => ⟨_, rfl, ofNat_clamp_toNat _⟩,
    fun e first v => ⟨genFrame_pcm, genFrame_square, genFrame_pulse, genFrame_shape⟩⟩
  · have hlevel := pwmLevel_of_ramp h
    obtain ⟨hlo, hhi⟩ := ramp_mem v.rt.thrPrev.toNat v.rt.thrCur.toNat v.rt.subidx.isLt
    refine ⟨hlevel.trans (ramp_eq_floor _ _ _), by omega, by omega, fun hlast => ?_⟩
    rw [hlast, show (3#2).toNat = 3 from rfl, ramp_last] at hlevel
    exact_mod_cast hlevel
  · intro e chunk v t saw tri next
    refine ⟨genSample_saw, fun h => ?_⟩
    rw [genSample_triangle h]
    simp only [tri, t, ← f64_63_5_eq]
    rfl

end Sys2Proof.Machine
end

section
/-!
PROOFS. The square generator (R155-R164, R196, R197).  The sweep converges because every step that moves the timer
moves it by at least 1: after m steps an ascending timer is at least min(t + m, `TIMER_MAX`) (`iterate_sweepTimer_up`),
and a descending one is at most t - m or below 2^n (`iterate_sweepTimer_down`), where it stays.
-/

namespace Sys2Proof.F64

open Sys2Proof.Machine

/-- A value put together from the plus sign and a magnitude that is not 0 is positive. -/
theorem zero_lt_ofMag {m : Nat} (h0 : 0 < m) (h : m ≤ binary64.infMag) :
    lt zero (ofMag false m) = true := by
  have hzero : zero.isNaN = false := by decide
  have hkey : zero.key = 0 := by decide
  have hlt : m < 2 ^ 63 := by rw [infMag64] at h; omega
  have hnum : (ofMag false m).isNaN = false := by
    simp only [isNaN, mag_ofMag _ hlt, decide_eq_false_iff_not]
    omega
  have hpos : (ofMag false m).key = m := by
    simp only [key, mag_ofMag _ hlt, sign_ofMag _ hlt, Bool.false_eq_true, if_false]
  simp [lt, hzero, hkey, hnum, hpos, h0]

end Sys2Proof.F64

namespace Sys2Proof.Machine

/-! ### The fields of `SWEEP` (R160, R161) -/

section Fields

variable (b : Birth)

theorem sweepShift_eq : sweepShift b = b.sweep.toNat % 8 := by
  simp [sweepShift, BitVec.extractLsb'_toNat]

theorem sweepTime_eq : sweepTime b = b.sweep.toNat / 16 % 8 := by
  simp [sweepTime, BitVec.extractLsb'_toNat, Nat.shiftRight_eq_div_pow]

theorem sweepDown_iff : sweepDown b = true ↔ b.sweep.toNat / 8 % 2 = 1 := by
  simp [sweepDown, BitVec.getLsbD, Nat.testBit_eq_decide_div_mod_eq]

/-- The enable needs a shift and a time (R161). -/
theorem sweepEnabled_eq : sweepEnabled b = decide (b.sweep.toNat % 8 ≠ 0 ∧ b.sweep.toNat / 16 % 8 ≠ 0) := by
  simp only [sweepEnabled, sweepShift_eq, sweepTime_eq, bne, Bool.beq_eq_decide_eq, Bool.decide_and, decide_not]

/-- A shift of 0 leaves the sweep off (R161). -/
theorem sweepEnabled_of_shift_zero {b : Birth} (h : sweepShift b = 0) : sweepEnabled b = false := by
  simp [sweepEnabled, h]

end Fields

/-! ### The timer (R162, R163) -/

/-- The initial timer is a clamped integer (R162). -/
theorem initialTimer_eq (cfg : Params) (freq : F64) :
    (initialTimer cfg freq : Int) =
      min (max (F64.roundHalfEven (F64.sub (F64.ofInt 2048) (F64.div cfg.gbClock freq))) 0) cfg.timerMax := by
  unfold initialTimer
  rw [Int.toNat_of_nonneg (clamp_mem (by omega)).1]
  rfl

section Timer

variable {cfg : Params} {b : Birth} {t : Nat}

theorem sweepTimer_up (h : sweepDown b = false) :
    sweepTimer cfg b t = min (t + t / 2 ^ sweepShift b) cfg.timerMax := by
  simp only [sweepTimer, h, Bool.false_eq_true, if_false]

theorem sweepTimer_down (h : sweepDown b = true) : sweepTimer cfg b t = t - t / 2 ^ sweepShift b := by
  simp only [sweepTimer, h, if_true]

/-- Below 2^n a step does not move the timer (R164). -/
theorem sweepTimer_of_lt (ht : t ≤ cfg.timerMax) (h : t < 2 ^ sweepShift b) : sweepTimer cfg b t = t := by
  simp only [sweepTimer, Nat.div_eq_of_lt h, Nat.sub_zero, Nat.add_zero, Nat.min_eq_left ht, ite_self]

/-- From 2^n on a step moves it by at least 1. -/
theorem sweepTimer_moves (h : 2 ^ sweepShift b ≤ t) : 1 ≤ t / 2 ^ sweepShift b :=
  Nat.div_pos h (Nat.two_pow_pos _)

/-- Ascending, a step does not lower the timer (R164). -/
theorem le_sweepTimer_up (h : sweepDown b = false) (ht : t ≤ cfg.timerMax) : t ≤ sweepTimer cfg b t := by
  rw [sweepTimer_up h]
  exact Nat.le_min.mpr ⟨Nat.le_add_right .., ht⟩

/-- Descending, a step does not raise the timer (R164). -/
theorem sweepTimer_down_le (h : sweepDown b = true) : sweepTimer cfg b t ≤ t := by
  rw [sweepTimer_down h]
  exact Nat.sub_le ..

/-- Any number of steps keeps the timer in its range. -/
theorem iterate_sweepTimer_le (ht : t ≤ cfg.timerMax) (m : Nat) : (sweepTimer cfg b)^[m] t ≤ cfg.timerMax :=
  Function.Iterate.rec (· ≤ cfg.timerMax) ht (fun _ => sweepTimer_le cfg b) m

/-- Ascending from 2^n on, m steps add at least m, up to `TIMER_MAX` (R164). -/
theorem iterate_sweepTimer_up (hup : sweepDown b = false) (ht : t ≤ cfg.timerMax) (h : 2 ^ sweepShift b ≤ t)
    (m : Nat) : min (t + m) cfg.timerMax ≤ (sweepTimer cfg b)^[m] t := by
  induction m with
  | zero => exact Nat.min_le_left ..
  | succ m ih =>
    rw [Function.iterate_succ_apply', sweepTimer_up hup]
    have hmoves := sweepTimer_moves (b := b) (t := (sweepTimer cfg b)^[m] t) (by omega)
    omega

/-- Descending, m steps take at least m away, until the timer is below 2^n (R164). -/
theorem iterate_sweepTimer_down (hdown : sweepDown b = true) (ht : t ≤ cfg.timerMax) (m : Nat) :
    (sweepTimer cfg b)^[m] t + m ≤ t ∨ (sweepTimer cfg b)^[m] t < 2 ^ sweepShift b := by
  induction m with
  | zero => exact .inl le_rfl
  | succ m ih =>
    rw [Function.iterate_succ_apply']
    by_cases hlow : (sweepTimer cfg b)^[m] t < 2 ^ sweepShift b
    · rw [sweepTimer_of_lt (iterate_sweepTimer_le ht m) hlow]
      exact .inr hlow
    · have hmoves := sweepTimer_moves (Nat.not_lt.mp hlow)
      have hle := Nat.div_le_self ((sweepTimer cfg b)^[m] t) (2 ^ sweepShift b)
      rw [sweepTimer_down hdown]
      omega

/-- Ascending from 2^n on, the timer reaches `TIMER_MAX` and stays there (R164). -/
theorem sweep_converges_up (hup : sweepDown b = false) (ht : t ≤ cfg.timerMax) (h : 2 ^ sweepShift b ≤ t) :
    ∃ k, k ≤ cfg.timerMax ∧ ∀ m, k ≤ m → (sweepTimer cfg b)^[m] t = cfg.timerMax := by
  refine ⟨cfg.timerMax, le_rfl, fun m hm => ?_⟩
  have hle := iterate_sweepTimer_le (b := b) ht m
  have hge := iterate_sweepTimer_up hup ht h m
  omega

/-- Descending, the timer reaches a value below 2^n and stays there (R164). -/
theorem sweep_converges_down (hdown : sweepDown b = true) (ht : t ≤ cfg.timerMax) :
    ∃ k u, k ≤ t ∧ u < 2 ^ sweepShift b ∧ ∀ m, k ≤ m → (sweepTimer cfg b)^[m] t = u := by
  have hlow : (sweepTimer cfg b)^[t] t < 2 ^ sweepShift b := by
    have hpos := Nat.two_pow_pos (sweepShift b)
    have hdown := iterate_sweepTimer_down hdown ht t
    omega
  refine ⟨t, _, le_rfl, hlow, fun m hm => ?_⟩
  obtain ⟨extra, rfl⟩ := Nat.exists_eq_add_of_le' hm
  rw [Function.iterate_add_apply]
  exact Function.iterate_fixed (sweepTimer_of_lt (iterate_sweepTimer_le ht t) hlow) extra

end Timer

/-! ### The frame update and the tone (R157, R163) -/

section Frame

variable {cfg : Params} {v : Voice}

/-- The first frame sets the enable and the timer (R161-R163). -/
theorem sweepFrame_first :
    sweepFrame cfg true v =
      { v with rt := { v.rt with sweepOn := sweepEnabled v.birth, timer := initialTimer cfg v.rt.freq } } := rfl

/-- A later frame steps the timer while the sweep is on (R163). -/
theorem sweepFrame_on (h : v.rt.sweepOn = true) :
    sweepFrame cfg false v =
      { v with
        rt := { v.rt with
          timer := if v.birth.sweep.toNat / 8 % 2 = 1 then v.rt.timer - v.rt.timer / 2 ^ (v.birth.sweep.toNat % 8)
            else min (v.rt.timer + v.rt.timer / 2 ^ (v.birth.sweep.toNat % 8)) cfg.timerMax } } := by
  simp only [sweepFrame, h, Bool.false_eq_true, if_false, if_true, sweepTimer, sweepDown_iff, sweepShift_eq]

/-- With the sweep off a later frame changes nothing (R163). -/
theorem sweepFrame_off (h : v.rt.sweepOn = false) : sweepFrame cfg false v = v := by
  simp only [sweepFrame, h, Bool.false_eq_true, if_false]

theorem toneFreq_on (h : v.rt.sweepOn = true) :
    toneFreq cfg v = F64.div cfg.gbClock (F64.ofInt (2048 - v.rt.timer)) := if_pos h

theorem toneFreq_off (h : v.rt.sweepOn = false) : toneFreq cfg v = v.rt.freq := by
  simp only [toneFreq, h, Bool.false_eq_true, if_false]

end Frame

/-! ### The stream and the table (R155, R156, R196) -/

/-- The high steps of each duty (R155). -/
theorem dutyHigh_eq (d : BitVec 2) : (dutyHigh d : Int) = [1, 2, 4, 6].getD d.toNat 0 := by
  revert d
  decide

/-- Before its start the stream is 0.0 (R156). -/
theorem squareStream_of_neg (d : BitVec 2) {m : Int} (h : m < 0) : squareStream d m = F64.zero := if_pos h

/-- From its start on it repeats the duty's eight steps (R155, R156). -/
theorem squareStream_of_nonneg (d : BitVec 2) {m : Int} (h : 0 ≤ m) :
    squareStream d m = if m % 8 < [1, 2, 4, 6].getD d.toNat 0 then F64.half else F64.negHalf := by
  have hstep : (m % 8).toNat < dutyHigh d ↔ m % 8 < (dutyHigh d : Int) := by omega
  rw [← dutyHigh_eq, squareStream, if_neg (Int.not_lt.mpr h), squareTable]
  simp only [hstep]

section Table

variable {cfg : Params}

/-- The table's last entry is positive (R196). -/
theorem blepA_last_pos (hn : 1 ≤ cfg.blepN) (hr : 1 ≤ cfg.blepRes) :
    F64.lt F64.zero (blepA cfg (2 * cfg.blepN * cfg.blepRes)) = true := by
  have hne : 2 * cfg.blepN * cfg.blepRes ≠ 0 := Nat.mul_ne_zero (by omega) (by omega)
  rw [blepA, if_neg hne, if_pos rfl]
  refine F64.zero_lt_ofMag (Nat.succ_pos _) ?_
  rw [F64.infMag64]
  exact (Config.blepLast cfg.blepN cfg.blepRes cfg.blepTaper).isLt

theorem blepLook_below {x : F64} (h : F64.le x (F64.neg (F64.ofNat cfg.blepN)) = true) :
    blepLook cfg x = F64.zero := if_pos h

theorem blepLook_above {x : F64} (hlo : F64.le x (F64.neg (F64.ofNat cfg.blepN)) = false)
    (hhi : F64.le (F64.ofNat cfg.blepN) x = true) : blepLook cfg x = blepA cfg (2 * cfg.blepN * cfg.blepRes) := by
  simp only [blepLook, hlo, hhi, Bool.false_eq_true, if_false, if_true]

theorem blepLook_inside {x : F64} (hlo : F64.le x (F64.neg (F64.ofNat cfg.blepN)) = false)
    (hhi : F64.le (F64.ofNat cfg.blepN) x = false) :
    let p := F64.mul (F64.add x (F64.ofNat cfg.blepN)) (F64.ofNat cfg.blepRes)
    blepLook cfg x =
      F64.lerp (blepA cfg (F64.floor p).toNat) (blepA cfg ((F64.floor p).toNat + 1))
        (F64.sub p (F64.ofInt (F64.floor p))) := by
  simp only [blepLook, hlo, hhi, Bool.false_eq_true, if_false]

end Table

/-! ### The sample (R158, R197) -/

/-- A read position that 64 bits hold advances by the whole part (R158, R197). -/
theorem narrowU64_add_toNat (r : BitVec 64) {k : Int} (hk : 0 ≤ k) (h : r.toNat + k < 2 ^ 64) :
    ((narrowU64 (r.toNat + k.toNat)).toNat : Int) = r.toNat + k := by
  rw [narrowU64_of_lt (by omega), BitVec.toNat_ofNat, Nat.mod_eq_of_lt (by omega)]
  omega

theorem genSample_square {e : Env} {chunk : Option Nat} {v : Voice} (h : v.birth.dspType = .square) :
    genSample e chunk v = blepSample e v := by
  simp only [genSample, h]

/-- The output for sums that are the same on both sides: their quotient on both, 0.0 where the weights cancel (R197). -/
theorem blepOutput_pair (w x : F64) :
    blepOutput (w, ⟨x, x⟩) =
      let y := if F64.eq w F64.zero = true then F64.zero else F64.div x w
      ⟨y, y⟩ := by
  unfold blepOutput
  split <;> rfl

/-- Settles O48: it holds.  The sweep converges by `sweep_converges_up` and `sweep_converges_down`; the sample is the
quotient of the sums of R197, which are the same on both sides. -/
theorem sweepConverges : Obligations.SweepConverges := by
  unfold Obligations.SweepConverges
  refine ⟨fun cfg v => ⟨?_, ?_, sweepFrame_on, toneFreq_on⟩,
    fun d m => ⟨squareStream_of_neg d, squareStream_of_nonneg d⟩,
    fun cfg x => ⟨rfl, blepA_last_pos, blepLook_below, blepLook_above, blepLook_inside⟩, ?_, ?_⟩
  · simp only [sweepFrame_first]
    exact sweepEnabled_eq v.birth
  · simp only [sweepFrame_first]
    exact initialTimer_eq cfg v.rt.freq
  · intro e chunk v hd c w sums y pos k
    have hsums : blepSums e.cfg v = (sums.1, ⟨sums.2, sums.2⟩) := blepSums_eq e.cfg v w _ sums rfl rfl rfl
    have hout : blepOutput (blepSums e.cfg v) = ⟨y, y⟩ := by rw [hsums, blepOutput_pair]
    refine ⟨narrowU64 (v.rt.ridx.toNat + k.toNat), ?_, narrowU64_add_toNat v.rt.ridx⟩
    rw [genSample_square hd]
    simp only [blepSample, hout]
    rfl
  · intro cfg b t ht n next
    exact ⟨sweepTimer_of_lt ht,
      fun hup => ⟨le_sweepTimer_up hup ht, sweepTimer_le cfg b ht, sweep_converges_up hup ht⟩,
      fun hdown => ⟨sweepTimer_down_le hdown, sweep_converges_down hdown ht⟩, sweepEnabled_of_shift_zero,
      fun v hoff => ⟨sweepFrame_off hoff, toneFreq_off hoff⟩⟩

end Sys2Proof.Machine
end

section
/-!
PROOFS. The linear resampler (R192-R194).  At unit rate lerp(a, b, 0) is a + (b - a) × 0, which is a as long as the
difference is finite: that of two widened f32 is below 2^1203 units, far below the greatest finite binary64
(`isFinite_sub_ofF32`).
-/

namespace Sys2Proof.F64

open Sys2Proof.Machine

/-! ### Sums that do not overflow -/

/-- What is below 2^2097 units of 2^-1074 does not round to infinity. -/
theorem round_lt_infMag {n : Nat} (h : n < 2 ^ 2097) : binary64.round n 1 < binary64.infMag := by
  have hlog : n.log2 ≤ 2096 := by
    by_cases hn : n = 0
    · subst hn; decide
    · exact Nat.le_of_lt_succ ((Nat.log2_lt hn).mpr h)
  have hquot : n / 2 ^ (n.log2 - 52) < 2 ^ 53 := by
    rw [Nat.div_lt_iff_lt_mul (Nat.two_pow_pos _), ← Nat.pow_add]
    exact Nat.lt_of_lt_of_le Nat.lt_log2_self (Nat.pow_le_pow_right (by omega) (by omega))
  rw [infMag64]
  simp only [FloatFormat.round, binary64, Nat.div_one, Nat.one_mul]
  refine Nat.lt_of_le_of_lt (Nat.min_le_left _ _) ?_
  by_cases hsmall : n < 2 ^ 53
  · simp only [hsmall, if_true, Nat.pow_zero, Nat.div_one, Nat.zero_mul]
    split <;> omega
  · simp only [hsmall, if_false]
    split <;> omega

/-- The size of the exact value of x is that of its magnitude. -/
theorem natAbs_units (x : F64) : x.units.natAbs = binary64.units x.mag := by
  unfold units
  split <;> simp

/-- Negation changes the sign alone. -/
theorem mag_neg (x : F64) : (neg x).mag = x.mag := by
  simp only [mag, neg, BitVec.toNat_xor]
  rw [Nat.xor_mod_two_pow]
  exact Nat.xor_zero _

/-- Negation keeps a value finite. -/
theorem isFinite_neg (x : F64) : (neg x).isFinite = x.isFinite := by
  simp only [isFinite, mag_neg]

/-- The sum of finite values is their exact sum, rounded. -/
theorem add_of_finite {x y : F64} (hx : x.isFinite = true) (hy : y.isFinite = true) :
    add x y = ofUnits (x.sign && y.sign) (x.units + y.units) 1 := by
  simp only [add, not_isNaN_of_isFinite hx, not_isNaN_of_isFinite hy, not_isInf_of_isFinite hx,
    not_isInf_of_isFinite hy, Bool.or_self, Bool.false_eq_true, if_false]

/-- An exact value below 2^2097 units rounds to a finite value. -/
theorem isFinite_ofUnits (zs : Bool) {u : Int} (h : u.natAbs < 2 ^ 2097) : (ofUnits zs u 1).isFinite = true := by
  unfold ofUnits
  split
  · cases zs <;> decide
  · have hr := round_lt_infMag h
    rw [isFinite, mag_ofMag _ (by rw [infMag64] at hr; omega)]
    exact decide_eq_true hr

/-- A widened finite f32 is finite. -/
theorem isFinite_ofF32 {d : F32} (h : f32Finite d) : (ofF32 d).isFinite = true :=
  (ofF32_finite (by rw [infMag32]; exact h)).1

/-- A widened finite f32 is below 2^128, which is 2^1202 units. -/
theorem units_ofF32_lt {d : F32} (h : f32Finite d) : binary64.units (ofF32 d).mag < 2 ^ 1202 := by
  have h' : d.toNat % 2 ^ 31 < binary32.infMag := by rw [infMag32]; exact h
  unfold f32Finite at h
  have h32 : binary32.units (d.toNat % 2 ^ 31) < 2 ^ 24 * 2 ^ 253 := by
    rw [units32]
    split
    · omega
    · exact Nat.mul_lt_mul_of_lt_of_le (by omega) (Nat.pow_le_pow_right (by omega) (by omega)) (Nat.two_pow_pos _)
  calc binary64.units (ofF32 d).mag = binary32.units (d.toNat % 2 ^ 31) * unitRatio := (ofF32_finite h').2.2
    _ < 2 ^ 24 * 2 ^ 253 * unitRatio := Nat.mul_lt_mul_of_pos_right h32 (Nat.two_pow_pos _)
    _ = 2 ^ 1202 := by rw [unitRatio, ← Nat.pow_add, ← Nat.pow_add]

/-- The difference of two widened finite f32 is finite. -/
theorem isFinite_sub_ofF32 {a b : F32} (ha : f32Finite a) (hb : f32Finite b) :
    (sub (ofF32 b) (ofF32 a)).isFinite = true := by
  rw [sub, add_of_finite (isFinite_ofF32 hb) ((isFinite_neg _).trans (isFinite_ofF32 ha))]
  refine isFinite_ofUnits _ ?_
  calc ((ofF32 b).units + (neg (ofF32 a)).units).natAbs
      ≤ binary64.units (ofF32 b).mag + binary64.units (ofF32 a).mag := by
        rw [← natAbs_units, ← mag_neg (ofF32 a), ← natAbs_units]
        exact Int.natAbs_add_le _ _
    _ < 2 ^ 1202 + 2 ^ 1202 := Nat.add_lt_add (units_ofF32_lt hb) (units_ofF32_lt ha)
    _ = 2 ^ 1203 := by rw [Nat.pow_succ 2 1202, Nat.mul_two]
    _ ≤ 2 ^ 2097 := Nat.pow_le_pow_right (by omega) (by omega)

/-! ### Zeros -/

/-- x × 0 is a zero for a finite x. -/
theorem mag_mul_zero {x : F64} (hx : x.isFinite = true) : (mul x zero).mag = 0 := by
  have hnum : zero.isNaN = false := by decide
  have hinf : zero.isInf = false := by decide
  have hunits : zero.units = 0 := by decide
  simp only [mul, not_isNaN_of_isFinite hx, not_isInf_of_isFinite hx, hnum, hinf, hunits, Int.mul_zero, ofUnits,
    Bool.or_self, Bool.false_eq_true, if_false, if_true]
  exact mag_ofMag _ (by decide)

/-- A value that is not NaN equals itself. -/
theorem eq_self_of_not_isNaN {x : F64} (hx : x.isNaN = false) : eq x x = true := by
  simp [eq, hx]

/-- Two zeros are equal, whatever their signs. -/
theorem eq_of_mag_zero {x y : F64} (hx : x.mag = 0) (hy : y.mag = 0) : eq x y = true := by
  simp [eq, isNaN, key, hx, hy]

/-- x + 0 equals x for a finite x, with either zero; where x is a zero itself the sign may change. -/
theorem eq_add_zero {x z : F64} (hx : x.isFinite = true) (hz : z.mag = 0) : eq (add x z) x = true := by
  by_cases hx0 : x.mag = 0
  · have hzf : z.isFinite = true := by rw [isFinite, hz, infMag64]; rfl
    refine eq_of_mag_zero ?_ hx0
    rw [add_of_finite hx hzf, (units_zero_iff x).mpr hx0, (units_zero_iff z).mpr hz]
    exact mag_ofMag _ (by decide)
  · rw [add_zero_right hx hx0 hz]
    exact eq_self_of_not_isNaN (not_isNaN_of_isFinite hx)

/-- lerp(a, b, 0) equals a where the difference is finite (R15, R194). -/
theorem eq_lerp_zero {a b : F64} (ha : a.isFinite = true) (hd : (sub b a).isFinite = true) :
    eq (lerp a b zero) a = true :=
  eq_add_zero ha (mag_mul_zero hd)

/-- lerp(a, b, 0) equals a for widened finite f32. -/
theorem eq_lerp_zero_ofF32 {a b : F32} (ha : f32Finite a) (hb : f32Finite b) :
    eq (lerp (ofF32 a) (ofF32 b) zero) (ofF32 a) = true :=
  eq_lerp_zero (isFinite_ofF32 ha) (isFinite_sub_ofF32 ha hb)

end Sys2Proof.F64

namespace Sys2Proof.Machine

/-! ### Unit rate (R193, R194) -/

/-- The output of a sample interpolates the first two frames (R193). -/
theorem linearStep_output {v : Voice} {a b : Stereo} {rest : List Stereo} (hbuf : v.rt.rbuf = a :: b :: rest) :
    (linearStep v).2 = lerpStereo a b v.rt.rphase := by
  simp only [linearStep, hbuf]
  rfl

/-- At unit rate the read position 0 + 1 is one whole frame: one is consumed and the phase is 0 again. -/
theorem linearStep_voice_of_unit {v : Voice} (hphase : v.rt.rphase = F64.zero) (hinc : v.rt.rinc = F64.one) :
    (linearStep v).1 = { v with rt := { v.rt with rbuf := v.rt.rbuf.drop 1 } } := by
  have hpos : F64.add F64.zero F64.one = F64.one := by decide +kernel
  have hfloor : F64.floor F64.one = 1 := by decide +kernel
  have hrest : F64.sub F64.one (F64.ofInt 1) = F64.zero := by decide +kernel
  simp only [linearStep, hphase, hinc, hpos, hfloor, hrest]
  rw [← hphase]
  rfl

/-- Settles O51: it holds, by the interpolation at 0 (`eq_lerp_zero_ofF32`). -/
theorem linearUnitRate : Obligations.LinearUnitRate := by
  unfold Obligations.LinearUnitRate
  intro v al ar bl br rest hal har hbl hbr hphase hinc hbuf
  refine ⟨?_, ?_⟩
  · rw [linearStep_voice_of_unit hphase hinc, hbuf]
    rfl
  · rw [linearStep_output hbuf, hphase]
    exact ⟨F64.eq_lerp_zero_ofF32 hal hbl, F64.eq_lerp_zero_ofF32 har hbr⟩

/-! ### The look-ahead (R192) -/

/-- A fetch appends one frame. -/
theorem fetchAppend_rbuf (e : Env) (v : Voice) : ∃ f, (fetchAppend e v).rt.rbuf = v.rt.rbuf ++ [f] := by
  obtain hlt | hend := Nat.lt_or_ge (fetchPos v).toNat v.birth.smpEnd.toNat
  · exact ⟨_, by rw [fetchAppend_of_lt hlt]⟩
  · exact ⟨_, by rw [fetchAppend_of_end hend]⟩

/-- k fetches append k frames. -/
theorem fetchMany_rbuf (e : Env) (k : Nat) (v : Voice) :
    ∃ fs, fs.length = k ∧ (fetchMany e k v).rt.rbuf = v.rt.rbuf ++ fs := by
  induction k generalizing v with
  | zero => exact ⟨[], rfl, (List.append_nil _).symm⟩
  | succ k ih =>
    obtain ⟨f, hf⟩ := fetchAppend_rbuf e v
    obtain ⟨fs, hlen, hfs⟩ := ih (fetchAppend e v)
    refine ⟨f :: fs, congrArg (· + 1) hlen, ?_⟩
    rw [fetchMany, hfs, hf, List.append_assoc, List.singleton_append]

/-- Settles O52: it holds.  The missing frames are appended, none where none is missing. -/
theorem lookAheadIsFilled : Obligations.LookAheadIsFilled := by
  unfold Obligations.LookAheadIsFilled
  intro e nc v need
  obtain ⟨fs, hlen, hfs⟩ := fetchMany_rbuf e (need - v.rt.rbuf.length).toNat v
  have hprepare : (linearPrepare e nc v).rt.rbuf = v.rt.rbuf ++ fs := hfs
  rw [hprepare]
  refine ⟨?_, List.take_left⟩
  rw [List.length_append, hlen]
  omega

end Sys2Proof.Machine
end

section
/-!
PROOFS. The reverb: one sample of each type (R212, R217, R218), blocks one after another (R220), and the cursors
over a run of PROCESS commands (R221).
-/

namespace Sys2Proof.Machine

/-! ### One sample -/

section Sample

variable {cfg : Params} {g : Globals} {c : Channel}

/-- Type 0 passes the dry pair (R218). -/
theorem reverbSample_off (h : c.reverbType = .off) (dry : Stereo) : reverbSample cfg g c dry = (c, dry) := by
  rw [reverbSample, h]

/-- Type 1 runs the base algorithm (R218). -/
theorem reverbSample_base (h : c.reverbType = .base) (dry : Stereo) :
    reverbSample cfg g c dry = reverbBase cfg g c dry := by
  rw [reverbSample, h]

/-- Types 2 and 3 run their variant (R218). -/
theorem reverbSample_variant {x : Variant} (h : c.reverbType = .variant x) (dry : Stereo) :
    reverbSample cfg g c dry = reverbVariant cfg g x c dry := by
  rw [reverbSample, h]

end Sample

/-- The two rings of a variant differ in length (R216). -/
theorem revLen1_ne_revLen2 (x : Variant) (cfg : Params) (g : Globals) : revLen1 x cfg g ≠ revLen2 x cfg g := by
  simp only [revLen2]
  split
  · omega
  · next hne => exact Ne.symm hne

/-- Settles O53: it holds, type by type. -/
theorem reverbSampleRule : Obligations.ReverbSampleRule := by
  unfold Obligations.ReverbSampleRule
  intro cfg g c dry k len
  refine ⟨fun hoff => reverbSample_off hoff dry, fun hbase => ?_, fun x hvariant => ?_⟩
  · exact ⟨reverbSample_base hbase dry, fun hring =>
      ⟨Ring.get_put_same hring.1 _ _, fun i hi => Ring.get_put_other _ _ hi⟩⟩
  · exact ⟨reverbSample_variant hvariant dry, revLen1_ne_revLen2 x cfg g⟩

/-! ### Blocks one after another -/

/-- A block of two parts is the first part, then the second from where the first leaves the channel. -/
theorem reverbBlock_append (cfg : Params) (g : Globals) (c : Channel) (xs ys : List Stereo) :
    reverbBlock cfg g c (xs ++ ys) =
      ((reverbBlock cfg g (reverbBlock cfg g c xs).1 ys).1,
        (reverbBlock cfg g c xs).2 ++ (reverbBlock cfg g (reverbBlock cfg g c xs).1 ys).2) := by
  induction xs generalizing c with
  | nil => rfl
  | cons x xs ih => simp only [List.cons_append, reverbBlock, ih]

/-- Settles O54: it holds, by induction on the first part (`reverbBlock_append`). -/
theorem reverbBlocksJoin : Obligations.ReverbBlocksJoin := by
  unfold Obligations.ReverbBlocksJoin
  intro cfg g c xs ys
  exact ⟨reverbBlock_append cfg g c xs ys, rfl, fun _ => rfl⟩

/-! ### The cursors of a run -/

/-- The cursor of a base ring lies in it (R25). -/
theorem Channel.reverbWf.cur0_lt {cfg : Params} {g : Globals} {c : Channel} (hc : c.reverbWf cfg g)
    (h : c.reverbType = .base) : c.cur0 < ring0Len cfg g := by
  simp only [Channel.reverbWf, h] at hc
  obtain ⟨⟨-, hcur⟩, -⟩ := hc
  exact hcur

/-- The cursors of a variant lie in their rings (R25). -/
theorem Channel.reverbWf.cur12_lt {cfg : Params} {g : Globals} {c : Channel} {x : Variant}
    (hc : c.reverbWf cfg g) (h : c.reverbType = .variant x) :
    c.cur1 < revLen1 x cfg g ∧ c.cur2 < revLen2 x cfg g := by
  simp only [Channel.reverbWf, h] at hc
  obtain ⟨-, ⟨-, hcur1⟩, -, hcur2⟩ := hc
  exact ⟨hcur1, hcur2⟩

/-- Where all reverbs fit, each channel's does. -/
theorem State.reverbsWf.chan {s : State} (hs : s.reverbsWf) (c : BitVec 4) :
    (s.chan c).reverbWf s.cfg s.glob := by
  obtain ⟨-, -, hchan⟩ := hs
  exact (hchan c).1

/-- Channel d has the reverb type of c, and the cursors of c moved on by m samples. -/
structure CursorsMoved (cfg : Params) (g : Globals) (m : Nat) (c d : Channel) : Prop where
  type : d.reverbType = c.reverbType
  off : c.reverbType = .off → d.cur0 = c.cur0 ∧ d.cur1 = c.cur1 ∧ d.cur2 = c.cur2
  base : c.reverbType = .base → d.cur0 = (c.cur0 + m) % ring0Len cfg g
  variant : ∀ x, c.reverbType = .variant x →
    d.cur1 = (c.cur1 + m) % revLen1 x cfg g ∧ d.cur2 = (c.cur2 + m) % revLen2 x cfg g

/-- A block of reverb moves the cursors on by its length. -/
theorem reverbBlock_cursorsMoved {cfg : Params} {g : Globals} {c : Channel} (hc : c.reverbWf cfg g)
    (xs : List Stereo) : CursorsMoved cfg g xs.length c (reverbBlock cfg g c xs).1 where
  type := by
    obtain ⟨-, htype, -⟩ := reverbBlock_registers cfg g c xs
    exact htype
  off h := by rw [reverbBlock_off h]; exact ⟨rfl, rfl, rfl⟩
  base h := reverbBlock_cur0 h (hc.cur0_lt h) xs
  variant _ h := reverbBlock_cur12 h (hc.cur12_lt h).1 (hc.cur12_lt h).2 xs

namespace CursorsMoved

variable {cfg : Params} {g : Globals} {m n : Nat} {c d e : Channel}

/-- Over no samples cursors in their rings stay: the reverb of an empty block. -/
theorem refl (hc : c.reverbWf cfg g) : CursorsMoved cfg g 0 c c := reverbBlock_cursorsMoved hc []

/-- Moves one after another add up. -/
theorem trans (h : CursorsMoved cfg g m c d) (h' : CursorsMoved cfg g n d e) :
    CursorsMoved cfg g (m + n) c e where
  type := h'.type.trans h.type
  off ht := by
    obtain ⟨h0, h1, h2⟩ := h.off ht
    obtain ⟨h0', h1', h2'⟩ := h'.off (h.type.trans ht)
    exact ⟨h0'.trans h0, h1'.trans h1, h2'.trans h2⟩
  base ht := by rw [h'.base (h.type.trans ht), h.base ht, Nat.mod_add_mod, Nat.add_assoc]
  variant x ht := by
    obtain ⟨h1, h2⟩ := h.variant x ht
    obtain ⟨h1', h2'⟩ := h'.variant x (h.type.trans ht)
    rw [h1', h1, h2', h2, Nat.mod_add_mod, Nat.mod_add_mod, Nat.add_assoc, Nat.add_assoc]
    exact ⟨rfl, rfl⟩

end CursorsMoved

/-- A PROCESS moves the cursors of every channel on by its count. -/
theorem processBlock_cursorsMoved {s : State} (hs : s.reverbsWf) (n : Nat) (c : BitVec 4) :
    CursorsMoved s.cfg s.glob n (s.chan c) ((processBlock n s).chan c) := by
  have hblock := reverbBlock_cursorsMoved (hs.chan c) (dryBlock s n c)
  rw [dryBlock_length] at hblock
  rw [processBlock_chan]
  exact ⟨hblock.type, hblock.off, hblock.base, hblock.variant⟩

/-- Completing a command leaves the channels. -/
@[simp] theorem State.chan_complete (s : State) (c : BitVec 4) : s.complete.chan c = s.chan c := rfl

/-- The reverbs of a completed state fit where they fitted before. -/
theorem State.reverbsWf.complete {s : State} (hs : s.reverbsWf) : s.complete.reverbsWf := hs

/-- PROCESS commands of legal counts move the cursors of every channel on by the sum of the counts. -/
theorem execAll_process_cursorsMoved {ns : List Word} {s t : State} (hs : s.reverbsWf)
    (hn : ∀ n ∈ ns, 1 ≤ n.toNat ∧ n.toNat ≤ s.cfg.blockMax) (h : execAll (ns.map .process) s = .next t)
    (c : BitVec 4) : CursorsMoved s.cfg s.glob (ns.map BitVec.toNat).sum (s.chan c) (t.chan c) := by
  induction ns generalizing s with
  | nil =>
    cases h
    exact .refl (hs.chan c)
  | cons n ns ih =>
    obtain ⟨⟨hpos, hmax⟩, hns⟩ := List.forall_mem_cons.mp hn
    obtain ⟨hcfg, hglob, -⟩ := processBlock_frame n.toNat s
    have hwf := ((Written.block n rfl hmax rfl).reverbsWf hs).complete
    simp only [List.map_cons, execAll, exec_process hpos hmax, State.done_eq] at h
    have hrest := ih hwf (by rwa [State.complete_cfg, hcfg]) h
    rw [State.complete_cfg, State.complete_glob, State.chan_complete, hcfg, hglob] at hrest
    rw [List.map_cons, List.sum_cons]
    exact (processBlock_cursorsMoved hs n.toNat c).trans hrest

/-- A cursor is back after a whole number of traversals. -/
theorem add_mod_of_dvd_of_lt {cur len m : Nat} (hdvd : len ∣ m) (hcur : cur < len) : (cur + m) % len = cur := by
  obtain ⟨q, rfl⟩ := hdvd
  rw [Nat.add_mul_mod_self_left, Nat.mod_eq_of_lt hcur]

/-- Settles O55: it holds, as the commands move the cursors on by the sum of their counts
(`execAll_process_cursorsMoved`). -/
theorem cursorsComeBack : Obligations.CursorsComeBack := by
  unfold Obligations.CursorsComeBack
  intro ns s t c k hs hn h
  have hmoved := execAll_process_cursorsMoved hs hn h c
  have hwf := hs.chan c
  refine ⟨hmoved.off, fun ht hsum => ?_, fun x ht hsum => ?_⟩
  · have hdvd : ring0Len s.cfg s.glob ∣ (ns.map BitVec.toNat).sum := ⟨k, hsum.trans (Nat.mul_comm _ _)⟩
    rw [hmoved.base ht, add_mod_of_dvd_of_lt hdvd (hwf.cur0_lt ht)]
  · obtain ⟨hcur1, hcur2⟩ := hwf.cur12_lt ht
    obtain ⟨h1, h2⟩ := hmoved.variant x ht
    rw [h1, h2, hsum]
    exact ⟨add_mod_of_dvd_of_lt ((Nat.dvd_lcm_left _ _).mul_left k) hcur1,
      add_mod_of_dvd_of_lt ((Nat.dvd_lcm_right _ _).mul_left k) hcur2⟩

end Sys2Proof.Machine
end

section
/-!
PROOFS. `ANY_VOICE` after every command (R239), and the commands but PROCESS that name no slot (R240, R241,
R244-R248).  SETC and SETG are run once on data they accept (`exec_setc`, `exec_setg`), and the statements are these
runs at their selectors; NOTEOFF turns on which slot is the oldest (`oldestSeq_some`, `releaseOldest_eq_set`).
-/

namespace Sys2Proof.Machine

/-! ### `ANY_VOICE` (R239) -/

/-- Whatever two words do, they end by completing a state. -/
theorem runWords_complete {h d : Word} {s t : State} (hrun : runWords h d s = .next t) :
    ∃ u : State, t = u.complete := by
  unfold runWords at hrun
  split at hrun
  · obtain ⟨u, -, rfl⟩ := exec_written hrun
    exact ⟨u, rfl⟩
  · rw [State.raise_eq] at hrun
    cases hrun
    exact ⟨_, rfl⟩

/-- Settles O12: it holds, since words that decode and words that do not both end by completing a state. -/
theorem anyVoiceAfterEveryCommand : Obligations.AnyVoiceAfterEveryCommand := by
  unfold Obligations.AnyVoiceAfterEveryCommand
  intro s t h d rest hport hin hstep
  rw [step_dataWord hport hin] at hstep
  obtain ⟨u, rfl⟩ := runWords_complete hstep
  rw [u.complete_anyVoice, anyVoice_iff, State.complete_voices]

/-- `ANY_VOICE` depends on no more of the slots than which of them are FREE. -/
theorem statusFor_map_of_free_iff {f : Voice → Voice} (h : ∀ w, (f w).state = .free ↔ w.state = .free) (st : Word)
    (vs : List Voice) : statusFor st (vs.map f) = statusFor st vs := by
  have hany : anyVoice (vs.map f) = anyVoice vs := by
    rw [Bool.eq_iff_iff]
    simp only [anyVoice_iff, List.mem_map, exists_exists_and_eq_and, ne_eq, h]
  rw [statusFor_eq, statusFor_eq, hany]

/-- A slot replaced by one in the same state leaves `ANY_VOICE`. -/
theorem statusFor_set_of_state {vs : List Voice} {j : Nat} {w w' : Voice} (hw : vs[j]? = some w)
    (h : w'.state = w.state) (st : Word) : statusFor st (vs.set j w') = statusFor st vs := by
  have hany : ∀ us : List Voice, anyVoice us = (us.map Voice.state).any (· != .free) := fun us =>
    (List.any_map (l := us) (f := Voice.state) (p := (· != .free))).symm
  rw [statusFor_eq, statusFor_eq, hany, hany, map_set_of_eq hw h]

/-! ### NOP (R248) -/

/-- The row of opcode 0 (R84). -/
theorem decodeFields_nop (sel : BitVec 8) (ch : BitVec 4) (voice : BitVec 8) (d : Word) :
    decodeFields 0x00#8 sel ch voice d =
      decodeChecked (sel != 0#8 || ch != 0#4 || voice != 0#8) true none sel d .nop := rfl

/-- Opcode 0 decodes to nothing but NOP. -/
theorem eq_nop_of_decode {h d : Word} {i : Instr} (hop : headerOp h = 0x00#8) (hd : decode h d = .ok i) :
    i = .nop := by
  obtain ⟨-, -, hfields⟩ := decode_ok_iff.mp hd
  rw [hop, decodeFields_nop] at hfields
  obtain ⟨-, -, -, hi⟩ := decodeChecked_ok_iff.mp hfields
  exact hi.symm

/-- The pair of zero words is NOP's one encoding. -/
theorem decode_nop_iff {h d : Word} : decode h d = .ok .nop ↔ h = 0#32 ∧ d = 0#32 := by
  have hzero : encode .nop = (0#32, 0#32) := by decide
  constructor
  · intro hd
    obtain ⟨-, he⟩ := encode_of_decode hd
    rw [hzero, Prod.mk.injEq] at he
    exact ⟨he.1.symm, he.2.symm⟩
  · rintro ⟨rfl, rfl⟩
    decide

/-- NOP does nothing but end. -/
theorem exec_nop (s : State) : exec .nop s = .next { s with status := statusFor s.status s.voices } :=
  s.done_def

/-- Words that do not decode set `ERR_ILLEGAL` (R262). -/
theorem runWords_rejected {h d : Word} (hd : ∀ i, decode h d ≠ .ok i) (s : State) :
    runWords h d s = .next (errorState 0 s) := by
  unfold runWords
  split
  · next i hi => exact absurd hi (hd i)
  · exact State.raise_errorState .illegal s

/-- Settles O21: it holds. -/
theorem nopChangesNothing : Obligations.NopChangesNothing := by
  unfold Obligations.NopChangesNothing
  refine ⟨exec_nop, fun s hs => ?_, fun h d => decode_nop_iff, fun h d s hop hne => runWords_rejected ?_ s⟩
  · rw [exec_nop, statusFor_self hs]
  · intro i hi
    obtain rfl := eq_nop_of_decode hop hi
    obtain ⟨hh, hd⟩ := decode_nop_iff.mp hi
    exact hne.elim (· hh) (· hd)

/-! ### SETC (R244) -/

section Setc

variable {s : State} {ch : BitVec 4} {d : Word} {c : Channel}

/-- SETC of data that the register accepts stores it; a write of `REVERB_TYPE` initialises the reverb too. -/
theorem exec_setc_accepted {r : ChanReg} (hc : (s.chan ch).write r d = some c) :
    exec (.setc r.sel ch d) s =
      chanAnswer s ch (if r = .reverbType then c.resetReverb s.cfg s.glob else c) := by
  simp only [exec, execSetc, chanRegOf_sel, hc, State.done_def]
  rfl

/-- SETC of a register other than `REVERB_TYPE` stores the data and does no more. -/
theorem exec_setc {r : ChanReg} (hr : r ≠ .reverbType) (hc : (s.chan ch).write r d = some c) :
    exec (.setc r.sel ch d) s = chanAnswer s ch c := by
  rw [exec_setc_accepted hc, if_neg hr]

/-- SETC of a legal `REVERB_TYPE` stores it and initialises the reverb of the channel (R219). -/
theorem exec_setc_reverbType (x : ReverbType) (hx : assembleE reverbTypeOf d = some x) :
    exec (.setc 0x07#8 ch d) s =
      chanAnswer s ch (({ s.chan ch with reverbType := x } : Channel).resetReverb s.cfg s.glob) :=
  exec_setc_accepted (r := .reverbType) (by rw [Channel.write, hx, Option.map_some])

/-- No reverb type has a number above 3 (R24). -/
theorem reverbTypeOf_of_gt : ∀ {n : Nat}, 3 < n → reverbTypeOf n = none
  | _ + 4, _ => rfl

/-- A `REVERB_TYPE` above 3 is out of range. -/
theorem exec_setc_reverbType_range (hd : 3 < d.toNat) : exec (.setc 0x07#8 ch d) s = .next (errorState 1 s) := by
  have hc : (s.chan ch).write .reverbType d = none := by
    rw [Channel.write, assembleE, reverbTypeOf_of_gt hd, Option.map_none]
  simp only [exec, execSetc, show chanRegOf 0x07#8 = some .reverbType from rfl, hc]
  exact State.raise_errorState .range s

end Setc

/-- Settles O29: it holds, register by register from `exec_setc` and `exec_setc_reverbType`. -/
theorem setcRule : Obligations.SetcRule := by
  unfold Obligations.SetcRule
  intro s ch d c
  refine ⟨exec_setc (r := .volume) nofun rfl, exec_setc (r := .pan) nofun rfl, exec_setc (r := .tune) nofun rfl,
    exec_setc (r := .pitchWheel) nofun rfl, exec_setc (r := .bendRange) nofun rfl,
    exec_setc (r := .lfoSpeed) nofun rfl, exec_setc (r := .lfoDepth) nofun rfl,
    exec_setc (r := .reverbIntensity) nofun rfl, fun n x hx => ?_, fun n x hx => ?_, exec_setc_reverbType_range⟩
  all_goals
    simp only [List.mem_cons, List.not_mem_nil, or_false, Prod.mk.injEq] at hx
    obtain ⟨rfl, rfl⟩ | ⟨rfl, rfl⟩ := hx
  · exact exec_setc_reverbType .off rfl
  · exact exec_setc_reverbType .base rfl
  · exact exec_setc_reverbType (.variant .A) rfl
  · exact exec_setc_reverbType (.variant .B) rfl

/-! ### SETG (R245, R246) -/

section Setg

variable {s : State} {d : Word} {g : Globals}

/-- SETG of data that the register accepts, the slots FREE where it needs them to be, completes. -/
theorem exec_setg {r : GlobReg} (hfree : r.needsSilence = true → anyVoice s.voices = false)
    (hg : s.glob.write r d = some g) :
    exec (.setg r.sel d) s =
      .next { s with
        glob := g
        chans := if r = .spf ∧ g.spf ≠ s.glob.spf then resetAllReverbs s.cfg g s.chans else s.chans
        status := statusFor s.status s.voices } := by
  have hquiet : ¬ (r.needsSilence && anyVoice s.voices) = true := by
    rw [Bool.and_eq_true]
    rintro ⟨hneeds, hany⟩
    rw [hfree hneeds] at hany
    cases hany
  simp only [exec, execSetg, globRegOf_sel, if_neg hquiet, hg, State.done_def]

/-- SETG that does not change `SPF` replaces the global registers and no more. -/
theorem exec_setg_same_spf {r : GlobReg} (hfree : r.needsSilence = true → anyVoice s.voices = false)
    (hg : s.glob.write r d = some g) (hspf : g.spf = s.glob.spf) :
    exec (.setg r.sel d) s = globAnswer s g := by
  rw [exec_setg hfree hg, if_neg fun h => h.2 hspf]
  rfl

/-- `SPF` accepts the numbers 1..65535 (R22). -/
theorem Globals.write_spf (h1 : 1 ≤ d.toNat) (h2 : d.toNat ≤ 65535) :
    g.write .spf d = some { g with spf := d.setWidth 16 } := by
  rw [Globals.write, if_neg (by omega), BitVec.ofNat_toNat]

/-- SETG of an `SPF` that is not the one before initialises every reverb with the new ring lengths (R246). -/
theorem exec_setg_spf (hfree : anyVoice s.voices = false) (hg : s.glob.write .spf d = some g)
    (hspf : g.spf ≠ s.glob.spf) :
    exec (.setg 0x02#8 d) s =
      .next { s with
        glob := g
        chans := resetAllReverbs s.cfg g s.chans
        status := statusFor s.status s.voices } := by
  refine (exec_setg (r := .spf) (fun _ => hfree) hg).trans ?_
  rw [if_pos ⟨rfl, hspf⟩]

end Setg

/-- Settles O30: it holds.  Where `SPF` changes, each channel is that of `chan_resetAllReverbs`. -/
theorem setgStoresLegalValues : Obligations.SetgStoresLegalValues := by
  unfold Obligations.SetgStoresLegalValues
  refine ⟨fun s d => ⟨fun hd => ?_, fun hd => ?_⟩, fun s d hfree => ⟨fun hd => ?_, fun h1 h2 => ⟨fun heq => ?_,
    fun hne => ?_⟩⟩⟩
  · exact exec_setg_same_spf (r := .outputGain) nofun
      (by rw [Globals.write, assembleF_some hd rfl, Option.map_some]) rfl
  · obtain ⟨hfin, hlegal⟩ := nonNegative_iff.mpr hd
    exact exec_setg_same_spf (r := .bpm) nofun
      (by rw [Globals.write, assembleF_some hfin hlegal, Option.map_some]) rfl
  · obtain ⟨hfin, hlegal⟩ := positive_iff.mpr hd
    exact exec_setg_same_spf (r := .sampleRate) (fun _ => (anyVoice_false_iff s.voices).mpr hfree)
      (by rw [Globals.write, assembleF_some hfin hlegal, Option.map_some]) rfl
  · have hspf : d.setWidth 16 = s.glob.spf := by
      rw [← BitVec.ofNat_toNat, ← heq, BitVec.ofNat_toNat, BitVec.setWidth_eq]
    refine (exec_setg_same_spf (r := .spf) (fun _ => (anyVoice_false_iff s.voices).mpr hfree)
      (Globals.write_spf h1 h2) hspf).trans ?_
    rw [globAnswer, hspf]
  · have hspf : d.setWidth 16 ≠ s.glob.spf := by
      intro h
      rw [← h, BitVec.toNat_setWidth, Nat.mod_eq_of_lt (by omega)] at hne
      exact hne rfl
    exact ⟨_, exec_setg_spf ((anyVoice_false_iff s.voices).mpr hfree) (Globals.write_spf h1 h2) hspf, rfl,
      fun c => chan_resetAllReverbs s.cfg _ s c⟩

/-! ### CLRSTAT (R247) -/

/-- A mask of at most 0x1F clears just what it names. -/
theorem statusCleared_of_le {m : Word} (hm : m.toNat ≤ 0x1F) (st : Word) : statusCleared st m = st &&& ~~~m := by
  have hmask : m &&& errorMask = m := by
    apply BitVec.eq_of_toNat_eq
    rw [BitVec.toNat_and, show errorMask.toNat = 2 ^ 5 - 1 from rfl, Nat.and_two_pow_sub_one_eq_mod,
      Nat.mod_eq_of_lt (by omega)]
  rw [statusCleared, hmask]

/-- Settles O31: it holds. -/
theorem clrstatRule : Obligations.ClrstatRule := by
  unfold Obligations.ClrstatRule
  refine fun s m => ⟨fun hm => ?_, fun hm => ?_⟩
  · rw [exec, execClrstat, assembleB, if_pos hm, State.done_def, statusCleared_of_le hm]
  · rw [exec, execClrstat, assembleB, if_neg (by omega)]
    exact State.raise_errorState .range s

/-! ### NOTEOFF (R240) -/

/-- The candidates of NOTEOFF, condition by condition. -/
theorem noteoffCandidate_iff {ch : BitVec 4} {key : Nat} {w : Voice} :
    noteoffCandidate ch key w = true ↔
      w.state.live = true ∧ w.ch = ch ∧ w.birth.key.toNat = key ∧ w.rt.released = false := by
  simp only [noteoffCandidate, Bool.and_eq_true, beq_iff_eq, Bool.not_eq_true', and_assoc]

section Noteoff

variable {ch : BitVec 4} {key : Nat} {vs : List Voice}

/-- With no candidate there is no smallest birth number. -/
theorem oldestSeq_none (h : ∀ w ∈ vs, noteoffCandidate ch key w = false) : oldestSeq ch key vs = none := by
  rw [oldestSeq, List.filter_eq_nil_iff.mpr fun w hw => by simp [h w hw]]
  rfl

variable {j : Nat} {w : Voice} (hw : vs[j]? = some w) (hc : noteoffCandidate ch key w = true)
  (hold : ∀ (k : Nat) (u : Voice), vs[k]? = some u → noteoffCandidate ch key u = true → k ≠ j →
    w.seq.toNat < u.seq.toNat)
include hw hc hold

/-- A candidate older than every other has the smallest birth number. -/
theorem oldestSeq_some : oldestSeq ch key vs = some w.seq.toNat := by
  rw [oldestSeq, List.min?_eq_some_iff]
  refine ⟨List.mem_map_of_mem (List.mem_filter.mpr ⟨List.mem_of_getElem? hw, hc⟩), fun q hq => ?_⟩
  obtain ⟨u, hu, rfl⟩ := List.mem_map.mp hq
  obtain ⟨hmem, hcu⟩ := List.mem_filter.mp hu
  obtain ⟨k, hk⟩ := List.mem_iff_getElem?.mp hmem
  by_cases hkj : k = j
  · subst hkj
    rw [hw] at hk
    cases hk
    exact le_rfl
  · exact (hold k u hk hcu hkj).le

/-- A candidate older than every other is the one released. -/
theorem releaseOldest_eq_set : releaseOldest ch key w.seq.toNat vs = vs.set j w.release := by
  induction vs generalizing j with
  | nil => cases hw
  | cons v vs ih =>
    rw [releaseOldest]
    cases j with
    | zero =>
      cases hw
      rw [if_pos (by simp [hc]), List.set_cons_zero]
    | succ j =>
      have hskip : ¬ (noteoffCandidate ch key v && v.seq.toNat == w.seq.toNat) = true := by
        rw [Bool.and_eq_true, beq_iff_eq]
        rintro ⟨hcv, hseq⟩
        exact (hold 0 v rfl hcv (Nat.succ_ne_zero j).symm).ne' hseq
      rw [if_neg hskip, List.set_cons_succ, ih hw fun k u hk hcu hne => hold (k + 1) u hk hcu (by omega)]

end Noteoff

/-- Settles O32: it holds.  The released voice keeps its state, so that `ANY_VOICE` is that of the slots before. -/
theorem noteoffRule : Obligations.NoteoffRule := by
  unfold Obligations.NoteoffRule
  intro s ch key cand
  have hcand (w : Voice) : noteoffCandidate ch (assembleU 127 key) w = true ↔ cand w := noteoffCandidate_iff
  refine ⟨fun hnone => ?_, fun j w hw hc hold => ?_⟩
  · have ho := oldestSeq_none fun w hw => Bool.eq_false_iff.mpr fun h => hnone w hw ((hcand w).mp h)
    simp only [exec, execNoteoff, ho, State.done_def]
  · have hc' := (hcand w).mpr hc
    have hold' := fun k u hk hu => hold k u hk ((hcand u).mp hu)
    simp only [exec, execNoteoff, oldestSeq_some hw hc' hold', releaseOldest_eq_set hw hc' hold', State.done_def,
      statusFor_set_of_state hw w.release_state]
    rfl

/-! ### ALLOFF (R241) -/

/-- ALLOFF leaves a slot FREE or not FREE as it was. -/
theorem alloffSlot_free_iff (w : Voice) : (alloffSlot w).state = .free ↔ w.state = .free := by
  unfold alloffSlot
  split
  · rfl
  · next hf => exact iff_of_false nofun hf

/-- Settles O33: it holds. -/
theorem alloffRule : Obligations.AlloffRule := by
  unfold Obligations.AlloffRule
  refine fun s => ⟨s.voices.map alloffSlot, ?_, fun j => List.getElem?_map ..⟩
  rw [exec, execAlloff, State.done_def, statusFor_map_of_free_iff alloffSlot_free_iff]

end Sys2Proof.Machine
end

section
/-!
PROOFS. PROCESS (R230-R238): what the command leaves and makes of slots, channels and output memory, slot by slot,
sample by sample and element by element.
-/

namespace Sys2Proof.Machine

/-! ### One slot (R232, R238) -/

section Slot

variable {e : Env} {n j : Nat} {w : Voice}

/-- A FREE slot is left as it is. -/
theorem processedSlot_free (h : w.state = .free) : reclaimSlot (renderedSlot e n j w) = w := by
  rw [renderedSlot, if_pos h, reclaimSlot, if_neg (by rw [h]; nofun)]

/-- A DEAD slot renders nothing and is reclaimed. -/
theorem processedSlot_dead (h : w.state = .dead) : reclaimSlot (renderedSlot e n j w) = { w with state := .free } := by
  rw [renderedSlot, if_neg (by rw [h]; nofun), renderVoice, renderFrom_dead e j n true 0 h, reclaimSlot, if_pos h]

/-- A slot that is not FREE is rendered, into a buffer of any content, and reclaimed. -/
theorem processedSlot_not_free (h : w.state ≠ .free) {acc : List Stereo} (hacc : acc.length = n) :
    reclaimSlot (renderedSlot e n j w) = reclaimSlot (renderVoice e j n w acc).1 := by
  rw [renderedSlot, if_neg h, renderVoice, renderVoice,
    renderFrom_voice_congr e j n true 0 w (acc' := acc) (by rw [List.length_replicate, hacc])]

/-- Rendering a block never sets or clears `RELEASED`. -/
theorem renderVoice_released (e : Env) (slot n : Nat) (v : Voice) (acc : List Stereo) :
    (renderVoice e slot n v acc).1.rt.released = v.rt.released :=
  renderVoice_keeps e slot n (fun w => w.rt.released = v.rt.released) (fun _ h => h)
    (fun fresh j w h _ => (voiceSample_released e slot fresh j n w).trans h) rfl acc

/-- A PROCESS never sets or clears `RELEASED` of a slot. -/
theorem processedSlot_released (e : Env) (n j : Nat) (w : Voice) :
    (reclaimSlot (renderedSlot e n j w)).rt.released = w.rt.released := by
  rw [(reclaimSlot_fields _).2, renderedSlot]
  split
  · rfl
  · exact renderVoice_released e j n w _

end Slot

/-- Settles O35: it holds (`processedSlot_not_free`). -/
theorem slotsRenderAlone : Obligations.SlotsRenderAlone := by
  unfold Obligations.SlotsRenderAlone
  intro s t n j w h hpos hmax hw hf acc hacc
  rw [exec_process hpos hmax, State.done_eq] at h
  cases h
  rw [State.complete_voices, processBlock_slot, hw, Option.map_some, processedSlot_not_free hf hacc]

/-! ### The whole block (R230, R236) -/

/-- A PROCESS writes the slots, the channels, output memory, the model's own counter and `ANY_VOICE`. -/
theorem processBlock_complete (n : Nat) (s : State) :
    (processBlock n s).complete = { s with
      voices := (processBlock n s).voices
      chans := (processBlock n s).chans
      outMem := (processBlock n s).outMem
      freeTag := s.freeTag + 1
      status := statusFor s.status (processBlock n s).voices } := by
  obtain ⟨hcfg, hglob, hstatus, hresult, hport, hsmp, hinput, htag, -⟩ := processBlock_frame n s
  generalize processBlock n s = u at *
  rw [State.complete_def, ← hcfg, ← hglob, ← hstatus, ← hresult, ← hport, ← hsmp, ← hinput, ← htag]

/-- The channels in the order of R230, by number. -/
theorem allChannels_eq : allChannels = (List.range 16).map (BitVec.ofNat 4) := by decide

/-- Output memory after a PROCESS, the channels counted by number. -/
theorem processBlock_outMem_range (n : Nat) (s : State) :
    (processBlock n s).outMem =
      (List.range 16).foldl (fun m c => mixBlock s.freeTag c 0 m (wetBlock s n (BitVec.ofNat 4 c)).2) s.outMem := by
  rw [processBlock_outMem, allChannels_eq, List.foldl_map]
  refine List.foldl_ext _ _ _ fun m c hc => ?_
  have hlt : c < 16 := List.mem_range.mp hc
  rw [BitVec.toNat_ofNat, Nat.mod_eq_of_lt hlt]

/-- The registers of a channel, and its buffer before the result is stored, after its reverb. -/
theorem wetBlock_registers (s : State) (n : Nat) (c : BitVec 4) :
    (wetBlock s n c).1.args = (s.chan c).args ∧ (wetBlock s n c).1.reverbType = (s.chan c).reverbType ∧
      (wetBlock s n c).1.reverbIntensity = (s.chan c).reverbIntensity ∧
      (wetBlock s n c).1.acc = (s.chan c).acc :=
  reverbBlock_registers s.cfg s.glob (s.chan c) (dryBlock s n c)

/-- Settles O34: it holds, part by part from the laws of `processBlock`. -/
theorem processCompletes : Obligations.ProcessCompletes := by
  unfold Obligations.ProcessCompletes
  intro s n hpos hmax
  obtain ⟨-, -, -, -, -, -, -, -, hlen⟩ := processBlock_frame n.toNat s
  refine ⟨(processBlock n.toNat s).complete, by rw [exec_process hpos hmax, State.done_eq], ?_⟩
  simp only [State.chan_complete, State.complete_voices, State.complete_chans, State.complete_outMem]
  refine ⟨?_, fun c => ?_, fun c => ?_, processBlock_outMem_range n.toNat s, wetBlock_length s n.toNat,
    fun a ha => processBlock_readByte n.toNat s ha, hlen, fun j w hw => ?_⟩
  · exact processBlock_complete n.toNat s
  · obtain ⟨hargs, htype, hintensity, -⟩ := wetBlock_registers s n.toNat c
    rw [processBlock_chan]
    exact ⟨hargs, htype, hintensity⟩
  · obtain ⟨-, -, -, hacc⟩ := wetBlock_registers s n.toNat c
    rw [processBlock_chan, hacc]
  · obtain ⟨hbirth, hch, hseq, hargp⟩ := processedSlot_sameNote s.env n.toNat j w
    refine ⟨reclaimSlot (renderedSlot s.env n.toNat j w), ?_, reclaimSlot_not_dead _, hbirth, hch, hseq, hargp,
      processedSlot_released s.env n.toNat j w, processedSlot_free, processedSlot_dead⟩
    rw [processBlock_slot, hw, Option.map_some]

/-! ### The start offset (R233) -/

/-- The voice k samples further into its start offset. -/
def Voice.skip (k : Nat) (v : Voice) : Voice := { v with rt := { v.rt with delay := v.rt.delay - BitVec.ofNat 32 k } }

/-- No sample skipped. -/
theorem Voice.skip_zero (v : Voice) : v.skip 0 = v := by simp [Voice.skip]

/-- One sample and k more. -/
theorem Voice.skip_skip (k m : Nat) (v : Voice) : (v.skip k).skip m = v.skip (k + m) := by
  simp only [Voice.skip, BitVec.ofNat_add, BitVec.sub_sub]

/-- The offset that is left. -/
theorem Voice.skip_delay_toNat {k : Nat} {v : Voice} (h : k ≤ v.rt.delay.toNat) :
    (v.skip k).rt.delay.toNat = v.rt.delay.toNat - k := by
  have := v.rt.delay.isLt
  simp only [Voice.skip]
  have hk : (BitVec.ofNat 32 k).toNat = k := by rw [BitVec.toNat_ofNat, Nat.mod_eq_of_lt (by omega)]
  rw [BitVec.toNat_sub_of_le (by rw [BitVec.le_def, hk]; exact h), hk]

section Offset

variable (e : Env) (slot n : Nat) (fresh : Bool) (j : Nat) {v : Voice}

/-- One sample inside the start offset: nothing is rendered. -/
theorem renderFrom_skip_one (hv : v.state ≠ .dead) (hd : 1 ≤ v.rt.delay.toNat) (a : Stereo) (rest : List Stereo) :
    renderFrom e slot n fresh j v (a :: rest) =
      ((renderFrom e slot n fresh (j + 1) (v.skip 1) rest).1,
        a :: (renderFrom e slot n fresh (j + 1) (v.skip 1) rest).2) := by
  have hne : v.rt.delay ≠ 0#32 := by
    intro h
    rw [h] at hd
    cases hd
  rw [renderFrom, if_neg hv, if_pos hne]
  rfl

/-- The samples inside the start offset stay as they are, and the voice has skipped them. -/
theorem renderFrom_skip (hv : v.state ≠ .dead) (before after : List Stereo)
    (hd : before.length ≤ v.rt.delay.toNat) :
    renderFrom e slot n fresh j v (before ++ after) =
      ((renderFrom e slot n fresh (j + before.length) (v.skip before.length) after).1,
        before ++ (renderFrom e slot n fresh (j + before.length) (v.skip before.length) after).2) := by
  induction before generalizing v j with
  | nil => simp [Voice.skip_zero]
  | cons a before ih =>
    rw [List.length_cons] at hd
    have hleft : before.length ≤ (v.skip 1).rt.delay.toNat := by
      rw [Voice.skip_delay_toNat (by omega)]
      omega
    rw [List.cons_append, renderFrom_skip_one e slot n fresh j hv (by omega),
      ih (j + 1) (v := v.skip 1) hv hleft, Voice.skip_skip, List.length_cons, Nat.add_assoc, Nat.add_comm 1 before.length]
    rfl

end Offset

/-- Settles O36: it holds.  The two clauses of the offset are `renderFrom_skip` with nothing after it, and with
the samples from its end on. -/
theorem startOffsetRule : Obligations.StartOffsetRule := by
  unfold Obligations.StartOffsetRule
  refine ⟨fun e slot n j fresh v acc hv => renderFrom_dead e slot n fresh j hv acc,
    fun e slot n j fresh v a rest hv hd => ?_, fun e slot v hv => ⟨fun acc hacc => ?_, fun before after hlen => ?_⟩⟩
  · rw [renderFrom, if_neg hv, if_neg (not_not_intro hd)]
    rfl
  · have h := renderFrom_skip e slot acc.length true 0 hv acc [] hacc
    rw [List.append_nil] at h
    rw [renderVoice, h]
    simp only [renderFrom, List.append_nil]
    rfl
  · have hskip : v.skip before.length = { v with rt := { v.rt with delay := 0#32 } } := by
      rw [Voice.skip, hlen, BitVec.ofNat_toNat, BitVec.setWidth_eq, BitVec.sub_self]
    rw [renderVoice, renderFrom_skip e slot _ true 0 hv before after hlen.le, hskip, Nat.zero_add]

/-! ### The mix (R235, R236) -/

/-- The pattern of a NaN is a NaN's. -/
theorem nanF32_isNaN (p : Bool × Fin 0x7FFFFF) : 0x7F800000 < (F64.nanF32 p).toNat % 2 ^ 31 := by
  have hp := p.2.isLt
  rw [F64.nanF32, F64.infMag32, BitVec.toNat_ofNat]
  split <;> omega

/-- What the mix writes for a value that is not NaN: its rounding to f32. -/
theorem outPattern_of_not_nan {x : F64} (h : x.isNaN = false) (tag c i : Nat) : outPattern tag c i x = x.toF32 := by
  rw [outPattern, h]
  rfl

/-- What the mix writes for a NaN: a NaN. -/
theorem outPattern_of_nan {x : F64} (h : x.isNaN = true) (tag c i : Nat) :
    0x7F800000 < (outPattern tag c i x).toNat % 2 ^ 31 := by
  rw [outPattern, if_pos h]
  exact nanF32_isNaN _

section Mix

variable {words : Nat} {m : Memory} (tag c : Nat)

/-- An element is its bytes. -/
theorem Memory.readElem_congr {m m' : Memory} {i : Nat}
    (h : ∀ a, 4 * i ≤ a → a < 4 * i + 4 → m'.readByte a = m.readByte a) : m'.readElem i = m.readElem i := by
  simp only [Memory.readElem]
  rw [h _ (by omega) (by omega), h _ (by omega) (by omega), h _ (by omega) (by omega), h _ (by omega) (by omega)]

/-- The element that is mixed holds the sum of what it held and the value. -/
theorem mixElem_readElem_same (hm : m.wf words = true) {i : Nat} (hi : i < words) (x : F64) :
    (mixElem tag c m i x).readElem i = outPattern tag c i (F64.add (F64.ofF32 (m.readElem i)) x) :=
  Memory.readElem_writeElem_same hm hi _

/-- Mixing an element leaves the others. -/
theorem mixElem_readElem_other (m : Memory) {i k : Nat} (x : F64) (h : k ≠ i) :
    (mixElem tag c m i x).readElem k = m.readElem k :=
  Memory.readElem_writeElem_other m _ h

/-- Mixing an element that exists keeps the canonical form. -/
theorem mixElem_wf (hm : m.wf words = true) {i : Nat} (hi : i < words) (x : F64) :
    (mixElem tag c m i x).wf words = true :=
  Memory.wf_writeElem hm hi _

/-- One sample mixed: left and right value into the sample's two elements. -/
def mixSample (tag c : Nat) (m : Memory) (j : Nat) (y : Stereo) : Memory :=
  mixElem tag c (mixElem tag c m (2 * j) y.l) (2 * j + 1) y.r

/-- A sample's left value is added to its first element. -/
theorem mixSample_readElem_left (hm : m.wf words = true) {j : Nat} (hj : 2 * j + 1 < words) (y : Stereo) :
    (mixSample tag c m j y).readElem (2 * j) =
      outPattern tag c (2 * j) (F64.add (F64.ofF32 (m.readElem (2 * j))) y.l) := by
  rw [mixSample, mixElem_readElem_other tag c _ _ (by omega), mixElem_readElem_same tag c hm (by omega)]

/-- A sample's right value is added to its second element. -/
theorem mixSample_readElem_right (hm : m.wf words = true) {j : Nat} (hj : 2 * j + 1 < words) (y : Stereo) :
    (mixSample tag c m j y).readElem (2 * j + 1) =
      outPattern tag c (2 * j + 1) (F64.add (F64.ofF32 (m.readElem (2 * j + 1))) y.r) := by
  rw [mixSample, mixElem_readElem_same tag c (mixElem_wf tag c hm (by omega) y.l) hj,
    mixElem_readElem_other tag c m _ (by omega)]

/-- A sample leaves the elements after its own. -/
theorem mixSample_readElem_after (m : Memory) {j i : Nat} (hi : 2 * j + 1 < i) (y : Stereo) :
    (mixSample tag c m j y).readElem i = m.readElem i := by
  rw [mixSample, mixElem_readElem_other tag c _ _ (by omega), mixElem_readElem_other tag c m _ (by omega)]

/-- A sample mixed into output memory keeps its canonical form. -/
theorem mixSample_wf (hm : m.wf words = true) {j : Nat} (hj : 2 * j + 1 < words) (y : Stereo) :
    (mixSample tag c m j y).wf words = true :=
  mixElem_wf tag c (mixElem_wf tag c hm (by omega) y.l) hj y.r

/-- A block leaves the elements before its own. -/
theorem mixBlock_readElem_before (j : Nat) (m : Memory) (ys : List Stereo) {i : Nat} (hi : i < 2 * j) :
    (mixBlock tag c j m ys).readElem i = m.readElem i :=
  Memory.readElem_congr fun _ _ ha => mixBlock_other tag c j m ys (.inl (by omega))

/-- A block is mixed sample by sample. -/
theorem mixBlock_cons (j : Nat) (m : Memory) (y : Stereo) (ys : List Stereo) :
    mixBlock tag c j m (y :: ys) = mixBlock tag c (j + 1) (mixSample tag c m j y) ys := rfl

/-- The two elements of a block's sample. -/
theorem mixBlock_readElem (hm : m.wf words = true) (j : Nat) (ys : List Stereo) (hlen : 2 * (j + ys.length) ≤ words)
    {k : Nat} {y : Stereo} (hy : ys[k]? = some y) :
    (mixBlock tag c j m ys).readElem (2 * (j + k)) =
        outPattern tag c (2 * (j + k)) (F64.add (F64.ofF32 (m.readElem (2 * (j + k)))) y.l) ∧
      (mixBlock tag c j m ys).readElem (2 * (j + k) + 1) =
        outPattern tag c (2 * (j + k) + 1) (F64.add (F64.ofF32 (m.readElem (2 * (j + k) + 1))) y.r) := by
  induction ys generalizing j m k with
  | nil => cases hy
  | cons z ys ih =>
    rw [List.length_cons] at hlen
    rw [mixBlock_cons]
    cases k with
    | zero =>
      obtain rfl : z = y := Option.some.inj hy
      rw [Nat.add_zero, mixBlock_readElem_before tag c _ _ _ (by omega),
        mixBlock_readElem_before tag c _ _ _ (by omega)]
      exact ⟨mixSample_readElem_left tag c hm (by omega) z, mixSample_readElem_right tag c hm (by omega) z⟩
    | succ k =>
      have hrest := ih (mixSample_wf tag c hm (j := j) (by omega) z) (j + 1) (by omega) hy
      rwa [Nat.add_right_comm, Nat.add_assoc, mixSample_readElem_after tag c m (by omega),
        mixSample_readElem_after tag c m (by omega)] at hrest

end Mix

/-- Settles O37: it holds. -/
theorem mixAddsToOutput : Obligations.MixAddsToOutput := by
  unfold Obligations.MixAddsToOutput
  intro tag c words m ys hm hlen
  rw [← Nat.zero_add ys.length] at hlen
  refine ⟨fun j y hy => ?_, fun a ha => mixBlock_other tag c 0 m ys (.inr (by omega)),
    mixBlock_wf tag c 0 hm ys hlen⟩
  intro l r
  obtain ⟨hl, hr⟩ := mixBlock_readElem tag c hm 0 ys hlen hy
  rw [Nat.zero_add] at hl hr
  rw [hl, hr]
  exact ⟨fun h => outPattern_of_not_nan h .., fun h => outPattern_of_nan h .., fun h => outPattern_of_not_nan h ..,
    fun h => outPattern_of_nan h ..⟩

end Sys2Proof.Machine
end

section
/-!
PROOFS. Runs of the block (R89, R272, R278): an idle block keeps its state, words that are no command set
`ERR_ILLEGAL`, and a host that only writes the command port and resets never stops it.
-/

namespace Sys2Proof.Machine

/-! ### Idle (R278) -/

/-- With no access of the host to come, a step keeps the state. -/
theorem step_idle {s : State} (hin : s.input = []) : step s = .next s := by
  rw [step, hin]

/-- Settles O8: it holds, by induction on the number of steps. -/
theorem idleKeepsState : Obligations.IdleKeepsState := by
  unfold Obligations.IdleKeepsState
  intro s t k hin
  induction k with
  | zero => exact Iff.rfl
  | succ k ih =>
    rw [← ih, RunsTo, step_idle hin]
    constructor
    · rintro ⟨u, hstep, hrun⟩
      cases hstep
      exact hrun
    · exact fun hrun => ⟨s, rfl, hrun⟩

/-! ### Words that are no command (R262) -/

/-- Settles O7: it holds, since decoding rejects what R262 lists. -/
theorem illegalCommandRaises : Obligations.IllegalCommandRaises := by
  unfold Obligations.IllegalCommandRaises
  intro s h d rest hport hin hillegal
  obtain ⟨why, hrejected⟩ := (rejectedExactlyWhenIllegal h d).mpr hillegal
  rw [step_dataWord hport hin]
  refine runWords_rejected (fun i hi => ?_) _
  rw [hrejected] at hi
  cases hi

/-! ### Safe runs (R272) -/

/-- Any two words run to a next state, and leave what the host does next. -/
theorem runWords_total (h d : Word) (s : State) : ∃ t, runWords h d s = .next t ∧ t.input = s.input := by
  cases hd : decode h d with
  | ok i =>
    obtain ⟨t, ht⟩ := exec_total i s
    obtain ⟨u, hw, rfl⟩ := exec_written ht
    obtain ⟨-, -, hinput, -⟩ := hw.fixed
    exact ⟨_, (runWords_ok hd s).trans ht, hinput⟩
  | rejected why =>
    refine ⟨errorState 0 s, runWords_rejected (fun i hi => ?_) s, rfl⟩
    rw [hd] at hi
    cases hi

/-- A write to the command port answers a next state in either phase (R281). -/
theorem portWrite_total (w : Word) (s : State) : ∃ t, portWrite w s = .next t ∧ t.input = s.input := by
  unfold portWrite
  split
  · exact ⟨_, rfl, rfl⟩
  · exact runWords_total _ w _

/-- The host's access is a write to the command port or the reset event. -/
def HostEvent.onPort (e : HostEvent) : Prop := e = .reset ∨ ∃ w, e = .port w

/-- With only such accesses to come, a step answers a next state with only such accesses to come. -/
theorem step_onPort {s : State} (h : ∀ e ∈ s.input, e.onPort) :
    ∃ t, step s = .next t ∧ ∀ e ∈ t.input, e.onPort := by
  cases hin : s.input with
  | nil => exact ⟨s, step_idle hin, h⟩
  | cons e rest =>
    rw [hin, List.forall_mem_cons] at h
    obtain ⟨rfl | ⟨w, rfl⟩, hrest⟩ := h
    · exact ⟨_, step_cons hin, hrest⟩
    · obtain ⟨t, ht, hinput⟩ := portWrite_total w { s with input := rest }
      exact ⟨t, (step_cons hin).trans ht, by rw [hinput]; exact hrest⟩

/-- Settles O16: it holds, by induction on the number of steps: each answers a next state (`step_onPort`). -/
theorem portRunsAreSafe : Obligations.PortRunsAreSafe := by
  unfold Obligations.PortRunsAreSafe
  intro s k h
  induction k generalizing s with
  | zero => exact ⟨s, rfl⟩
  | succ k ih =>
    obtain ⟨u, hstep, hu⟩ := step_onPort h
    obtain ⟨t, hrun⟩ := ih u hu
    exact ⟨t, u, hstep, hrun⟩

end Sys2Proof.Machine
end

section
/-!
PROOFS. The sticky error bits (R261, R269): what a command may do to them, and that it does not read them.
-/

namespace Sys2Proof.Machine

/-! ### What a command does to `STATUS` -/

/-- A command that does not end in an error leaves `STATUS` before `ANY_VOICE` is recomputed; CLRSTAT clears. -/
theorem effect_status {i : Instr} {s u : State} (h : Effect i s u) :
    u.status = s.status ∨ ∃ m, i = .clrstat m ∧ u.status = statusCleared s.status m := by
  cases i with
  | nop => cases h; exact .inl rfl
  | setv => obtain ⟨_, _, _, _, _, _, _, rfl⟩ := h; exact .inl rfl
  | noteon => obtain ⟨_, _, _, ⟨_, rfl⟩ | ⟨_, _, rfl⟩⟩ := h <;> exact .inl rfl
  | release => obtain ⟨_, _, _, rfl⟩ := h; exact .inl rfl
  | kill => obtain ⟨_, _, _, rfl⟩ := h; exact .inl rfl
  | updargs => obtain ⟨_, _, _, rfl⟩ := h; exact .inl rfl
  | updargsCh => cases h; exact .inl rfl
  | setc => obtain ⟨_, _, _, _, rfl⟩ := h; exact .inl rfl
  | setg => obtain ⟨_, _, _, _, _, rfl⟩ := h; exact .inl rfl
  | process n =>
    obtain ⟨_, _, rfl⟩ := h
    obtain ⟨-, -, hstatus, -⟩ := processBlock_frame n.toNat s
    exact .inl hstatus
  | noteoff => obtain ⟨_, rfl⟩ | ⟨_, _, rfl⟩ := h <;> exact .inl rfl
  | alloff => cases h; exact .inl rfl
  | clrstat m => obtain ⟨_, rfl⟩ := h; exact .inr ⟨m, rfl, rfl⟩
  | rdvoice => obtain ⟨_, _, _, _, rfl⟩ := h; exact .inl rfl

/-- A command that does not end in an error sets no error bit. -/
theorem effect_sets_no_error {i : Instr} {s u : State} (h : Effect i s u) {k : Nat} (hk : k < 5)
    (hbit : u.complete.status.getLsbD k = true) : s.status.getLsbD k = true := by
  rw [State.complete_bit u (by omega) (by omega)] at hbit
  obtain hstatus | ⟨m, -, hstatus⟩ := effect_status h <;> rw [hstatus] at hbit
  · exact hbit
  · rw [statusCleared_bit _ _ (by omega), Bool.and_eq_true] at hbit
    exact hbit.1

/-- An error bit that an error sets is the error's own. -/
theorem eq_bit_of_raised {e : Err} {s : State} {k : Nat} (hk : k < 5) (hclear : s.status.getLsbD k = false)
    (hset : (raised e s).status.getLsbD k = true) : k = e.bit := by
  rw [raised_bit _ _ (by omega), if_neg (by omega), hclear, Bool.false_or] at hset
  exact of_decide_eq_true hset

/-- An error leaves every bit of `STATUS` but its own and `ANY_VOICE` (R261). -/
theorem raised_bit_other (e : Err) (s : State) {j : Nat} (h8 : j ≠ 8) (hj : j ≠ e.bit) :
    (raised e s).status.getLsbD j = s.status.getLsbD j := by
  by_cases h32 : j < 32
  · rw [raised_bit _ _ h32, if_neg h8, decide_eq_false hj, Bool.or_false]
  · rw [BitVec.getLsbD_of_ge _ _ (by omega), BitVec.getLsbD_of_ge _ _ (by omega)]

/-- An error clears no error bit (R261). -/
theorem raised_keeps_error {e : Err} {s : State} {k : Nat} (hk : k < 5) (hbit : s.status.getLsbD k = true) :
    (raised e s).status.getLsbD k = true := by
  rw [raised_bit _ _ (by omega), if_neg (by omega), hbit, Bool.true_or]

/-- Settles O11: it holds.  A bit newly set is that of the error the command ends in, which changes `STATUS` only. -/
theorem errorsArePreciseAndSticky : Obligations.ErrorsArePreciseAndSticky := by
  unfold Obligations.ErrorsArePreciseAndSticky
  intro i s t k hk h
  obtain ⟨e, rfl⟩ | ⟨u, hu, rfl⟩ := exec_cases h
  · refine ⟨fun hclear hset => ⟨raised_frame e s, fun j h8 hj => ?_⟩, fun hbit _ => raised_keeps_error hk hbit⟩
    rw [eq_bit_of_raised hk hclear hset] at hj
    exact raised_bit_other e s h8 hj
  · refine ⟨fun hclear hset => ?_, fun hbit hclr => ?_⟩
    · rw [effect_sets_no_error hu hk hset] at hclear
      cases hclear
    · obtain hstatus | ⟨m, hi, -⟩ := effect_status hu
      · rw [State.complete_bit u (by omega) (by omega), hstatus]
        exact hbit
      · exact absurd hi (hclr m)

/-! ### No command reads `STATUS` (R261) -/

/-- Where the first outcome is a next state, so is the second, and with the same state but for `STATUS`. -/
def SameOffStatus (o o' : Host.Outcome State Fault Refusal) : Prop :=
  ∀ t, o = .next t → ∃ u, o' = .next u ∧ u = { t with status := u.status }

section SameOffStatus

variable (s : State) (st : Word)

/-- Commands that end in states that differ in `STATUS` only end the same. -/
theorem SameOffStatus.done : SameOffStatus (State.done s) (State.done { s with status := st }) := by
  intro t ht
  cases ht
  exact ⟨_, rfl, rfl⟩

/-- An error is the same error whatever `STATUS` holds. -/
theorem SameOffStatus.raise (e : Err) : SameOffStatus (State.raise e s) (State.raise e { s with status := st }) := by
  intro t ht
  cases ht
  exact ⟨_, rfl, rfl⟩

/-- A command on a slot finds the same slot whatever `STATUS` holds. -/
theorem SameOffStatus.withSlot (v : BitVec 8) {k k' : Voice → Host.Outcome State Fault Refusal}
    (h : ∀ w, SameOffStatus (k w) (k' w)) :
    SameOffStatus (State.withSlot v s k) (State.withSlot v { s with status := st } k') := by
  unfold State.withSlot
  cases s.voices[v.toNat]? with
  | none => exact .raise s st .noVoice
  | some w => exact h w

/-- Either branch of a check ends the same. -/
theorem SameOffStatus.ite {c : Prop} [Decidable c] {a b a' b' : Host.Outcome State Fault Refusal}
    (ht : SameOffStatus a a') (hf : SameOffStatus b b') :
    SameOffStatus (if c then a else b) (if c then a' else b') := by
  split
  · exact ht
  · exact hf

end SameOffStatus

/-- A PROCESS carries `STATUS` through (R230, R45). -/
theorem processBlock_status_irrelevant (n : Nat) (s : State) (st : Word) :
    processBlock n { s with status := st } = { processBlock n s with status := st } := by
  have hfold : ∀ (cs : List (BitVec 4)) (s : State), cs.foldl (processChannel n) { s with status := st } =
      { cs.foldl (processChannel n) s with status := st } := by
    intro cs
    induction cs with
    | nil => exact fun _ => rfl
    | cons c cs ih => exact fun s => ih (processChannel n s c)
  unfold processBlock
  rw [hfold]

/-- What a command answers, but for `STATUS`, does not depend on `STATUS`. -/
theorem exec_sameOffStatus (i : Instr) (s : State) (st : Word) :
    SameOffStatus (exec i s) (exec i { s with status := st }) := by
  cases i with
  | nop => exact .done s st
  | setv sel v d =>
    simp only [exec, execSetv]
    cases voiceRegOf sel with
    | none => exact .raise s st _
    | some r =>
      refine .withSlot s st v fun w => .ite (.raise s st _) ?_
      cases w.birth.write r d with
      | none => exact .raise s st _
      | some b => exact .done (s.setVoice v.toNat { w with birth := b }) st
  | noteon ch v off =>
    exact .withSlot s st v fun w => .ite (.raise s st _) <| .ite (.done s st) <| .ite (.raise s st _) <|
      .done { s.setVoice v.toNat (newVoice ch (s.chan ch).args s.glob.seq off w) with
        glob := { s.glob with seq := narrowU64 (s.glob.seq.toNat + 1) } } st
  | release v =>
    exact .withSlot s st v fun w => .ite (.raise s st _) (.done (s.setVoice v.toNat w.release) st)
  | kill v => exact .withSlot s st v fun w => .ite (.raise s st _) (.done (s.setVoice v.toNat w.kill) st)
  | updargs v =>
    exact .withSlot s st v fun w => .ite (.raise s st _)
      (.done (s.setVoice v.toNat { w with argp := (s.chan w.ch).args }) st)
  | updargsCh ch => exact .done { s with voices := s.voices.map (updargsSlot ch (s.chan ch).args) } st
  | setc sel ch d =>
    simp only [exec, execSetc]
    cases chanRegOf sel with
    | none => exact .raise s st _
    | some r =>
      simp only [show ({ s with status := st } : State).chan ch = s.chan ch from rfl]
      cases (s.chan ch).write r d with
      | none => exact .raise s st _
      | some c => exact .done (s.setChan ch (if r = .reverbType then c.resetReverb s.cfg s.glob else c)) st
  | setg sel d =>
    simp only [exec, execSetg]
    cases globRegOf sel with
    | none => exact .raise s st _
    | some r =>
      refine .ite (.raise s st _) ?_
      cases s.glob.write r d with
      | none => exact .raise s st _
      | some g =>
        exact .done
          { s with
            glob := g
            chans := if r = .spf ∧ g.spf ≠ s.glob.spf then resetAllReverbs s.cfg g s.chans else s.chans } st
  | process n =>
    simp only [exec, execProcess, processBlock_status_irrelevant]
    exact .ite (.raise s st _) (.done (processBlock n.toNat s) st)
  | noteoff ch key =>
    simp only [exec, execNoteoff]
    cases oldestSeq ch (assembleU 127 key) s.voices with
    | none => exact .done s st
    | some q => exact .done { s with voices := releaseOldest ch (assembleU 127 key) q s.voices } st
  | alloff => exact .done { s with voices := s.voices.map alloffSlot } st
  | clrstat m =>
    simp only [exec, execClrstat]
    cases assembleB 0x1F m with
    | none => exact .raise s st _
    | some _ => exact .done { s with status := statusCleared s.status m } (statusCleared st m)
  | rdvoice sel v =>
    simp only [exec, execRdvoice]
    cases readItemOf sel with
    | none => exact .raise s st _
    | some it => exact .withSlot s st v fun w => .done { s with result := narrowResult (w.item it) } st

/-- Settles O13: it holds, command by command (`exec_sameOffStatus`). -/
theorem statusInfluencesNothing : Obligations.StatusInfluencesNothing := by
  unfold Obligations.StatusInfluencesNothing
  exact fun i s t st h => exec_sameOffStatus i s st t h

end Sys2Proof.Machine
end

section
/-!
PROOFS. The causes of `ERR_BUSY`, `ERR_NOVOICE`, `ERR_RANGE` and `ERR_STATE` (R263-R266): each form of a command is
run once into its error (`exec_setv_range`, `exec_setg_range`), and the statements are these runs at their selectors.
-/

namespace Sys2Proof.Machine

/-! ### Selectors that are not reserved (R86, R88) -/

/-- The selectors below 0x17 are those of the birth fields (R33, R86). -/
theorem exists_voiceReg {sel : BitVec 8} (h : sel.toNat < 0x17) : ∃ r : VoiceReg, voiceRegOf sel = some r := by
  have hall : ∀ sel : BitVec 8, sel.toNat < 0x17 → (voiceRegOf sel).isSome = true := by decide
  exact Option.isSome_iff_exists.mp (hall sel h)

/-- The selectors below 0x0A are those of the readback items (R145, R88). -/
theorem exists_readItem {sel : BitVec 8} (h : sel.toNat < 0x0A) : ∃ it : ReadItem, readItemOf sel = some it := by
  have hall : ∀ sel : BitVec 8, sel.toNat < 0x0A → (readItemOf sel).isSome = true := by decide
  exact Option.isSome_iff_exists.mp (hall sel h)

/-! ### `ERR_BUSY` (R264) -/

/-- SETV of a field of a slot that is not FREE. -/
theorem exec_setv_busy {s : State} {v : BitVec 8} {w : Voice} {sel : BitVec 8} (hw : s.voices[v.toNat]? = some w)
    (hf : w.state ≠ .free) (hsel : sel.toNat < 0x17) (d : Word) :
    exec (.setv sel v d) s = .next (errorState 2 s) := by
  obtain ⟨r, hr⟩ := exists_voiceReg hsel
  simp only [exec, execSetv, hr]
  exact withSlot_raise (e := .busy) hw (if_pos hf)

/-- Settles O17: it holds. -/
theorem busySlotErrors : Obligations.BusySlotErrors := by
  unfold Obligations.BusySlotErrors
  intro s v w sel ch d hw hf
  exact ⟨fun hsel => exec_setv_busy hw hf hsel d, exec_noteon_busy hw ch d hf⟩

/-! ### `ERR_NOVOICE` (R265) -/

/-- A command on a slot that does not exist answers the error. -/
theorem withSlot_noVoice {s : State} {v : BitVec 8} (h : s.voices[v.toNat]? = none)
    (k : Voice → Host.Outcome State Fault Refusal) : State.withSlot v s k = .next (errorState 3 s) := by
  rw [State.withSlot_none h]
  exact State.raise_errorState .noVoice s

/-- UPDARGS.CH leaves a slot that is not a live one of the channel (R143). -/
theorem updargsSlot_other {ch : BitVec 4} {args : Args} {w : Voice} (h : w.state.live = true → w.ch ≠ ch) :
    updargsSlot ch args w = w :=
  if_neg fun hw => h hw.1 hw.2

/-- A command that changes nothing leaves a state whose `ANY_VOICE` is right. -/
theorem State.done_self {s : State} (h : s.statusWf) : s.done = .next s := by
  rw [State.done_def, statusFor_self h]

/-- NOTEOFF with no candidate is a no-op. -/
theorem exec_noteoff_none {s : State} {ch : BitVec 4} {key : Word} (hs : s.statusWf)
    (h : ∀ w ∈ s.voices, noteoffCandidate ch (assembleU 127 key) w = false) :
    exec (.noteoff ch key) s = .next s := by
  simp only [exec, execNoteoff, oldestSeq_none h, State.done_self hs]

/-- UPDARGS.CH of a channel with no live voice is a no-op. -/
theorem exec_updargsCh_none {s : State} {ch : BitVec 4} (hs : s.statusWf)
    (h : ∀ w ∈ s.voices, w.state.live = true → w.ch ≠ ch) : exec (.updargsCh ch) s = .next s := by
  have hmap : s.voices.map (updargsSlot ch (s.chan ch).args) = s.voices :=
    (List.map_congr_left fun w hw => updargsSlot_other (h w hw)).trans (List.map_id _)
  rw [exec, execUpdargsCh, hmap]
  exact State.done_self hs

/-- Settles O18: it holds. -/
theorem noVoiceErrors : Obligations.NoVoiceErrors := by
  unfold Obligations.NoVoiceErrors
  refine ⟨fun s v sel ch d hslots hv => ?_, fun s v w hw hf => ?_, fun s ch key hs hnone => ?_,
    fun s ch hs hnone => exec_updargsCh_none hs hnone⟩
  · have hmissing : s.voices[v.toNat]? = none := List.getElem?_eq_none (by rw [hslots]; exact hv)
    refine ⟨fun hsel => ?_, withSlot_noVoice hmissing _, withSlot_noVoice hmissing _, withSlot_noVoice hmissing _,
      withSlot_noVoice hmissing _, fun hsel => ?_⟩
    · obtain ⟨r, hr⟩ := exists_voiceReg hsel
      simp only [exec, execSetv, hr, withSlot_noVoice hmissing]
    · obtain ⟨it, hit⟩ := exists_readItem hsel
      simp only [exec, execRdvoice, hit, withSlot_noVoice hmissing]
  · exact ⟨withSlot_raise (e := .noVoice) hw (if_pos hf), withSlot_raise (e := .noVoice) hw (if_pos hf),
      withSlot_raise (e := .noVoice) hw (if_pos hf)⟩
  · refine exec_noteoff_none hs fun w hw => Bool.eq_false_iff.mpr fun hc => ?_
    obtain ⟨hlive, hch, hkey, hunreleased⟩ := noteoffCandidate_iff.mp hc
    rw [hnone w hw hlive hch hkey] at hunreleased
    cases hunreleased

/-! ### `ERR_RANGE` (R263) -/

/-- SETV of data that the field refuses, on a FREE slot. -/
theorem exec_setv_range {s : State} {v : BitVec 8} {w : Voice} {r : VoiceReg} {d : Word}
    (hw : s.voices[v.toNat]? = some w) (hf : w.state = .free) (hb : w.birth.write r d = none) :
    exec (.setv r.sel v d) s = .next (errorState 1 s) := by
  simp only [exec, execSetv, voiceRegOf_sel]
  exact withSlot_raise (e := .range) hw (by simp only [hf, ne_eq, not_true_eq_false, if_false, hb])

/-- SETG of data that the register refuses, the slots FREE where it needs them to be. -/
theorem exec_setg_range {s : State} {r : GlobReg} {d : Word}
    (hfree : r.needsSilence = true → anyVoice s.voices = false) (hg : s.glob.write r d = none) :
    exec (.setg r.sel d) s = .next (errorState 1 s) := by
  have hquiet : (r.needsSilence && anyVoice s.voices) = false := by
    cases hn : r.needsSilence with
    | false => rfl
    | true => exact hfree hn
  simp only [exec, execSetg, globRegOf_sel, hquiet, hg]
  exact State.raise_errorState .range s

/-- PROCESS of no sample, or of more than a block holds. -/
theorem exec_process_range {s : State} {n : Word} (h : n.toNat = 0 ∨ s.cfg.blockMax < n.toNat) :
    exec (.process n) s = .next (errorState 1 s) :=
  (if_pos h).trans (State.raise_errorState .range s)

/-- No generator has a number above 6 (R33). -/
theorem dspTypeOf_of_gt : ∀ {n : Nat}, 6 < n → dspTypeOf n = none
  | _ + 7, _ => rfl

/-- A flag has no value above 1 (R33). -/
theorem flagOf_of_gt : ∀ {n : Nat}, 1 < n → flagOf n = none
  | _ + 2, _ => rfl

/-- `DUTY` has no value above 3 (R33). -/
theorem dutyOf_of_gt {n : Nat} (h : 3 < n) : dutyOf n = none := if_neg (by omega)

/-- A frame has one or two elements (R33). -/
theorem smpChannelsOf_of_ne : ∀ {n : Nat}, n ≠ 1 → n ≠ 2 → smpChannelsOf n = none
  | 0, _, _ => rfl
  | 1, h, _ => absurd rfl h
  | 2, _, h => absurd rfl h
  | _ + 3, _, _ => rfl

/-- Kind b refuses a pattern above its greatest (R82). -/
theorem assembleB_of_gt {hi : Nat} {d : Word} (h : hi < d.toNat) : assembleB hi d = none := if_neg (by omega)

/-- The birth fields that hold numbers (kinds u and s of R33). -/
def numericVoiceRegs : List VoiceReg :=
  [.key, .velocity, .panOffset, .echoVol, .echoLen, .track, .att, .dec, .sus, .rel, .pwmBase, .pwmStep, .pwmDepth,
    .smpBase, .smpEnd, .smpLoopPos]

/-- A birth field that holds a number accepts every data word: it is clamped (R82, R263). -/
theorem Birth.write_numeric {r : VoiceReg} (h : r ∈ numericVoiceRegs) (d : Word) (b : Birth) :
    ∃ b', b.write r d = some b' := by
  cases r with
  | dspType | stairstep | midcFreq | duty | sweep | smpLoopEn | smpChannels => exact absurd h (by decide)
  | _ => exact ⟨_, rfl⟩

/-- SETV of a number never raises an error on a FREE slot. -/
theorem exec_setv_numeric {s : State} {v : BitVec 8} {w : Voice} (hw : s.voices[v.toNat]? = some w)
    (hf : w.state = .free) (d : Word) :
    ∀ sel ∈ numericVoiceRegs.map VoiceReg.sel, ∃ b, exec (.setv sel v d) s = birthAnswer s v w b := by
  rw [List.forall_mem_map]
  intro r hr
  obtain ⟨b, hb⟩ := Birth.write_numeric hr d w.birth
  exact ⟨b, exec_setv hw hf hb⟩

/-- The channel registers that hold numbers (kinds u and s of R24). -/
def numericChanRegs : List ChanReg :=
  [.volume, .pan, .tune, .pitchWheel, .bendRange, .lfoSpeed, .lfoDepth, .reverbIntensity]

/-- SETC of a number never raises an error: it is clamped (R82, R263). -/
theorem exec_setc_numeric (s : State) (ch : BitVec 4) (d : Word) :
    ∀ sel ∈ numericChanRegs.map ChanReg.sel, ∃ c, exec (.setc sel ch d) s = chanAnswer s ch c := by
  rw [List.forall_mem_map]
  intro r hr
  have hwrite : r ≠ .reverbType ∧ ∃ c, (s.chan ch).write r d = some c := by
    cases r with
    | reverbType => exact absurd hr (by decide)
    | _ => exact ⟨nofun, _, rfl⟩
  obtain ⟨hne, c, hc⟩ := hwrite
  exact ⟨c, exec_setc hne hc⟩

/-- SETV's causes of `ERR_RANGE`, field by field (R33). -/
theorem Birth.write_range (b : Birth) (d : Word) :
    (6 < d.toNat → b.write .dspType d = none) ∧ (1 < d.toNat → b.write .stairstep d = none) ∧
      (¬ f32Positive d → b.write .midcFreq d = none) ∧ (3 < d.toNat → b.write .duty d = none) ∧
      (0xFF < d.toNat → b.write .sweep d = none) ∧ (1 < d.toNat → b.write .smpLoopEn d = none) ∧
      (d ≠ 1#32 → d ≠ 2#32 → b.write .smpChannels d = none) := by
  simp only [Birth.write, Option.map_eq_none_iff, assembleE]
  exact ⟨dspTypeOf_of_gt, flagOf_of_gt, fun h => assembleF_none (mt positive_iff.mp h), dutyOf_of_gt,
    assembleB_of_gt, flagOf_of_gt,
    fun h1 h2 => smpChannelsOf_of_ne (fun h => h1 (BitVec.eq_of_toNat_eq h)) fun h => h2 (BitVec.eq_of_toNat_eq h)⟩

/-- SETG's causes of `ERR_RANGE`, register by register (R22). -/
theorem Globals.write_range (g : Globals) (d : Word) :
    (¬ f32Finite d → g.write .outputGain d = none) ∧ (¬ f32Positive d → g.write .sampleRate d = none) ∧
      (d.toNat = 0 ∨ 65535 < d.toNat → g.write .spf d = none) ∧
      (¬ f32NonNegative d → g.write .bpm d = none) := by
  simp only [Globals.write, Option.map_eq_none_iff]
  exact ⟨fun h => assembleF_none fun hd => h hd.1, fun h => assembleF_none (mt positive_iff.mp h),
    fun h => if_pos h, fun h => assembleF_none (mt nonNegative_iff.mp h)⟩

/-- Settles O19: it holds, cause by cause. -/
theorem rangeErrors : Obligations.RangeErrors := by
  unfold Obligations.RangeErrors
  refine ⟨fun s v w d hw hf => ?_, fun s ch d => ?_, fun s d hfree => ?_⟩
  · obtain ⟨hdsp, hstair, hmidc, hduty, hsweep, hloop, hchannels⟩ := w.birth.write_range d
    exact ⟨fun h => exec_setv_range (r := .dspType) hw hf (hdsp h),
      fun h => exec_setv_range (r := .stairstep) hw hf (hstair h),
      fun h => exec_setv_range (r := .midcFreq) hw hf (hmidc h),
      fun h => exec_setv_range (r := .duty) hw hf (hduty h),
      fun h => exec_setv_range (r := .sweep) hw hf (hsweep h),
      fun h => exec_setv_range (r := .smpLoopEn) hw hf (hloop h),
      fun h1 h2 => exec_setv_range (r := .smpChannels) hw hf (hchannels h1 h2),
      exec_setv_numeric hw hf d, fun ch => exec_noteon_region hw ch d hf⟩
  · obtain ⟨hgain, -, -, hbpm⟩ := s.glob.write_range d
    exact ⟨exec_setc_reverbType_range, exec_setc_numeric s ch d,
      fun h => exec_setg_range (r := .outputGain) nofun (hgain h),
      fun h => exec_setg_range (r := .bpm) nofun (hbpm h), exec_process_range, (clrstatRule s d).2⟩
  · obtain ⟨-, hrate, hspf, -⟩ := s.glob.write_range d
    have hquiet := (anyVoice_false_iff s.voices).mpr hfree
    exact ⟨fun h => exec_setg_range (r := .sampleRate) (fun _ => hquiet) (hrate h),
      fun h => exec_setg_range (r := .spf) (fun _ => hquiet) (hspf h)⟩

/-! ### `ERR_STATE` (R266) -/

/-- SETG of a register that needs every slot FREE, while one is not, whatever the data. -/
theorem exec_setg_state {s : State} {r : GlobReg} (hr : r.needsSilence = true) (hany : anyVoice s.voices = true)
    (d : Word) : exec (.setg r.sel d) s = .next (errorState 4 s) := by
  simp only [exec, execSetg, globRegOf_sel, hr, hany, Bool.and_self, if_true]
  exact State.raise_errorState .state s

/-- Settles O20: it holds. -/
theorem stateErrors : Obligations.StateErrors := by
  unfold Obligations.StateErrors
  intro s w d hw hf
  have hany := (anyVoice_iff s.voices).mpr ⟨w, hw, hf⟩
  exact ⟨exec_setg_state (r := .sampleRate) rfl hany d, exec_setg_state (r := .spf) rfl hany d⟩

end Sys2Proof.Machine
end

section
/-!
PROOFS. The command port (R281): which writes latch a header, which run a command, and the phase either leaves.
-/

namespace Sys2Proof.Machine

/-- In phase HEADER the write of a word latches it and does nothing else. -/
theorem step_headerWord {s : State} {w : Word} {rest : List HostEvent} (hport : s.port = .header)
    (hin : s.input = .port w :: rest) : step s = .next { s with port := .data w, input := rest } := by
  rw [step_cons hin, hostStep, portWrite]
  simp only [hport]

/-- Whatever two words do, they leave the phase of the port. -/
theorem runWords_port {h d : Word} {s t : State} (hrun : runWords h d s = .next t) : t.port = s.port := by
  unfold runWords at hrun
  split at hrun
  · obtain ⟨u, hw, rfl⟩ := exec_written hrun
    obtain ⟨-, hport, -⟩ := hw.fixed
    rw [State.complete_port, hport]
  · rw [State.raise_next hrun]

/-- Settles O6: it holds.  No command changes the phase (`runWords_port`), so the port expects a header again after
the data word, whether the two words are a command or not. -/
theorem portProtocol : Obligations.PortProtocol := by
  unfold Obligations.PortProtocol
  refine ⟨fun s w rest => step_headerWord, fun s h d rest hport hin => ?_, fun s rest hin => ?_⟩
  · have hstep := step_dataWord hport hin
    obtain ⟨t, hrun, hinput⟩ := runWords_total h d { s with port := .header, input := rest }
    exact ⟨hstep, t, hstep.trans hrun, runWords_port hrun, hinput⟩
  · exact ⟨({ s with input := rest } : State).hostReset, step_cons hin, State.hostReset_port _,
      State.hostReset_input _⟩

end Sys2Proof.Machine
end
